-- ==== Sys2Proof/Word.lean ====
section
/-! DEFINITION. Words, fixed sizes and the records the tables hold (00_scope R6, R7, R13; 10_state R36, R38, R40). -/

namespace Sys2Proof

/-- The unit of every byte memory and a Symbol (20_memory R70). -/
abbrev Byte := BitVec 8

/-- A 32-bit register or command word (10_state R21, 30_encoding R100). -/
abbrev Word := BitVec 32

/-- Number of symbols, NSYM (00_scope R6). -/
abbrev nsym : Nat := 256

/-- Greatest codeword length, MAXLEN (00_scope R6). -/
abbrev maxLen : Nat := 255

/-- Cells of the TAG memory, TAG_CAP (00_scope R6). -/
abbrev tagCap : Nat := 255

/-- Entries of the node memory, NNODE (00_scope R7). -/
abbrev nnode : Nat := 511

/-- The four byte memories, each its own address space (10_state R40). -/
inductive Space where
  | raw
  | tag
  | ctr
  | pay
  deriving DecidableEq, Repr

/-- A record of the node memory (10_state R36). -/
structure Node where
  /-- true for a leaf, false for an internal node -/
  leaf  : Bool
  /-- the Symbol of a leaf; 0 in an internal node -/
  sym   : Byte
  /-- the frequency of a leaf, or the combined frequency of an internal node -/
  freq  : Word
  /-- index of the left child; 0 in a leaf -/
  left  : BitVec 9
  /-- index of the right child; 0 in a leaf and in the synthetic root -/
  right : BitVec 9
  /-- true when `right` is a child -/
  rv    : Bool
  deriving DecidableEq, Repr, Inhabited

/-- A record of the codebook table (10_state R38): a codeword (len, val) of 00_scope R13, with its valid bit. -/
structure Code where
  valid : Bool
  len   : BitVec 8
  val   : BitVec 255
  deriving DecidableEq, Repr, Inhabited

/-- The cleared codebook record, valid = 0, len = 0, val = 0 (42_codebook R171, 44_container R224). -/
def Code.clear : Code := ⟨false, 0, 0⟩

end Sys2Proof
end

