-- ==== Sys2Proof/Syntax.lean ====
section
/-! DEFINITION. The commands (30_encoding R102): one constructor per row of the opcode table. -/

namespace Sys2Proof

/-- A command. None has an operand field: every operand is implicit (30_encoding R100, R105). -/
inductive Instr where
  /-- 0x01, unit FA (40_frequency R140) -/
  | freq
  /-- 0x02, unit TB (41_tree_builder R150) -/
  | build
  /-- 0x03, unit CG (42_codebook R170) -/
  | codegen
  /-- 0x04, unit BP (43_bit_packer R190) -/
  | pack
  /-- 0x05, unit FS (44_container R205) -/
  | serialize
  /-- 0x06, unit FP (44_container R220) -/
  | parse
  /-- 0x07, unit DU (45_decoder R240) -/
  | matchBits
  /-- 0x10, SEQ (46_top_level R270) -/
  | encode
  /-- 0x11, SEQ (46_top_level R272) -/
  | decode
  /-- 0x1F, SEQ (46_top_level R275) -/
  | clr
  deriving DecidableEq, Repr, Inhabited

end Sys2Proof
end

