-- ==== Sys2Proof/WellFormed.lean ====
section
/-! DEFINITION. When a command and a command word are well formed (30_encoding R100, R101, R105). -/

namespace Sys2Proof

/-- The op field, bits 7:0 of the command word (30_encoding R100). -/
def opField (w : Word) : BitVec 8 := w.extractLsb' 0 8

/-- The zero field, bits 31:8 of the command word (30_encoding R100). -/
def zeroField (w : Word) : BitVec 24 := w.extractLsb' 8 24

/-- The ten assigned values of the op field (30_encoding R102). -/
def assignedOps : List (BitVec 8) :=
  [0x01, 0x02, 0x03, 0x04, 0x05, 0x06, 0x07, 0x10, 0x11, 0x1F]

/-- First check of a command word: bits 31:8 are 0 (30_encoding R101). -/
def zeroFieldOk (w : Word) : Bool := zeroField w == 0

/-- Second check of a command word: its op is one of the ten (30_encoding R101). -/
def opAssigned (w : Word) : Bool := assignedOps.contains (opField w)

/-- A legal command word (30_encoding R101). -/
def legalWord (w : Word) : Bool := zeroFieldOk w && opAssigned w

/-- A command carries no data, so there is nothing in one to check (30_encoding R105): what can be ill formed is
the word (`legalWord`). -/
def Instr.wellFormed : Instr → Bool
  | .freq      => true
  | .build     => true
  | .codegen   => true
  | .pack      => true
  | .serialize => true
  | .parse     => true
  | .matchBits => true
  | .encode    => true
  | .decode    => true
  | .clr       => true

end Sys2Proof
end

