-- ==== Sys2Proof/Decode.lean ====
section
/-! DEFINITION. Decoding and encoding of the command word (30_encoding R100 to R103). -/

namespace Sys2Proof

/-- Why a word is no command (30_encoding R103). -/
inductive Illegal where
  /-- a bit of 31:8 is set, whatever the op -/
  | zeroFieldNotZero
  /-- bits 31:8 are 0 and the op is none of the ten -/
  | opNotAssigned
  deriving DecidableEq, Repr

/-- The command an op value names (30_encoding R102). -/
def decodeOp (op : BitVec 8) : Option Instr :=
  match op with
  | 0x01#8 => some .freq
  | 0x02#8 => some .build
  | 0x03#8 => some .codegen
  | 0x04#8 => some .pack
  | 0x05#8 => some .serialize
  | 0x06#8 => some .parse
  | 0x07#8 => some .matchBits
  | 0x10#8 => some .encode
  | 0x11#8 => some .decode
  | 0x1F#8 => some .clr
  | _      => none

/-- Decoding of a command word, total: a command or the reason there is none (30_encoding R101, R103). -/
def decodeWord (w : Word) : Except Illegal Instr :=
  if zeroField w = 0 then
    match decodeOp (opField w) with
    | some i => .ok i
    | none   => .error .opNotAssigned
  else .error .zeroFieldNotZero

/-- The command of a legal word, none for an illegal one. -/
def decode (w : Word) : Option Instr :=
  match decodeWord w with
  | .ok i    => some i
  | .error _ => none

/-- The instruction the decoder reads from the command word whose low `nbits` bits are those of `w`. A command is one
32-bit word written to a register, which has no byte order (20_memory R73), so no byte layout takes part. -/
def decodeTableWord (nbits w : Nat) : Option Instr :=
  decode (BitVec.ofNat 32 (w % 2 ^ nbits))

/-- The op value of a command (30_encoding R102). -/
def Instr.op : Instr → BitVec 8
  | .freq      => 0x01
  | .build     => 0x02
  | .codegen   => 0x03
  | .pack      => 0x04
  | .serialize => 0x05
  | .parse     => 0x06
  | .matchBits => 0x07
  | .encode    => 0x10
  | .decode    => 0x11
  | .clr       => 0x1F

/-- The command word: op in bits 7:0, zero in bits 31:8 (30_encoding R100). -/
def encode (i : Instr) : Word := (0 : BitVec 24) ++ i.op

end Sys2Proof
end

