-- ==== Sys2Proof/Config.lean ====
section
/-! DEFINITION. What an implementation fixes (00_scope R8) and the free values (93_implementation_defined U1 to U3). -/

namespace Sys2Proof

/-- A capacity, a natural from 1 to 2^32 - 1 (00_scope R8), held as one less so that no other value can be written
down. -/
structure Cap where
  lessOne : Fin 4294967295
  deriving DecidableEq, Repr

/-- The number of cells. -/
def Cap.cells (c : Cap) : Nat := c.lessOne.val + 1

/-- The capacity of `n` cells, for `n` from 1 to 2^32 - 1. -/
def Cap.ofCells (n : Nat) : Cap := ⟨Fin.ofNat 4294967295 (n - 1)⟩

/-- The parameters of one HCE (00_scope R8), as plain data. TAG_VALID is any total function from the byte strings of
length 0 to 255 to a Boolean; there are finitely many such strings, so the list of the strings it is false of says it
whole (log 8). -/
structure Params where
  rawCap     : Cap
  ctrCap     : Cap
  payCap     : Cap
  invalidTags : List (List Byte)
  deriving DecidableEq, Repr

/-- TAG_VALID (00_scope R8, 44_container R223). -/
def Params.tagValid (p : Params) (tag : List Byte) : Bool := !p.invalidTags.contains tag

/-- The number of cells of a byte memory (10_state R40). -/
def Params.capOf (p : Params) : Space → Nat
  | .raw => p.rawCap.cells
  | .tag => tagCap
  | .ctr => p.ctrCap.cells
  | .pay => p.payCap.cells

/-- DESIGN CHOICE, unsafe (log 8): the parameters State.reset carries. The capacities are the default
92_eei_decisions section 7 lets a model take, 2^32 - 1; every tag is valid, as the conventions of 95_test_vectors
have it. A statement over all states is over all parameters. -/
def Config.params : Params :=
  { rawCap := ⟨4294967294⟩, ctrCap := ⟨4294967294⟩, payCap := ⟨4294967294⟩, invalidTags := [] }

/-- Free value (log 4, U1): the byte a cell holds that nothing has written since the event `stamp`. -/
opaque Config.freeByte : (stamp : Nat) → Space → (index : Nat) → Byte

/-- Free value (log 4, U1): an FT entry that nothing has written since the event `stamp`. -/
opaque Config.freeCount : (stamp : Nat) → (index : Nat) → Word

/-- Free value (logs 4, 6, U1): a NODE record that nothing has written since the event `stamp`. -/
opaque Config.freeNode : (stamp : Nat) → (index : Nat) → Node

/-- Free value (log 4, U1): a CB record that nothing has written since the event `stamp`. -/
opaque Config.freeCode : (stamp : Nat) → (index : Nat) → Code

/-- Free value (log 7, U2): what the host's read number `n` of a register returns while BUSY = 1. -/
opaque Config.freeReadWord : (n : Nat) → Word

/-- Free value (log 7, U2, U3): what the host's read number `n` of a memory returns while BUSY = 1 or at or beyond
the capacity. -/
opaque Config.freeReadByte : (n : Nat) → Byte

/-- Free value (log 7, U2): what the host's read number `n` of FT returns while BUSY = 1. -/
opaque Config.freeReadCount : (n : Nat) → Word

/-- Free value (log 7, U2, U3): what the host's read number `n` of NODE returns while BUSY = 1 or at index 511. -/
opaque Config.freeReadNode : (n : Nat) → Node

/-- Free value (log 7, U2): what the host's read number `n` of CB returns while BUSY = 1. -/
opaque Config.freeReadCode : (n : Nat) → Code

end Sys2Proof
end

