-- ==== Sys2Proof/Machine/State.lean ====
section
/-! DEFINITION. The state of HCE (10_state R20 to R48), why the machine can stop, and reset (70_reset R330, R331). -/

namespace Sys2Proof.Machine

/-- Why the machine stops. No state that a run from reset reaches stops for either reason. -/
inductive Fault where
  /-- Raised by BUILD alone, when the sum of the frequencies of two nodes does not fit the 32 bits of NODE.freq.
  41_tree_builder R158 derives that this never happens and 00_scope R11 that nothing wraps; the spec gives no effect.
  Safe (log 9). -/
  | freqSumTooWide
  /-- Raised by CODEGEN alone, when NODE below ROOT is no tree of a completed BUILD: a path longer than 255, a node
  index that does not exist, or more than 256 leaves. 42_codebook R170 and R178 derive that this never happens; the
  spec gives no effect. Safe (log 10). -/
  | nodeTableNotATree
  deriving DecidableEq, Repr

/-- Why an instruction has no meaning. -/
inductive Refusal where
  /-- The instruction is not modelled yet. Nothing raises it: every command has its meaning. Safe. -/
  | notModelled (mnemonic : String)
  deriving DecidableEq, Repr

/-- The fields of STATUS (10_state R23). The other bits of the register read 0. -/
structure Status where
  busy  : Bool
  done  : Bool
  err   : Bool
  ftV   : Bool
  treeV : Bool
  cbV   : Bool
  payV  : Bool
  deriving DecidableEq, Repr

/-- A byte memory (10_state R40): the cells written since the event `stamp`, addresses strictly rising. A cell not
listed holds the unspecified byte of log 4. -/
structure Memory where
  cells : List Host.Cell
  stamp : Nat
  deriving DecidableEq, Repr

/-- The canonical form of a memory: addresses strictly rising, so that equal contents are equal data. -/
abbrev Memory.wf (m : Memory) : Prop := (m.cells.map Prod.fst).Pairwise (· < ·)

/-- A table of records (10_state R35, R36, R38): the entries 0, 1, … written since the event `stamp`. An entry beyond
them holds the unspecified record of log 4. -/
structure Table (α : Type) where
  rows  : List α
  stamp : Nat
  deriving DecidableEq, Repr

/-- One access the host makes (20_memory R85), a WAIT (30_encoding R125), or a reset (70_reset R330). -/
inductive HostAction where
  /-- HostWrite(REG, v); register 0 is CMD, whose write issues the command `v` (10_state R22) -/
  | writeReg (n : Nat) (v : Word)
  /-- HostRead(REG) -/
  | readReg (n : Nat)
  /-- HostWrite(S, i, b) -/
  | writeMem (sp : Space) (i : Nat) (b : Byte)
  /-- HostRead(S, i) -/
  | readMem (sp : Space) (i : Nat)
  /-- HostRead(FT, s) -/
  | readFreq (s : BitVec 8)
  /-- HostRead(NODE, i) -/
  | readNode (i : BitVec 9)
  /-- HostRead(CB, s) -/
  | readCode (s : BitVec 8)
  /-- WAIT: read STATUS until BUSY = 0 -/
  | wait
  /-- the platform's reset -/
  | reset
  deriving DecidableEq, Repr

/-- What a host read returns (20_memory R85). -/
inductive HostDatum where
  | word (v : Word)
  | byte (b : Byte)
  | count (v : Word)
  | node (r : Node)
  | code (r : Code)
  deriving DecidableEq, Repr

/-- The host's side of the interface, the model's own (log 1, log 7). -/
structure HostSide where
  /-- the actions still to be made, the next one first -/
  script : List HostAction
  /-- what the last read returned -/
  seen   : Option HostDatum
  /-- how many reads were made: the argument of the free values of host reads -/
  reads  : Nat
  deriving DecidableEq, Repr

/-- The whole state (10_state R20), the parameters beside it (00_scope R8), and the model's own fields. -/
structure State where
  /-- STATUS, register 1 -/
  status  : Status
  /-- ERR_CODE, register 2 -/
  errCode : BitVec 4
  /-- ERR_INFO, register 3 -/
  errInfo : Word
  /-- PHASE, register 4 -/
  phase   : BitVec 4
  /-- RAW_LEN, register 5 -/
  rawLen  : Word
  /-- TAG_LEN, register 6 -/
  tagLen  : BitVec 8
  /-- CTR_LEN, register 7 -/
  ctrLen  : Word
  /-- SYM_CNT, register 8 -/
  symCnt  : Word
  /-- PAD_LEN, register 9 -/
  padLen  : BitVec 8
  /-- BIT_LEN, register 10 -/
  bitLen  : Word
  /-- PAY_LEN, register 11 -/
  payLen  : Word
  /-- ROOT, register 12 -/
  root    : BitVec 9
  /-- NODE_CNT, register 13 -/
  nodeCnt : BitVec 10
  /-- FT, the frequency table (R35) -/
  ft      : Table Word
  /-- NODE, the node memory (R36) -/
  node    : Table Node
  /-- CB, the codebook (R38) -/
  cb      : Table Code
  /-- RAW (R41) -/
  raw     : Memory
  /-- TAG (R42) -/
  tag     : Memory
  /-- CTR (R43) -/
  ctr     : Memory
  /-- PAY (R44) -/
  pay     : Memory
  /-- the parameters, which no step changes (R48) -/
  params  : Params
  /-- the number of the next event that leaves contents unspecified (log 4) -/
  fresh   : Nat
  /-- the host's side (log 1) -/
  host    : HostSide
  deriving DecidableEq, Repr

/-- STATUS after reset, 0x00000000 (70_reset R331). -/
def Status.reset : Status := ⟨false, false, false, false, false, false, false⟩

/-- The state after a reset (70_reset R331): every register 0, nothing known of the tables and memories; `stamp` is
the reset's number. The parameters are unchanged and the host is not part of the machine that is reset. -/
def State.afterReset (p : Params) (stamp : Nat) (h : HostSide) : State :=
  { status := Status.reset, errCode := 0, errInfo := 0, phase := 0,
    rawLen := 0, tagLen := 0, ctrLen := 0, symCnt := 0, padLen := 0, bitLen := 0, payLen := 0,
    root := 0, nodeCnt := 0,
    ft := ⟨[], stamp⟩, node := ⟨[], stamp⟩, cb := ⟨[], stamp⟩,
    raw := ⟨[], stamp⟩, tag := ⟨[], stamp⟩, ctr := ⟨[], stamp⟩, pay := ⟨[], stamp⟩,
    params := p, fresh := stamp + 1, host := h }

/-- The state after power-on reset of an HCE with the parameters `p`, with no host action pending. -/
def State.resetWith (p : Params) : State := State.afterReset p 0 ⟨[], none, 0⟩

/-- The machine right after reset, with the parameters of `Config.params` (log 8). -/
def State.reset : State := State.resetWith Config.params

end Sys2Proof.Machine
end

