-- ==== Sys2Proof/Machine/Flags.lean ====
section
/-! DEFINITION. STATUS: its word, the mode, the valid flags; the positions of PHASE; the error kinds
(10_state R23 to R29, 60_exceptions R291). -/

namespace Sys2Proof.Machine

/-- STATUS as the 32-bit word a host reads: BUSY, DONE, ERR in bits 0 to 2, FT_V, TREE_V, CB_V, PAY_V in bits 8 to 11,
every other bit 0 (10_state R23). -/
def Status.word (st : Status) : Word :=
  (0 : BitVec 20) ++ BitVec.ofBool st.payV ++ BitVec.ofBool st.cbV ++ BitVec.ofBool st.treeV ++ BitVec.ofBool st.ftV
    ++ (0 : BitVec 5) ++ BitVec.ofBool st.err ++ BitVec.ofBool st.done ++ BitVec.ofBool st.busy

/-- The modes of the engine (10_state R27). -/
inductive Mode where
  | idle
  | busy
  | fault
  deriving DecidableEq, Repr

/-- The mode as a function of STATUS (10_state R27). -/
def State.mode (s : State) : Mode :=
  if s.status.busy then .busy else if s.status.err then .fault else .idle

/-- The four valid flags (00_scope R18). -/
inductive Flag where
  | ft
  | tree
  | cb
  | pay
  deriving DecidableEq, Repr

/-- The value of a valid flag. -/
def State.flag (s : State) : Flag → Bool
  | .ft   => s.status.ftV
  | .tree => s.status.treeV
  | .cb   => s.status.cbV
  | .pay  => s.status.payV

/-- Writing one valid flag, the others untouched (10_state R24). -/
def State.setFlag (s : State) (f : Flag) (b : Bool) : State :=
  match f with
  | .ft   => { s with status := { s.status with ftV := b } }
  | .tree => { s with status := { s.status with treeV := b } }
  | .cb   => { s with status := { s.status with cbV := b } }
  | .pay  => { s with status := { s.status with payV := b } }

/-- The positions PHASE names (10_state R29). -/
inductive Position where
  | idle
  | fa
  | tb
  | cg
  | bp
  | fs
  | fp
  | du
  | seq
  deriving DecidableEq, Repr

/-- The value of PHASE for a position (10_state R29). -/
def Position.code : Position → BitVec 4
  | .idle => 0
  | .fa   => 1
  | .tb   => 2
  | .cg   => 3
  | .bp   => 4
  | .fs   => 5
  | .fp   => 6
  | .du   => 7
  | .seq  => 8

/-- `PHASE <- u`. -/
def State.setPhase (s : State) (u : Position) : State := { s with phase := u.code }

/-- The eight error kinds (60_exceptions R291). -/
inductive ErrKind where
  | emptyInput
  | truncatedContainer
  | unknownCode
  | extensionDecode
  | illegalCommand
  | sequence
  | missingCode
  | capacity
  deriving DecidableEq, Repr

/-- The value ERR_CODE takes (60_exceptions R291). -/
def ErrKind.code : ErrKind → BitVec 4
  | .emptyInput         => 1
  | .truncatedContainer => 2
  | .unknownCode        => 3
  | .extensionDecode    => 4
  | .illegalCommand     => 5
  | .sequence           => 6
  | .missingCode        => 7
  | .capacity           => 8

end Sys2Proof.Machine
end

