-- ==== Sys2Proof/Machine/Ops.lean ====
section
/-! DEFINITION. The named operations over memories, tables and registers; taking a fault and returning from one;
how a command begins and ends (10_state R21, 20_memory R78 to R85, 46_top_level R260, R275, 60_exceptions R300). -/

namespace Sys2Proof.Machine

/-- The byte listed at an address, none where nothing is listed. -/
def lookupCell : List Host.Cell → Nat → Option Byte
  | [], _ => none
  | c :: cs, a => if c.1 = a then some c.2 else lookupCell cs a

/-- Listing a byte at an address, keeping the addresses rising. -/
def insertCell : List Host.Cell → Nat → Byte → List Host.Cell
  | [], a, b => [(a, b)]
  | c :: cs, a, b =>
    if a < c.1 then (a, b) :: c :: cs
    else if a = c.1 then (a, b) :: cs
    else c :: insertCell cs a b

/-- The byte written at an address since the memory's last event, none where there was no write. What an address with
no listed byte reads as is decided in `State.byteAt` alone. -/
def Memory.get? (m : Memory) (a : Nat) : Option Byte := lookupCell m.cells a

/-- Writing one byte. -/
def Memory.set (m : Memory) (a : Nat) (b : Byte) : Memory := { m with cells := insertCell m.cells a b }

/-- Writing consecutive bytes from an address, the first one lowest (`MemWrite` of 00_scope R14). -/
def Memory.write (m : Memory) (a : Nat) : List Byte → Memory
  | [] => m
  | b :: bs => (m.set a b).write (a + 1) bs

/-- A memory of which nothing is known, after the event `stamp` (10_state R45). -/
def Memory.unknown (stamp : Nat) : Memory := ⟨[], stamp⟩

/-- A table of which nothing is known, after the event `stamp`. -/
def Table.unknown {α : Type} (stamp : Nat) : Table α := ⟨[], stamp⟩

/-- The byte memory of a space. -/
def State.mem (s : State) : Space → Memory
  | .raw => s.raw
  | .tag => s.tag
  | .ctr => s.ctr
  | .pay => s.pay

/-- Replacing the byte memory of a space. -/
def State.setMem (s : State) (sp : Space) (m : Memory) : State :=
  match sp with
  | .raw => { s with raw := m }
  | .tag => { s with tag := m }
  | .ctr => { s with ctr := m }
  | .pay => { s with pay := m }

/-- `S[i]`: the byte of a cell. A cell that nothing has written since the last event of its memory holds the
unspecified byte of log 4 (10_state R45). -/
def State.byteAt (s : State) (sp : Space) (i : Nat) : Byte :=
  match (s.mem sp).get? i with
  | some b => b
  | none   => Config.freeByte (s.mem sp).stamp sp i

/-- `MemRead(S, 0, n)`, byte 0 first (00_scope R14); every read of the engine starts at 0 (20_memory R80). -/
def State.readBytes (s : State) (sp : Space) (n : Nat) : List Byte := (List.range n).map (s.byteAt sp)

/-- `FT[v]` (10_state R35). -/
def State.ftAt (s : State) (v : Nat) : Word :=
  match s.ft.rows[v]? with
  | some c => c
  | none   => Config.freeCount s.ft.stamp v

/-- `NODE[i]` (10_state R36). -/
def State.nodeAt (s : State) (i : Nat) : Node :=
  match s.node.rows[i]? with
  | some r => r
  | none   => Config.freeNode s.node.stamp i

/-- `CB[v]`, which is also `CBLookup(v)` (10_state R38, 42_codebook R180). -/
def State.cbAt (s : State) (v : Nat) : Code :=
  match s.cb.rows[v]? with
  | some c => c
  | none   => Config.freeCode s.cb.stamp v

/-- The 256 entries of FT, symbol 0 first. -/
def State.freqTable (s : State) : List Word := (List.range nsym).map s.ftAt

/-- The 256 entries of CB, symbol 0 first. -/
def State.codebook (s : State) : List Code := (List.range nsym).map s.cbAt

/-- Reading a register by number, zero-extended (10_state R21). CMD reads 0; numbers 14 and above do not exist and
read 0. -/
def State.regRead (s : State) (n : Nat) : Word :=
  match n with
  | 1  => s.status.word
  | 2  => s.errCode.setWidth 32
  | 3  => s.errInfo
  | 4  => s.phase.setWidth 32
  | 5  => s.rawLen
  | 6  => s.tagLen.setWidth 32
  | 7  => s.ctrLen
  | 8  => s.symCnt
  | 9  => s.padLen.setWidth 32
  | 10 => s.bitLen
  | 11 => s.payLen
  | 12 => s.root.setWidth 32
  | 13 => s.nodeCnt.setWidth 32
  | _  => 0

/-- A host write of a word to a register other than CMD (10_state R21): the three registers marked RW store its low
bits; a write to a register marked R, or to one that does not exist, is ignored. -/
def State.regWrite (s : State) (n : Nat) (v : Word) : State :=
  match n with
  | 5 => { s with rawLen := v }
  | 6 => { s with tagLen := v.setWidth 8 }
  | 7 => { s with ctrLen := v }
  | _ => s

/-- TAKING A FAULT, `raise E(info)` (60_exceptions R300): ERR_CODE and ERR_INFO record it, ERR is set, BUSY cleared.
DONE is 0 already; PHASE keeps naming the unit; nothing else is saved and control goes nowhere. -/
def State.raise (s : State) (e : ErrKind) (info : Word) : State :=
  { s with errCode := e.code, errInfo := info, status := { s.status with err := true, busy := false } }

/-- A command is accepted (46_top_level R260): DONE <- 0, BUSY <- 1, PHASE <- P_SEQ. -/
def State.beginCommand (s : State) : State :=
  { s with status := { s.status with done := false, busy := true }, phase := Position.seq.code }

/-- A command ends without a fault (46_top_level R260): PHASE <- 0, BUSY <- 0, DONE <- 1. -/
def State.endCommand (s : State) : State :=
  { s with phase := Position.idle.code, status := { s.status with busy := false, done := true } }

/-- THE RETURN FROM A FAULT, CLR (46_top_level R275, 60_exceptions R307): STATUS becomes DONE alone, the fault
registers, PHASE and the engine-owned result registers 0. RAW, TAG, CTR and their lengths are kept; the contents of
FT, NODE, CB and PAY become unspecified (log 5). -/
def State.cleared (s : State) : State :=
  { s with
    status := ⟨false, true, false, false, false, false, false⟩
    errCode := 0, errInfo := 0, phase := 0
    symCnt := 0, padLen := 0, bitLen := 0, payLen := 0, root := 0, nodeCnt := 0
    ft := Table.unknown s.fresh, node := Table.unknown s.fresh, cb := Table.unknown s.fresh
    pay := Memory.unknown s.fresh
    fresh := s.fresh + 1 }

/-- The platform's reset, in any mode (70_reset R330, R331). -/
def State.resetAgain (s : State) : State := State.afterReset s.params s.fresh s.host

/-- How the body of a stage ends. -/
inductive Ran where
  /-- the last statement was reached -/
  | ended (s : State)
  /-- a `raise` was reached; the state is the one after it -/
  | raised (s : State)
  /-- the machine stops -/
  | stopped (f : Fault)
  deriving Repr

/-- Running one body after another: a raise or a stop ends the whole (46_top_level R270). -/
def Ran.andThen (r : Ran) (next : State → Ran) : Ran :=
  match r with
  | .ended s   => next s
  | .raised s  => .raised s
  | .stopped f => .stopped f

/-- How the command that ran a body ends (46_top_level R260). -/
def Ran.finish : Ran → Host.Outcome State Fault Refusal
  | .ended s   => .next s.endCommand
  | .raised s  => .next s
  | .stopped f => .fault f

/-- Issue of a legal command other than CLR (46_top_level R260): dropped in BUSY and FAULT mode, run in IDLE mode. -/
def issue (body : State → Ran) (s : State) : Host.Outcome State Fault Refusal :=
  match s.mode with
  | .busy  => .next s
  | .fault => .next s
  | .idle  => (body s.beginCommand).finish

/-- Issue of CLR (46_top_level R260, R275): dropped in BUSY mode alone. -/
def issueClear (s : State) : Host.Outcome State Fault Refusal :=
  match s.mode with
  | .busy  => .next s
  | .fault => .next s.cleared
  | .idle  => .next s.cleared

/-- Issue of an illegal word (46_top_level R260, 60_exceptions R296): dropped in BUSY and FAULT mode; in IDLE mode the
command begins and raises IllegalCommandError with the word. -/
def issueIllegal (w : Word) (s : State) : Host.Outcome State Fault Refusal :=
  match s.mode with
  | .busy  => .next s
  | .fault => .next s
  | .idle  => .next (s.beginCommand.raise .illegalCommand w)

end Sys2Proof.Machine
end

