-- ==== Sys2Proof/Machine/Operands.lean ====
section
/-! DEFINITION. The forms operands take: byte counts, big-endian numbers, codewords and their bits, the codebook
look-ups, the payload's bits, the container cursor (00_scope R11 to R14, 20_memory R71, R72, 42_codebook R180, R181,
44_container R222). -/

namespace Sys2Proof.Machine

/-- `ceil8(n)`, the number of bytes that hold n bits (00_scope R11). -/
def ceil8 (n : Nat) : Nat := (n + 7) / 8

/-- `BE(bytes)`, the big-endian value (00_scope R14, 20_memory R71). -/
def be (bs : List Byte) : Nat := bs.foldl (fun acc b => 256 * acc + b.toNat) 0

/-- `BEbytes(v, n)`, the n big-endian bytes of v, for v below 256^n (00_scope R14). For a greater v, which no state a
run reaches asks for, the low n bytes (log 12). -/
def beBytes (v : Nat) : Nat → List Byte
  | 0 => []
  | n + 1 => beBytes (v / 256) n ++ [BitVec.ofNat 8 v]

/-- The codeword of a record as its bit string, first bit first: bit k is `val[len - 1 - k]` (00_scope R13). -/
def codeBits (c : Code) : List Bool :=
  (List.range c.len.toNat).map fun k => c.val.getLsbD (c.len.toNat - 1 - k)

/-- A bit as a number. -/
def bitNat (b : Bool) : Nat := if b then 1 else 0

/-- Bit j of a memory read as a bit string: `S[j div 8][7 - (j mod 8)]` (20_memory R72). -/
def State.bitAt (s : State) (sp : Space) (j : Nat) : Bool := (s.byteAt sp (j / 8)).getLsbD (7 - j % 8)

/-- The first n bits of PAY (20_memory R72, 45_decoder R242). -/
def State.payBits (s : State) (n : Nat) : List Bool := (List.range n).map (s.bitAt .pay)

/-- `CBMatch(l, v)` over the 256 records: the least symbol whose valid record has length l and value v; none at length
0 and at length 256 (42_codebook R181). -/
def cbMatch (cb : List Code) (l v : Nat) : Option Nat :=
  if l = 0 ∨ l = 256 then none
  else cb.findIdx? fun c => c.valid && c.len.toNat == l && c.val.toNat == v

/-- The read cursor into the container: RP, and the bytes from RP up to CTR_LEN. -/
structure Cursor where
  rp   : Nat
  rest : List Byte
  deriving DecidableEq, Repr

/-- `need(k)` and the read of the k bytes after it (44_container R222): none when the field cannot be read in full,
which is when RP + k exceeds CTR_LEN. -/
def Cursor.field (c : Cursor) (k : Nat) : Option (List Byte × Cursor) :=
  if k ≤ c.rest.length then some (c.rest.take k, ⟨c.rp + k, c.rest.drop k⟩) else none

end Sys2Proof.Machine
end

