-- ==== Sys2Proof/Machine/Frequency.lean ====
section
/-! DEFINITION. FREQ, the frequency analyser, unit FA (40_frequency R140 to R144). -/

namespace Sys2Proof.Machine

/-- The histogram of a byte string: entry v counts the bytes equal to v. The order of counting is not observable
(R144), so the counts are given at once; each fits 32 bits because the string is shorter than 2^32 (R142). -/
def histogram (bytes : List Byte) : List Word :=
  (List.range nsym).map fun v => BitVec.ofNat 32 (bytes.count (BitVec.ofNat 8 v))

/-- FREQ_body (R140). -/
def freqBody (s : State) : Ran :=
  let s := (s.setPhase .fa).setFlag .ft false
  if s.params.rawCap.cells < s.rawLen.toNat then .raised (s.raise .capacity s.rawLen)
  else if s.rawLen = 0 then .raised (s.raise .emptyInput 0)
  else
    let s := { s with ft := { s.ft with rows := histogram (s.readBytes .raw s.rawLen.toNat) } }
    .ended (s.setFlag .ft true)

/-- FREQ (R140, 46_top_level R261). -/
def execFreq (s : State) : Host.Outcome State Fault Refusal := issue freqBody s

end Sys2Proof.Machine
end

