-- ==== Sys2Proof/Machine/TreeBuilder.lean ====
section
/-! DEFINITION. BUILD, the tree builder, unit TB (41_tree_builder R150 to R164). -/

namespace Sys2Proof.Machine

/-- A member of the live set: a node's index and its record (R160: LIVE is the abstract content of the priority
structure). -/
abbrev Live := Nat × Node

/-- The priority order: lower frequency first, among equal frequencies the lower index (R153). -/
def Live.before (a b : Live) : Bool :=
  a.2.freq.toNat < b.2.freq.toNat || (a.2.freq.toNat == b.2.freq.toNat && a.1 < b.1)

/-- The least of a member and a list of members. -/
def leastOf (x : Live) : List Live → Live
  | [] => x
  | y :: ys => leastOf (if Live.before y x then y else x) ys

/-- ExtractMin (R152): the least member of the live set, and the set without it; none when the set is empty. -/
def extractMin : List Live → Option (Live × List Live)
  | [] => none
  | x :: xs =>
    let m := leastOf x xs
    some (m, (x :: xs).filter fun y => y.1 != m.1)

/-- The record of a leaf (R150). -/
def leafNode (v : Nat) (count : Word) : Node := ⟨true, BitVec.ofNat 8 v, count, 0, 0, false⟩

/-- The record of the node that merges a, extracted first and so the left child, and b, the right child (R154). -/
def mergeNode (a b : Live) : Node :=
  ⟨false, 0, BitVec.ofNat 32 (a.2.freq.toNat + b.2.freq.toNat), BitVec.ofNat 9 a.1, BitVec.ofNat 9 b.1, true⟩

/-- The synthetic root over the single leaf of a one-symbol tree (R156). -/
def syntheticRoot (leaf : Node) : Node := ⟨false, 0, leaf.freq, 0, 0, false⟩

/-- The leaves, one per symbol with a non-zero count, in ascending symbol value (R151), from the counts of the symbols
v, v + 1, …. -/
def leavesFrom (v : Nat) : List Word → List Node
  | [] => []
  | c :: cs => if c = 0 then leavesFrom (v + 1) cs else leafNode v c :: leavesFrom (v + 1) cs

/-- The merge loop (R150) on the live set and the records written so far, whose number is K. `fuel` bounds the
iterations; n - 1 of them happen for n leaves (R155, R159), so n is enough. A sum that does not fit the 32 bits of
NODE.freq, which R158 excludes, stops the machine (log 9). -/
def mergeLoop : (fuel : Nat) → List Live → List Node → Except Fault (List Node)
  | 0, _, rows => .ok rows
  | fuel + 1, live, rows =>
    match extractMin live with
    | none => .ok rows
    | some (a, live₁) =>
      match extractMin live₁ with
      | none => .ok rows
      | some (b, live₂) =>
        if a.2.freq.toNat + b.2.freq.toNat < 2 ^ 32 then
          mergeLoop fuel (live₂ ++ [(rows.length, mergeNode a b)]) (rows ++ [mergeNode a b])
        else .error .freqSumTooWide

/-- The leaves with their indices, the live set before the first merge. -/
def liveLeaves (leaves : List Node) : List Live := (List.range leaves.length).zip leaves

/-- The NODE records of the tree over the given leaves: the synthetic root for one leaf, the merges otherwise. -/
def treeRows (leaves : List Node) : Except Fault (List Node) :=
  match leaves with
  | [leaf] => .ok [leaf, syntheticRoot leaf]
  | _      => mergeLoop leaves.length (liveLeaves leaves) leaves

/-- BUILD_body (R150). The entries of NODE at and above NODE_CNT are unspecified after it (10_state R34, log 6). -/
def buildBody (s : State) : Ran :=
  let s := (s.setPhase .tb).setFlag .tree false
  if s.status.ftV = false then .raised (s.raise .sequence 0x02)
  else
    let leaves := leavesFrom 0 s.freqTable
    if leaves = [] then .raised (s.raise .emptyInput 0)
    else
      match treeRows leaves with
      | .error f => .stopped f
      | .ok rows =>
        let s := { s with
          node := ⟨rows, s.fresh⟩
          fresh := s.fresh + 1
          root := BitVec.ofNat 9 (rows.length - 1)
          nodeCnt := BitVec.ofNat 10 rows.length }
        .ended (s.setFlag .tree true)

/-- BUILD (R150, 46_top_level R261). -/
def execBuild (s : State) : Host.Outcome State Fault Refusal := issue buildBody s

end Sys2Proof.Machine
end

