-- ==== Sys2Proof/Machine/Codebook.lean ====
section
/-! DEFINITION. CODEGEN, the code generator, unit CG (42_codebook R170 to R178). -/

namespace Sys2Proof.Machine

/-- What the walk has written: the 256 records of CB and the number of leaves met. -/
structure Walked where
  cb  : List Code
  cnt : Nat
  deriving DecidableEq, Repr

/-- The cleared codebook (R171). -/
def clearedCb : List Code := List.replicate nsym Code.clear

/-- The walk below node i, whose path is (l, v): at a leaf the path is the codeword of its symbol (R173); below an
internal node first the left child with a bit 0 appended, then the right child, if there is one, with a bit 1 (R172,
R174). `levels` is how many levels remain, so that no path passes 255 bits; a path that would, or an index that does
not exist, ends the walk with none (log 10). -/
def walk (s : State) : (levels : Nat) → (i l v : Nat) → Walked → Option Walked
  | 0, _, _, _, _ => none
  | levels + 1, i, l, v, w =>
    if i < nnode then
      let nd := s.nodeAt i
      if nd.leaf then
        some ⟨w.cb.set nd.sym.toNat ⟨true, BitVec.ofNat 8 l, BitVec.ofNat 255 v⟩, w.cnt + 1⟩
      else
        match walk s levels nd.left.toNat (l + 1) (2 * v) w with
        | none => none
        | some w₁ =>
          if nd.rv then walk s levels nd.right.toNat (l + 1) (2 * v + 1) w₁ else some w₁
    else none

/-- The whole walk from ROOT with the empty path, over a cleared codebook; none when it is no walk of a tree, which
has at most 256 leaves (10_state R31). -/
def walkTree (s : State) : Option Walked :=
  match walk s (maxLen + 1) s.root.toNat 0 0 ⟨clearedCb, 0⟩ with
  | none   => none
  | some w => if w.cnt ≤ nsym then some w else none

/-- CODEGEN_body (R170). -/
def codegenBody (s : State) : Ran :=
  let s := (s.setPhase .cg).setFlag .cb false
  if s.status.treeV = false then .raised (s.raise .sequence 0x03)
  else
    match walkTree s with
    | none   => .stopped .nodeTableNotATree
    | some w =>
      let s := { s with cb := { s.cb with rows := w.cb }, symCnt := BitVec.ofNat 32 w.cnt }
      .ended (s.setFlag .cb true)

/-- CODEGEN (R170, 46_top_level R261). -/
def execCodegen (s : State) : Host.Outcome State Fault Refusal := issue codegenBody s

end Sys2Proof.Machine
end

