-- ==== Sys2Proof/Machine/BitPacker.lean ====
section
/-! DEFINITION. PACK, the bit-stream packer, unit BP (43_bit_packer R190 to R198). -/

namespace Sys2Proof.Machine

/-- The packer's working state (10_state R46): BACC, the pair (n, v) of pending bits; BITS, the bit total; WP; and PAY
as written so far. -/
structure PackWork where
  baccN : Nat
  baccV : Nat
  bits  : Nat
  wp    : Nat
  pay   : Memory
  deriving DecidableEq, Repr

/-- How a piece of the packing ends: on, or with a raise and what was written before it. -/
inductive Packed where
  | on (w : PackWork)
  | raised (e : ErrKind) (info : Nat) (w : PackWork)
  deriving DecidableEq, Repr

/-- The working state at the end of a piece of the packing. -/
def Packed.work : Packed → PackWork
  | .on w         => w
  | .raised _ _ w => w

/-- `PAY[WP] <- v; WP <- WP + 1` after the check WP < PAY_CAP (R195); `info` is the ERR_INFO of the raise. -/
def PackWork.emit (cap info : Nat) (w : PackWork) (v : Nat) : Packed :=
  if w.wp < cap then .on { w with pay := w.pay.set w.wp (BitVec.ofNat 8 v), wp := w.wp + 1 }
  else .raised .capacity info w

/-- `BACC <- BACC ++ b`, and the write of a whole byte when eight bits are pending (R190, R198). -/
def PackWork.push (cap info : Nat) (w : PackWork) (b : Bool) : Packed :=
  let w := { w with baccN := w.baccN + 1, baccV := 2 * w.baccV + bitNat b }
  if w.baccN = 8 then
    match w.emit cap info w.baccV with
    | .on w₁ => .on { w₁ with baccN := 0, baccV := 0 }
    | r      => r
  else .on w

/-- The bits of one codeword, first bit first. -/
def pushBits (cap info : Nat) : List Bool → PackWork → Packed
  | [], w => .on w
  | b :: bs, w =>
    match w.push cap info b with
    | .on w₁ => pushBits cap info bs w₁
    | r      => r

/-- The bytes of RAW from index `rp` on (R190): MissingCodeError for a byte with no codeword (R193), CapacityError for
a bit total above 2^32 - 1 (R194), then the codeword's bits. -/
def packBytes (cb : List Code) (cap : Nat) : (rp : Nat) → List Byte → PackWork → Packed
  | _, [], w => .on w
  | rp, x :: xs, w =>
    let e := cb.getD x.toNat Code.clear
    if e.valid then
      let w := { w with bits := w.bits + e.len.toNat }
      if 2 ^ 32 - 1 < w.bits then .raised .capacity rp w
      else
        match pushBits cap rp (codeBits e) w with
        | .on w₁ => packBytes cb cap (rp + 1) xs w₁
        | r      => r
    else .raised .missingCode rp w

/-- The padding length of a bit total (R190). -/
def padOf (bits : Nat) : Nat := (8 - bits % 8) % 8

/-- The last, partial byte: the pending bits followed by the zero bits of the padding (R190). -/
def padLast (cap info : Nat) (w : PackWork) : Packed :=
  if 0 < padOf w.bits then w.emit cap info (w.baccV * 2 ^ padOf w.bits) else .on w

/-- The whole packing of a byte string over PAY. -/
def packAll (cb : List Code) (cap : Nat) (bytes : List Byte) (pay : Memory) : Packed :=
  match packBytes cb cap 0 bytes ⟨0, 0, 0, 0, pay⟩ with
  | .on w => padLast cap bytes.length w
  | r     => r

/-- PACK_body (R190, R191). -/
def packBody (s : State) : Ran :=
  let s := (s.setPhase .bp).setFlag .pay false
  if s.status.cbV = false then .raised (s.raise .sequence 0x04)
  else if s.params.rawCap.cells < s.rawLen.toNat then .raised (s.raise .capacity s.rawLen)
  else
    match packAll s.codebook s.params.payCap.cells (s.readBytes .raw s.rawLen.toNat) s.pay with
    | .raised e info w => .raised ({ s with pay := w.pay }.raise e (BitVec.ofNat 32 info))
    | .on w =>
      let s := { s with
        pay := w.pay
        padLen := BitVec.ofNat 8 (padOf w.bits)
        bitLen := BitVec.ofNat 32 w.bits
        payLen := BitVec.ofNat 32 w.wp }
      .ended (s.setFlag .pay true)

/-- PACK (R190, 46_top_level R261). -/
def execPack (s : State) : Host.Outcome State Fault Refusal := issue packBody s

end Sys2Proof.Machine
end

