-- ==== Sys2Proof/Machine/Container.lean ====
section
/-! DEFINITION. SERIALIZE, unit FS, and PARSE, unit FP (44_container R205 to R231; the frame is 30_encoding R110 to
R122). -/

namespace Sys2Proof.Machine

/-- The valid records of CB with their symbols, in ascending symbol value (R206). -/
def validEntries (s : State) : List (Nat × Code) :=
  ((List.range nsym).map fun v => (v, s.cbAt v)).filter fun e => e.2.valid

/-- One symbol-table entry: the symbol, the bit length, the packed value (30_encoding R113, R115). -/
def entryBytes (e : Nat × Code) : List Byte :=
  [BitVec.ofNat 8 e.1, e.2.len] ++ beBytes e.2.val.toNat (ceil8 e.2.len.toNat)

/-- The number of bytes of one entry (30_encoding R113). -/
def entrySize (e : Nat × Code) : Nat := 2 + ceil8 e.2.len.toNat

/-- The length the container will have (R205, 30_encoding R119). -/
def frameSize (s : State) : Nat :=
  1 + s.tagLen.toNat + 4 + ((validEntries s).map entrySize).sum + 1 + 4 + s.payLen.toNat

/-- The container's bytes in the order they are emitted (R205, 30_encoding R110). -/
def frameBytes (s : State) : List Byte :=
  [s.tagLen]
  ++ s.readBytes .tag s.tagLen.toNat
  ++ beBytes (validEntries s).length 4
  ++ (validEntries s).flatMap entryBytes
  ++ [s.padLen]
  ++ beBytes s.bitLen.toNat 4
  ++ s.readBytes .pay s.payLen.toNat

/-- SERIALIZE_body (R205). -/
def serializeBody (s : State) : Ran :=
  let s := s.setPhase .fs
  if s.status.cbV = false ∨ s.status.payV = false then .raised (s.raise .sequence 0x05)
  else if s.params.ctrCap.cells < frameSize s then
    .raised (s.raise .capacity (BitVec.ofNat 32 (min (frameSize s) (2 ^ 32 - 1))))
  else .ended { s with
    ctr := s.ctr.write 0 (frameBytes s)
    ctrLen := BitVec.ofNat 32 (frameSize s) }

/-- SERIALIZE (R205, 46_top_level R261). -/
def execSerialize (s : State) : Host.Outcome State Fault Refusal := issue serializeBody s

/-- How the reading of the symbol table ends: with the cursor after it, or at the offset of a field that could not be
read in full; with the 256 records as they then stand. -/
inductive TableRead where
  | whole (c : Cursor) (cb : List Code)
  | short (rp : Nat) (cb : List Code)
  deriving DecidableEq, Repr

/-- The entry loop (R220): a later entry for the same symbol overwrites an earlier one (R226); bits of the value above
the declared length are dropped (R227). -/
def readEntries : (cnt : Nat) → Cursor → List Code → TableRead
  | 0, c, cb => .whole c cb
  | cnt + 1, c, cb =>
    match c.field 1 with
    | none => .short c.rp cb
    | some (sym, c₁) =>
      match c₁.field 1 with
      | none => .short c₁.rp cb
      | some (len, c₂) =>
        match c₂.field (ceil8 (be len)) with
        | none => .short c₂.rp cb
        | some (val, c₃) =>
          readEntries cnt c₃
            (cb.set (be sym) ⟨true, BitVec.ofNat 8 (be len), BitVec.ofNat 255 (be val % 2 ^ be len)⟩)

/-- `raise TruncatedContainerError(RP)` of `need` (R222). -/
def raiseTruncated (s : State) (rp : Nat) : Ran := .raised (s.raise .truncatedContainer (BitVec.ofNat 32 rp))

/-- PARSE from padding_length to the end (R220, R228, R229): the fields after the table, the two checks of the
payload, and the writes made only when every check has passed. -/
def parseTail (s : State) (cnt : Nat) (c : Cursor) : Ran :=
  match c.field 1 with
  | none => raiseTruncated s c.rp
  | some (pad, c₁) =>
    match c₁.field 4 with
    | none => raiseTruncated s c₁.rp
    | some (nbits, c₂) =>
      if 8 * c₂.rest.length < be nbits then .raised (s.raise .truncatedContainer s.ctrLen)
      else if s.params.payCap.cells < c₂.rest.length then
        .raised (s.raise .capacity (BitVec.ofNat 32 c₂.rest.length))
      else
        let s := { s with
          pay := s.pay.write 0 c₂.rest
          symCnt := BitVec.ofNat 32 cnt
          padLen := BitVec.ofNat 8 (be pad)
          bitLen := BitVec.ofNat 32 (be nbits)
          payLen := BitVec.ofNat 32 c₂.rest.length }
        .ended ((s.setFlag .cb true).setFlag .pay true)

/-- PARSE from symbol_count on (R220): CB is cleared once symbol_count is read (R224) and holds the entries read so
far when a fault ends the table (60_exceptions R302). -/
def parseTable (s : State) (c : Cursor) : Ran :=
  match c.field 4 with
  | none => raiseTruncated s c.rp
  | some (cnt, c₁) =>
    match readEntries (be cnt) c₁ clearedCb with
    | .short rp cb => raiseTruncated { s with cb := { s.cb with rows := cb } } rp
    | .whole c₂ cb => parseTail { s with cb := { s.cb with rows := cb } } (be cnt) c₂

/-- PARSE_body (R220 to R223): the tag is written as soon as it is read in full, then checked. -/
def parseBody (s : State) : Ran :=
  let s := ((s.setPhase .fp).setFlag .cb false).setFlag .pay false
  if s.params.ctrCap.cells < s.ctrLen.toNat then .raised (s.raise .capacity s.ctrLen)
  else
    let c : Cursor := ⟨0, s.readBytes .ctr s.ctrLen.toNat⟩
    match c.field 1 with
    | none => raiseTruncated s c.rp
    | some (t, c₁) =>
      match c₁.field (be t) with
      | none => raiseTruncated s c₁.rp
      | some (tag, c₂) =>
        let s := { s with tag := s.tag.write 0 tag, tagLen := BitVec.ofNat 8 (be t) }
        if s.params.tagValid tag then parseTable s c₂
        else .raised (s.raise .extensionDecode (BitVec.ofNat 32 (be t)))

/-- PARSE (R220, 46_top_level R261). -/
def execParse (s : State) : Host.Outcome State Fault Refusal := issue parseBody s

end Sys2Proof.Machine
end

