-- ==== Sys2Proof/Machine/Decoder.lean ====
section
/-! DEFINITION. MATCH, the Huffman decoder, unit DU (45_decoder R240 to R250). -/

namespace Sys2Proof.Machine

/-- The accumulator ACC (10_state R46): ACC_LEN from 0 to 256 and ACC_VAL. -/
structure Acc where
  len : Nat
  val : Nat
  deriving DecidableEq, Repr

/-- The empty accumulator. -/
def Acc.empty : Acc := ⟨0, 0⟩

/-- One bit more: appended up to length 255, then the length stays at 256 (R240, R245). -/
def Acc.push (a : Acc) (b : Bool) : Acc :=
  if a.len ≤ 254 then ⟨a.len + 1, 2 * a.val + bitNat b⟩ else ⟨256, a.val⟩

/-- How the loop of MATCH ends: with the bits used up, or with RAW full; `wp` symbols are in RAW. -/
inductive Matched where
  | spent (a : Acc) (wp : Nat) (raw : Memory)
  | full (wp : Nat) (raw : Memory)
  deriving DecidableEq, Repr

/-- The number of symbols in RAW when the loop ends. -/
def Matched.written : Matched → Nat
  | .spent _ wp _ => wp
  | .full wp _   => wp

/-- The loop of MATCH, one step per bit (R240): test the accumulator after every bit, emit at the first match, reset
(R244). -/
def matchLoop (cb : List Code) (cap : Nat) : List Bool → Acc → (wp : Nat) → Memory → Matched
  | [], a, wp, raw => .spent a wp raw
  | b :: bs, a, wp, raw =>
    match cbMatch cb (a.push b).len (a.push b).val with
    | none => matchLoop cb cap bs (a.push b) wp raw
    | some v =>
      if wp < cap then matchLoop cb cap bs Acc.empty (wp + 1) (raw.set wp (BitVec.ofNat 8 v))
      else .full wp raw

/-- MATCH_body (R240). -/
def matchBody (s : State) : Ran :=
  let s := s.setPhase .du
  if s.status.cbV = false ∨ s.status.payV = false then .raised (s.raise .sequence 0x07)
  else
    let s := { s with rawLen := 0 }
    if 8 * s.payLen.toNat < s.bitLen.toNat then .raised (s.raise .truncatedContainer s.payLen)
    else
      match matchLoop s.codebook s.params.rawCap.cells (s.payBits s.bitLen.toNat) Acc.empty 0 s.raw with
      | .full wp raw => .raised ({ s with raw := raw }.raise .capacity (BitVec.ofNat 32 wp))
      | .spent a wp raw =>
        if a.len = 0 then .ended { s with raw := raw, rawLen := BitVec.ofNat 32 wp }
        else .raised ({ s with raw := raw }.raise .unknownCode (BitVec.ofNat 32 wp))

/-- MATCH (R240, 46_top_level R261). -/
def execMatch (s : State) : Host.Outcome State Fault Refusal := issue matchBody s

end Sys2Proof.Machine
end

