-- ==== Sys2Proof/Machine/TopLevel.lean ====
section
/-! DEFINITION. ENCODE, DECODE and CLR, the sequencer SEQ (46_top_level R270 to R276). -/

namespace Sys2Proof.Machine

/-- ENCODE_body (R270): the five encode stages; a raise in one ends it there. -/
def encodeBody (s : State) : Ran :=
  ((((freqBody s).andThen buildBody).andThen codegenBody).andThen packBody).andThen serializeBody

/-- ENCODE (R270). -/
def execEncode (s : State) : Host.Outcome State Fault Refusal := issue encodeBody s

/-- DECODE_body (R272): the two decode stages. -/
def decodeBody (s : State) : Ran := (parseBody s).andThen matchBody

/-- DECODE (R272). -/
def execDecode (s : State) : Host.Outcome State Fault Refusal := issue decodeBody s

/-- CLR (R275). -/
def execClr (s : State) : Host.Outcome State Fault Refusal := issueClear s

end Sys2Proof.Machine
end

