-- ==== Sys2Proof/Machine/HostPort.lean ====
section
/-! DEFINITION. The host primitives and reset (20_memory R85, 10_state R21, R22, 46_top_level R260, 70_reset R330,
R340). -/

namespace Sys2Proof.Machine

/-- HostWrite(CMD, w): issue the command w (10_state R22, 46_top_level R260). -/
def hostCommand (w : Word) (s : State) : Host.Outcome State Fault Refusal :=
  match decode w with
  | some i => exec i s
  | none   => issueIllegal w s

/-- HostWrite(REG, v): the issue of a command for register 0; otherwise dropped in BUSY mode (70_reset R340), and in
IDLE and FAULT mode what 10_state R21 says of the register. -/
def hostWriteReg (n : Nat) (v : Word) (s : State) : Host.Outcome State Fault Refusal :=
  if n = 0 then hostCommand v s
  else if s.mode = .busy then .next s
  else .next (s.regWrite n v)

/-- HostWrite(S, i, b): dropped in BUSY mode, for PAY, which the host can only read (10_state R40), and at an index at
or beyond the capacity (20_memory R85). -/
def hostWriteMem (sp : Space) (i : Nat) (b : Byte) (s : State) : State :=
  if s.mode = .busy then s
  else if sp = .pay then s
  else if i < s.params.capOf sp then s.setMem sp ((s.mem sp).set i b)
  else s

/-- What HostRead(REG) returns: STATUS in every mode; any other register its value in IDLE and FAULT mode and an
unspecified value in BUSY mode (70_reset R340, log 7). -/
def hostReadReg (n : Nat) (s : State) : Word :=
  if s.mode = .busy ∧ n ≠ 1 then Config.freeReadWord s.host.reads else s.regRead n

/-- What HostRead(S, i) returns: unspecified in BUSY mode and at or beyond the capacity (20_memory R85, log 7). -/
def hostReadMem (sp : Space) (i : Nat) (s : State) : Byte :=
  if s.mode = .busy ∨ s.params.capOf sp ≤ i then Config.freeReadByte s.host.reads else s.byteAt sp i

/-- What HostRead(FT, v) returns (20_memory R85). -/
def hostReadFreq (v : BitVec 8) (s : State) : Word :=
  if s.mode = .busy then Config.freeReadCount s.host.reads else s.ftAt v.toNat

/-- What HostRead(NODE, i) returns; there is no record 511 (20_memory R85, 10_state R36). -/
def hostReadNode (i : BitVec 9) (s : State) : Node :=
  if s.mode = .busy ∨ nnode ≤ i.toNat then Config.freeReadNode s.host.reads else s.nodeAt i.toNat

/-- What HostRead(CB, v) returns (20_memory R85). -/
def hostReadCode (v : BitVec 8) (s : State) : Code :=
  if s.mode = .busy then Config.freeReadCode s.host.reads else s.cbAt v.toNat

/-- The host has read d. The engine's state is unchanged (20_memory R81); only the host's side knows. -/
def State.hostSees (s : State) (d : HostDatum) : State :=
  { s with host := { s.host with seen := some d, reads := s.host.reads + 1 } }

/-- One action of the host, or of the platform for `reset`. WAIT reads STATUS and goes on reading it while BUSY = 1
(30_encoding R125). -/
def hostAct (a : HostAction) (s : State) : Host.Outcome State Fault Refusal :=
  match a with
  | .writeReg n v    => hostWriteReg n v s
  | .readReg n       => .next (s.hostSees (.word (hostReadReg n s)))
  | .writeMem sp i b => .next (hostWriteMem sp i b s)
  | .readMem sp i    => .next (s.hostSees (.byte (hostReadMem sp i s)))
  | .readFreq v      => .next (s.hostSees (.count (hostReadFreq v s)))
  | .readNode i      => .next (s.hostSees (.node (hostReadNode i s)))
  | .readCode v      => .next (s.hostSees (.code (hostReadCode v s)))
  | .wait            =>
    let t := s.hostSees (.word (hostReadReg 1 s))
    if s.status.busy then .next { t with host := { t.host with script := .wait :: t.host.script } } else .next t
  | .reset           => .next s.resetAgain

/-- The state once the host's next action has been taken off its list. -/
def State.afterTaking (s : State) (rest : List HostAction) : State :=
  { s with host := { s.host with script := rest } }

/-- One step: the host's next action; with none pending the engine does nothing (20_memory R82, log 1). -/
def hostStep (s : State) : Host.Outcome State Fault Refusal :=
  match s.host.script with
  | []        => .next s
  | a :: rest => hostAct a (s.afterTaking rest)

end Sys2Proof.Machine
end

