-- ==== Sys2Proof/Machine/HostScript.lean ====
section
/-! DEFINITION. The host script notation (30_encoding R125, R126) as lists of host actions. EXPECT is a check and no
action, so it has no form here. -/

namespace Sys2Proof.Machine

/-- The register number of a space's length register (10_state R21, R40); that of PAY is read-only to the host. -/
def lengthReg : Space → Nat
  | .raw => 5
  | .tag => 6
  | .ctr => 7
  | .pay => 11

/-- The actions of `LOAD space, b0 b1 …` from index i on. -/
def Script.loadFrom (sp : Space) (i : Nat) : List Byte → List HostAction
  | [] => []
  | b :: bs => .writeMem sp i b :: Script.loadFrom sp (i + 1) bs

/-- `SET reg, value`, the register given by the space whose length it is. -/
def Script.set (sp : Space) (v : Nat) : List HostAction := [.writeReg (lengthReg sp) (BitVec.ofNat 32 v)]

/-- `LOAD space, b0 b1 …`. -/
def Script.load (sp : Space) (bs : List Byte) : List HostAction := Script.loadFrom sp 0 bs

/-- `CMDW word`. -/
def Script.cmdw (w : Word) : List HostAction := [.writeReg 0 w]

/-- `CMD mnemonic`. -/
def Script.cmd (i : Instr) : List HostAction := Script.cmdw (encode i)

/-- `WAIT`. -/
def Script.wait : List HostAction := [.wait]

/-- `RESET`. -/
def Script.reset : List HostAction := [.reset]

/-- `PUT space, bytes` (R126). -/
def Script.put (sp : Space) (bs : List Byte) : List HostAction := Script.load sp bs ++ Script.set sp bs.length

/-- `RUN mnemonic` (R126). -/
def Script.run (i : Instr) : List HostAction := Script.cmd i ++ Script.wait

/-- The state with a script to be carried out before whatever the host had pending. -/
def State.withScript (s : State) (script : List HostAction) : State :=
  { s with host := { s.host with script := script ++ s.host.script } }

end Sys2Proof.Machine
end

