-- ==== Sys2Proof/Machine/Step.lean ====
section
/-! DEFINITION. One step of the machine, and where its next instruction is placed. -/

namespace Sys2Proof.Machine

/-- One step: the host's next action is taken (log 1). A write to CMD is the fetch of an instruction. -/
def step (s : State) : Host.Outcome State Fault Refusal := hostStep s

/-- The state whose next host action writes to CMD the word whose low `nbits` bits are those of `w`. -/
def State.withFetchWord (s : State) (nbits w : Nat) : State :=
  s.withScript (Script.cmdw (BitVec.ofNat 32 (w % 2 ^ nbits)))

end Sys2Proof.Machine
end

