-- ==== Sys2Proof/Safety.lean ====
section
/-! DEFINITION. What claims about the machine are stated in: what a step keeps, the invariants of a run, the tree in
NODE as a tree, prefix-freeness, and commands issued one after another. -/

namespace Sys2Proof.Machine

/-! What is kept from one state to another -/

/-- Every register but those numbered in `except` reads as before (10_state R21). -/
def KeepsRegs (except : List Nat) (s t : State) : Prop := ∀ n, n ∉ except → t.regRead n = s.regRead n

/-- Every valid flag but those in `except` is as before (10_state R24). -/
def KeepsFlags (except : List Flag) (s t : State) : Prop := ∀ f, f ∉ except → t.flag f = s.flag f

/-- Every byte of every memory but those in `except` reads as before. -/
def KeepsBytes (except : List Space) (s t : State) : Prop := ∀ sp, sp ∉ except → ∀ i, t.byteAt sp i = s.byteAt sp i

/-- Every byte of a memory at index `n` and above reads as before. -/
def KeepsBytesFrom (sp : Space) (n : Nat) (s t : State) : Prop := ∀ i, n ≤ i → t.byteAt sp i = s.byteAt sp i

/-- Every entry of FT is as before. -/
def KeepsFreqs (s t : State) : Prop := ∀ v, t.ftAt v = s.ftAt v

/-- Every record of NODE is as before. -/
def KeepsNodes (s t : State) : Prop := ∀ i, t.nodeAt i = s.nodeAt i

/-- Every record of CB is as before. -/
def KeepsCodes (s t : State) : Prop := ∀ v, t.cbAt v = s.cbAt v

/-- The parameters and the host's side are as before. -/
def KeepsOutside (s t : State) : Prop := t.params = s.params ∧ t.host = s.host

/-! How a command ends -/

/-- The command ended without a fault from an IDLE state (46_top_level R260): the three mode bits, PHASE 0, the fault
registers as they were. -/
def EndsWell (s t : State) : Prop :=
  t.status.busy = false ∧ t.status.done = true ∧ t.status.err = false ∧ t.phase = 0
    ∧ t.errCode = s.errCode ∧ t.errInfo = s.errInfo

/-- The command ended in a fault of kind `e` with ERR_INFO `info`, raised by the unit `u` (60_exceptions R300). -/
def EndsInFault (u : Position) (e : ErrKind) (info : Word) (t : State) : Prop :=
  t.status.busy = false ∧ t.status.done = false ∧ t.status.err = true ∧ t.phase = u.code
    ∧ t.errCode = e.code ∧ t.errInfo = info

/-- Of the state before a fault, all is kept but STATUS, ERR_CODE, ERR_INFO, PHASE and the valid flags in `own`, which
are 0 after it (60_exceptions R297, R302). -/
def OnlyTheFaultRecorded (own : List Flag) (s t : State) : Prop :=
  (∀ f ∈ own, t.flag f = false) ∧ KeepsFlags own s t ∧ KeepsRegs [1, 2, 3, 4] s t ∧ KeepsBytes [] s t
    ∧ KeepsFreqs s t ∧ KeepsNodes s t ∧ KeepsCodes s t ∧ KeepsOutside s t

/-- The command `i` issued at `s` answers a next state, which is a fault of kind `e` with ERR_INFO `info` raised by the
unit `u`; nothing else has changed but the valid flags in `own`, now 0. -/
def FaultsAtOnce (i : Instr) (u : Position) (e : ErrKind) (info : Word) (own : List Flag) (s : State) : Prop :=
  ∃ t, exec i s = .next t ∧ EndsInFault u e info t ∧ OnlyTheFaultRecorded own s t

/-- The commands of a list issued one after the other, with no host access between them (46_top_level R271). -/
def issueAll : List Instr → State → Host.Outcome State Fault Refusal
  | [], s => .next s
  | i :: is, s =>
    match exec i s with
    | .next t    => issueAll is t
    | .fault f   => .fault f
    | .refused r => .refused r

/-! The tree of NODE -/

/-- A code tree: a leaf, the synthetic root over one subtree (41_tree_builder R156), or a node with two children. -/
inductive HTree where
  | leaf (v : Byte)
  | single (h : HTree)
  | fork (l r : HTree)
  deriving DecidableEq, Repr

/-- The tree NODE holds below index i, none when within `levels` levels it is no tree. -/
def readTree (s : State) : (levels : Nat) → (i : Nat) → Option HTree
  | 0, _ => none
  | levels + 1, i =>
    if i < nnode then
      let nd := s.nodeAt i
      if nd.leaf then some (.leaf nd.sym)
      else
        match readTree s levels nd.left.toNat with
        | none => none
        | some l =>
          if nd.rv then (readTree s levels nd.right.toNat).map (.fork l) else some (.single l)
    else none

/-- The tree below ROOT, of depth at most 255 (41_tree_builder R163). -/
def State.tree? (s : State) : Option HTree := readTree s (maxLen + 1) s.root.toNat

/-- The symbols of the leaves, left to right. -/
def HTree.symbols : HTree → List Byte
  | .leaf v   => [v]
  | .single h => h.symbols
  | .fork l r => l.symbols ++ r.symbols

/-- The bits from the root to each leaf, left 0, right 1 (42_codebook R172, R173). -/
def HTree.paths : HTree → List (Byte × List Bool)
  | .leaf v   => [(v, [])]
  | .single h => h.paths.map fun p => (p.1, false :: p.2)
  | .fork l r => (l.paths.map fun p => (p.1, false :: p.2)) ++ (r.paths.map fun p => (p.1, true :: p.2))

/-- Every internal node has two children. -/
def HTree.full : HTree → Bool
  | .leaf _   => true
  | .single _ => false
  | .fork l r => l.full && r.full

/-- The two shapes BUILD makes (90_conflicts C1): the synthetic root over one leaf, or at least one merge and every
internal node with two children. -/
def HTree.proper : HTree → Bool
  | .leaf _             => false
  | .single (.leaf _)   => true
  | .single _           => false
  | .fork l r           => l.full && r.full

/-- The indices of the children of the record at i (10_state R36). -/
def State.children (s : State) (i : Nat) : List Nat :=
  let nd := s.nodeAt i
  if nd.leaf then [] else nd.left.toNat :: (if nd.rv then [nd.right.toNat] else [])

/-- The live set when the record at i is made: the nodes below i that no node below i has as a child (41_tree_builder
R150, R154). -/
def State.liveBelow (s : State) (i : Nat) : List Nat :=
  (List.range i).filter fun j => decide (j ∉ (List.range i).flatMap s.children)

/-- Node a comes before node b in the priority order (41_tree_builder R153). -/
abbrev State.nodeBefore (s : State) (a b : Nat) : Prop :=
  (s.nodeAt a).freq.toNat < (s.nodeAt b).freq.toNat ∨ ((s.nodeAt a).freq = (s.nodeAt b).freq ∧ a < b)

/-- The record at i merges the least live node, its left child, and the least of the others, its right child; its
frequency is the sum of theirs, which does not wrap (41_tree_builder R150, R152, R154, R158, 10_state R37). -/
def State.mergesLeastAt (s : State) (i : Nat) : Prop :=
  ∃ a ∈ s.liveBelow i, ∃ b ∈ s.liveBelow i, s.nodeBefore a b
    ∧ (∀ j ∈ s.liveBelow i, j = a ∨ j = b ∨ s.nodeBefore b j)
    ∧ (s.nodeAt a).freq.toNat + (s.nodeAt b).freq.toNat < 2 ^ 32
    ∧ s.nodeAt i
      = ⟨false, 0, (s.nodeAt a).freq + (s.nodeAt b).freq, BitVec.ofNat 9 a, BitVec.ofNat 9 b, true⟩

/-! Codebooks -/

/-- No valid codeword is a prefix of another (10_state R39, 42_codebook R177). -/
abbrev PrefixFree (cb : List Code) : Prop :=
  ((cb.filter Code.valid).map codeBits).Pairwise fun a b => ¬ a <+: b ∧ ¬ b <+: a

/-- No valid codeword is empty. -/
abbrev NoEmptyCode (cb : List Code) : Prop := ∀ c ∈ cb, c.valid = true → 1 ≤ c.len.toNat

/-- A record's value fits its length, and a record that is not valid is clear (10_state R38). -/
abbrev CodeFits (c : Code) : Prop := c.val.toNat < 2 ^ c.len.toNat ∧ (c.valid = false → c = Code.clear)

/-- The bit string a byte string packs to (43_bit_packer R192). -/
def State.bitString (s : State) (bytes : List Byte) : List Bool := bytes.flatMap fun x => codeBits (s.cbAt x.toNat)

/-- x is what MATCH emits where the codeword of x begins: its record is valid, has a bit and fits its length; no valid
codeword with a bit is a proper prefix of it; x is the least symbol with it (42_codebook R181, 45_decoder R240). -/
abbrev State.FirstMatch (s : State) (x : Byte) : Prop :=
  (s.cbAt x.toNat).valid = true ∧ 1 ≤ (s.cbAt x.toNat).len.toNat
    ∧ (s.cbAt x.toNat).val.toNat < 2 ^ (s.cbAt x.toNat).len.toNat
    ∧ ∀ y : Byte, (s.cbAt y.toNat).valid = true → 1 ≤ (s.cbAt y.toNat).len.toNat →
        codeBits (s.cbAt y.toNat) <+: codeBits (s.cbAt x.toNat) →
          codeBits (s.cbAt y.toNat) = codeBits (s.cbAt x.toNat) ∧ x.toNat ≤ y.toNat

/-- No valid codeword with a bit begins these bits, so that MATCH emits nothing on them. -/
abbrev State.NoMatchIn (s : State) (bits : List Bool) : Prop :=
  ∀ y : Byte, (s.cbAt y.toNat).valid = true → 1 ≤ (s.cbAt y.toNat).len.toNat → ¬ codeBits (s.cbAt y.toNat) <+: bits

/-! The symbol table of a container -/

/-- One entry: the symbol, the length of the codeword in bits, the bytes of its value (30_encoding R113). -/
abbrev TableEntry := Byte × Byte × List Byte

/-- Every entry has as many value bytes as its length asks for (30_encoding R113). -/
abbrev WholeEntries (es : List TableEntry) : Prop := ∀ e ∈ es, e.2.2.length = ceil8 e.2.1.toNat

/-- The bytes of the entries. -/
def tableBytes (es : List TableEntry) : List Byte := es.flatMap fun e => e.1 :: e.2.1 :: e.2.2

/-- The codebook record of a symbol once the entries have been read: that of its last entry, the bits of the value above
the length dropped, or clear (44_container R224, R226, R227). -/
def tableCode (es : List TableEntry) (v : Byte) : Code :=
  match (es.filter fun e => e.1 = v).getLast? with
  | none   => Code.clear
  | some e => ⟨true, e.2.1, BitVec.ofNat 255 (be e.2.2 % 2 ^ e.2.1.toNat)⟩

/-- The 256 records of a symbol table. -/
def tableCodebook (es : List TableEntry) : List Code := (List.range nsym).map fun v => tableCode es (BitVec.ofNat 8 v)

/-- The bits of a byte string, the most significant of each byte first (20_memory R72). -/
def bytesBits (bytes : List Byte) : List Bool := bytes.flatMap fun b => (List.range 8).map fun k => b.getLsbD (7 - k)

/-- PARSE at `s` answers a fault of kind `e` with ERR_INFO `info` at or after its symbol table, of which it has read the
entries `es`: TAG and TAG_LEN hold the tag, CB the entries, CB_V and PAY_V are 0, SYM_CNT, PAD_LEN, BIT_LEN, PAY_LEN and
PAY are as before (60_exceptions R302). -/
def ParseFaultsHaving (tag : List Byte) (es : List TableEntry) (e : ErrKind) (info : Nat) (s : State) : Prop :=
  ∃ t, exec .parse s = .next t ∧ EndsInFault .fp e (BitVec.ofNat 32 info) t ∧ t.flag .cb = false ∧ t.flag .pay = false
    ∧ t.tagLen.toNat = tag.length ∧ t.readBytes .tag tag.length = tag ∧ (∀ v : Byte, t.cbAt v.toNat = tableCode es v)
    ∧ KeepsRegs [1, 2, 3, 4, 6] s t ∧ KeepsBytes [.tag] s t

/-- PACK at `s` answers CapacityError with ERR_INFO `info`, the first `whole` bytes of the bit string `bits` being in
PAY; PAY_V is 0 and the result registers are as before (43_bit_packer R194, R195, 60_exceptions R302). -/
def PackRunsOut (info whole : Nat) (bits : List Bool) (s : State) : Prop :=
  ∃ t, exec .pack s = .next t ∧ EndsInFault .bp .capacity (BitVec.ofNat 32 info) t ∧ t.flag .pay = false
    ∧ KeepsRegs [1, 2, 3, 4] s t ∧ ∀ j, j < 8 * whole → t.bitAt .pay j = bits.getD j false

/-! Invariants of a run -/

/-- The mode and the fault registers (10_state R27, R29, 60_exceptions R291, R305): no command is running between
steps; DONE excludes ERR; without a fault ERR_CODE, ERR_INFO and PHASE are 0, with one ERR_CODE is one of the eight
kinds and PHASE one of the eight units. -/
abbrev State.modeOk (s : State) : Prop :=
  s.status.busy = false ∧ ¬ (s.status.done = true ∧ s.status.err = true)
    ∧ (s.status.err = false → s.errCode = 0 ∧ s.errInfo = 0 ∧ s.phase = 0)
    ∧ (s.status.err = true → 1 ≤ s.errCode.toNat ∧ s.errCode.toNat ≤ 8 ∧ 1 ≤ s.phase.toNat ∧ s.phase.toNat ≤ 8)

/-- A memory is canonical and lists no cell beyond its capacity. -/
abbrev Memory.within (m : Memory) (cap : Nat) : Prop := m.wf ∧ ∀ c ∈ m.cells, c.1 < cap

/-- All four memories (20_memory R79). -/
abbrev State.memOk (s : State) : Prop :=
  s.raw.within (s.params.capOf .raw) ∧ s.tag.within (s.params.capOf .tag)
    ∧ s.ctr.within (s.params.capOf .ctr) ∧ s.pay.within (s.params.capOf .pay)

/-- The payload's bound (45_decoder R241). -/
abbrev State.payOk (s : State) : Prop :=
  s.status.payV = true → s.bitLen.toNat ≤ 8 * s.payLen.toNat ∧ s.payLen.toNat ≤ s.params.payCap.cells

/-- The codebook: 256 records or none listed, all of them when CB_V is set, each one fitting (10_state R38). -/
abbrev State.cbOk (s : State) : Prop :=
  (s.cb.rows.length = nsym ∨ s.cb.rows = []) ∧ (s.status.cbV = true → s.cb.rows.length = nsym)
    ∧ ∀ c ∈ s.cb.rows, CodeFits c

/-- The sum of the 256 counts. -/
def State.freqSum (s : State) : Nat := (s.freqTable.map BitVec.toNat).sum

/-- The frequency table: FT_V guards 256 counts, not all 0, whose sum is at most RAW_CAP (40_frequency R142, R143). -/
abbrev State.ftOk (s : State) : Prop :=
  s.status.ftV = true → s.ft.rows.length = nsym ∧ 1 ≤ s.freqSum ∧ s.freqSum ≤ s.params.rawCap.cells

/-- The tree: TREE_V guards a tree of one of BUILD's two shapes with distinct symbols, at most 256 of them (10_state
R37, 41_tree_builder R163). -/
abbrev State.treeOk (s : State) : Prop :=
  s.status.treeV = true →
    ∃ h, s.tree? = some h ∧ h.proper = true ∧ h.symbols.Nodup ∧ h.symbols.length ≤ nsym

end Sys2Proof.Machine
end

