-- ==== Sys2Proof/Certificates/Slice0/Obligations.lean ====
section
/-! DEFINITION. The statements for the provers. Each docstring names the rules of spec/ it comes from. A frame holds of
every next state of the command, also of a dropped word and of a fault. -/

open Sys2Proof Sys2Proof.Machine

/-! Decoding and issue -/

/-- The ten words of 30_encoding R102, and six illegal ones of 95_test_vectors T11 to T16. -/
def Obligations.TableWordsDecode : Prop :=
  decode 0x00000001 = some .freq ∧ decode 0x00000002 = some .build ∧ decode 0x00000003 = some .codegen
    ∧ decode 0x00000004 = some .pack ∧ decode 0x00000005 = some .serialize ∧ decode 0x00000006 = some .parse
    ∧ decode 0x00000007 = some .matchBits ∧ decode 0x00000010 = some .encode ∧ decode 0x00000011 = some .decode
    ∧ decode 0x0000001F = some .clr
    ∧ decode 0x00000000 = none ∧ decode 0x00000008 = none ∧ decode 0x00000020 = none ∧ decode 0x00000101 = none
    ∧ decode 0x00000110 = none ∧ decode 0xFFFFFFFF = none

/-- 30_encoding R100 to R102: a word decodes to a command exactly when it is that command's word, so decoding undoes
encoding and no two words name one command. -/
def Obligations.DecodeIsInverseOfEncode : Prop :=
  ∀ (w : Word) (i : Instr), decode w = some i ↔ w = encode i

/-- 30_encoding R101: a word is legal exactly when bits 31:8 are 0 and bits 7:0 are one of the ten values. -/
def Obligations.DecodeAcceptsExactlyLegalWords : Prop :=
  ∀ w : Word, (∃ i, decode w = some i) ↔
    w.toNat / 256 = 0 ∧ w.toNat % 256 ∈ [0x01, 0x02, 0x03, 0x04, 0x05, 0x06, 0x07, 0x10, 0x11, 0x1F]

/-- 10_state R22, 46_top_level R260: when the host's next action writes a word to CMD and it decodes to a command, the
step is that command, at the state in which the action has been taken off the host's list (log 1). -/
def Obligations.StepRunsDecodedCommand : Prop :=
  ∀ (s : State) (w : Word) (rest : List HostAction) (i : Instr),
    s.host.script = .writeReg 0 w :: rest → decode w = some i → i.wellFormed = true →
      step s = exec i { s with host := { s.host with script := rest } }

/-- 60_exceptions R296: an illegal word written to CMD in IDLE mode raises IllegalCommandError with the word; PHASE is 8
and no other state changes. -/
def Obligations.IllegalWordRaises : Prop :=
  ∀ (s : State) (w : Word), decode w = none → s.mode = .idle →
    ∃ t, hostCommand w s = .next t ∧ EndsInFault .seq .illegalCommand w t ∧ OnlyTheFaultRecorded [] s t

/-- 46_top_level R260, 60_exceptions R305: in BUSY mode every command is dropped, in FAULT mode every command but CLR; an
illegal word is dropped in both. A dropped word changes no state. -/
def Obligations.WordsAreDropped : Prop :=
  (∀ (i : Instr) (s : State), s.mode = .busy ∨ (s.mode = .fault ∧ i ≠ .clr) → exec i s = .next s)
    ∧ ∀ (w : Word) (s : State), s.mode ≠ .idle → decode w = none → hostCommand w s = .next s

/-- 46_top_level R275: CLR in IDLE or FAULT mode completes: STATUS is DONE alone, the fault registers, PHASE and the
engine-owned result registers are 0, and RAW, TAG, CTR and their lengths are kept. -/
def Obligations.ClrReturnsToIdle : Prop :=
  ∀ s : State, s.mode ≠ .busy →
    ∃ t, exec .clr s = .next t ∧ t.regRead 1 = 0x00000002 ∧ t.mode = .idle
      ∧ (∀ n ∈ [2, 3, 4, 8, 9, 10, 11, 12, 13], t.regRead n = 0)
      ∧ KeepsRegs [1, 2, 3, 4, 8, 9, 10, 11, 12, 13] s t ∧ KeepsBytes [.pay] s t ∧ KeepsOutside s t

/-! Reset -/

/-- 70_reset R330, R331: after a reset every register reads 0 and the mode is IDLE, whatever the parameters. -/
def Obligations.ResetZeroesRegisters : Prop :=
  ∀ (p : Params) (stamp : Nat) (h : HostSide),
    (∀ n, (State.afterReset p stamp h).regRead n = 0) ∧ (State.afterReset p stamp h).mode = .idle

/-- 70_reset R330, R331: the reset can be applied in any mode; every register is then 0, the mode IDLE, the parameters
unchanged. That a reset is an action on the host's list, which it alone leaves, is the model's choice (log 1). -/
def Obligations.ResetWorksInAnyMode : Prop :=
  ∀ (s : State) (rest : List HostAction), s.host.script = .reset :: rest →
    ∃ t, step s = .next t ∧ (∀ n, t.regRead n = 0) ∧ t.mode = .idle ∧ t.params = s.params ∧ t.host.script = rest

/-- 70_reset R332: what each command does straight after reset. -/
def Obligations.FirstCommandsAfterReset : Prop :=
  ∀ (p : Params) (stamp : Nat) (h : HostSide),
    let s := State.afterReset p stamp h
    FaultsAtOnce .freq .fa .emptyInput 0 [.ft] s ∧ FaultsAtOnce .encode .fa .emptyInput 0 [.ft] s
      ∧ FaultsAtOnce .build .tb .sequence 2 [.tree] s ∧ FaultsAtOnce .codegen .cg .sequence 3 [.cb] s
      ∧ FaultsAtOnce .pack .bp .sequence 4 [.pay] s ∧ FaultsAtOnce .serialize .fs .sequence 5 [] s
      ∧ FaultsAtOnce .matchBits .du .sequence 7 [] s
      ∧ FaultsAtOnce .parse .fp .truncatedContainer 0 [.cb, .pay] s
      ∧ FaultsAtOnce .decode .fp .truncatedContainer 0 [.cb, .pay] s
      ∧ ∃ t, exec .clr s = .next t ∧ t.status.done = true ∧ t.status.err = false

/-! Faults at the start of a stage -/

/-- 60_exceptions R297, 10_state R25: a stage whose required flag is 0 raises SequenceError with its op, after clearing
its own output flag and before anything else. -/
def Obligations.StagesNeedTheirFlags : Prop :=
  ∀ s : State, s.mode = .idle →
    (s.flag .ft = false → FaultsAtOnce .build .tb .sequence 0x02 [.tree] s)
      ∧ (s.flag .tree = false → FaultsAtOnce .codegen .cg .sequence 0x03 [.cb] s)
      ∧ (s.flag .cb = false → FaultsAtOnce .pack .bp .sequence 0x04 [.pay] s)
      ∧ (s.flag .cb = false ∨ s.flag .pay = false → FaultsAtOnce .serialize .fs .sequence 0x05 [] s)
      ∧ (s.flag .cb = false ∨ s.flag .pay = false → FaultsAtOnce .matchBits .du .sequence 0x07 [] s)

/-- 10_state R30, 40_frequency R141, 43_bit_packer R191, 44_container R221: a length beyond its capacity raises
CapacityError before the memory is touched, in FREQ and ENCODE, in PACK once CB_V is 1, in PARSE and DECODE. -/
def Obligations.LengthsBeyondCapacityFault : Prop :=
  ∀ s : State, s.mode = .idle →
    (s.params.rawCap.cells < s.rawLen.toNat →
        FaultsAtOnce .freq .fa .capacity s.rawLen [.ft] s ∧ FaultsAtOnce .encode .fa .capacity s.rawLen [.ft] s
          ∧ (s.flag .cb = true → FaultsAtOnce .pack .bp .capacity s.rawLen [.pay] s))
      ∧ (s.params.ctrCap.cells < s.ctrLen.toNat →
        FaultsAtOnce .parse .fp .capacity s.ctrLen [.cb, .pay] s
          ∧ FaultsAtOnce .decode .fp .capacity s.ctrLen [.cb, .pay] s)

/-- 60_exceptions R293, 40_frequency R140: with RAW_LEN = 0, FREQ and ENCODE raise EmptyInputError; FT is unchanged. -/
def Obligations.EmptyInputFaults : Prop :=
  ∀ s : State, s.mode = .idle → s.rawLen = 0 →
    FaultsAtOnce .freq .fa .emptyInput 0 [.ft] s ∧ FaultsAtOnce .encode .fa .emptyInput 0 [.ft] s

/-! FREQ -/

/-- 40_frequency R140: FREQ completes when RAW_LEN is from 1 to RAW_CAP, and FT[v] is then the number of indices below
RAW_LEN at which RAW holds v. -/
def Obligations.FreqCountsBytes : Prop :=
  ∀ s : State, s.mode = .idle → s.rawLen ≠ 0 → s.rawLen.toNat ≤ s.params.rawCap.cells →
    ∃ t, exec .freq s = .next t ∧ EndsWell s t ∧ t.flag .ft = true
      ∧ ∀ v : Byte, (t.ftAt v.toNat).toNat
          = ((List.range s.rawLen.toNat).filter fun i => s.byteAt .raw i = v).length

/-- What FREQ leaves unchanged: every register but STATUS, ERR_CODE, ERR_INFO and PHASE, every valid flag but FT_V,
every byte of memory, NODE, CB (40_frequency R140). -/
def Obligations.FreqFrame : Prop :=
  ∀ s t : State, exec .freq s = .next t →
    KeepsRegs [1, 2, 3, 4] s t ∧ KeepsFlags [.ft] s t ∧ KeepsBytes [] s t ∧ KeepsNodes s t ∧ KeepsCodes s t
      ∧ KeepsOutside s t ∧ (t.status.err = true → KeepsFreqs s t)

/-! BUILD -/

/-- 41_tree_builder R152, R153: ExtractMin answers on a non-empty live set; it takes the member least by frequency, then
by index, and leaves all the others. -/
def Obligations.ExtractMinTakesLeast : Prop :=
  ∀ live : List Live, live ≠ [] → (live.map Prod.fst).Nodup →
    ∃ m rest, extractMin live = some (m, rest) ∧ m ∈ live
      ∧ (∀ y ∈ live, y = m ∨ m.2.freq.toNat < y.2.freq.toNat ∨ (m.2.freq = y.2.freq ∧ m.1 < y.1))
      ∧ ∀ y, y ∈ rest ↔ y ∈ live ∧ y ≠ m

/-- 41_tree_builder R150 to R156: with FT_V = 1, n of the counts not 0, n at least 1, and their sum below
2^32 (40_frequency R142), BUILD completes. The leaves stand in ascending symbol order at 0 to n - 1. For n = 1 there are
two records, the leaf and the synthetic root over it; for n from 2 there are 2n - 1, the internal ones with two children,
and the root carries the sum, and each internal one merges the two least live nodes, the lesser on the left, its frequency
the sum of theirs (R152 to R154, R158, 10_state R37). -/
def Obligations.BuildMakesTree : Prop :=
  ∀ s : State, s.mode = .idle → s.flag .ft = true → s.freqSum < 2 ^ 32 →
    1 ≤ (s.freqTable.filter (· ≠ 0)).length →
      let n := (s.freqTable.filter (· ≠ 0)).length
      ∃ t, exec .build s = .next t ∧ EndsWell s t ∧ t.flag .tree = true
        ∧ (∀ v : Byte, s.ftAt v.toNat ≠ 0 →
            t.nodeAt ((s.freqTable.take v.toNat).filter (· ≠ 0)).length = ⟨true, v, s.ftAt v.toNat, 0, 0, false⟩)
        ∧ (n = 1 → t.nodeCnt = 2 ∧ t.root = 1 ∧ t.nodeAt 1 = ⟨false, 0, (t.nodeAt 0).freq, 0, 0, false⟩)
        ∧ (2 ≤ n → t.nodeCnt.toNat = 2 * n - 1 ∧ t.root.toNat = 2 * n - 2
            ∧ (t.nodeAt t.root.toNat).freq.toNat = s.freqSum
            ∧ ∀ i, n ≤ i → i < 2 * n - 1 → t.mergesLeastAt i)

/-- 10_state R36, 41_tree_builder R154: after a completed BUILD every index below NODE_CNT other than ROOT is a child of
exactly one record, once. -/
def Obligations.BuiltNodesHaveOneParent : Prop :=
  ∀ s t : State, s.mode = .idle → exec .build s = .next t → t.status.err = false →
    ∀ j, j < t.nodeCnt.toNat → j ≠ t.root.toNat →
      ((List.range t.nodeCnt.toNat).flatMap t.children).count j = 1

/-- What BUILD leaves unchanged: every register but STATUS, ERR_CODE, ERR_INFO, PHASE, ROOT and NODE_CNT, the last two
too when it faults; every valid flag but TREE_V; every byte of memory; FT; CB; on a fault NODE (41_tree_builder R150,
60_exceptions R302). -/
def Obligations.BuildFrame : Prop :=
  ∀ s t : State, exec .build s = .next t →
    KeepsRegs [1, 2, 3, 4, 12, 13] s t ∧ KeepsFlags [.tree] s t ∧ KeepsBytes [] s t ∧ KeepsFreqs s t
      ∧ KeepsCodes s t ∧ KeepsOutside s t
      ∧ (t.status.err = true → KeepsRegs [1, 2, 3, 4] s t ∧ KeepsNodes s t)

/-! CODEGEN -/

/-- 42_codebook R170 to R173, R176: with TREE_V = 1 and NODE below ROOT a tree with distinct symbols, CODEGEN completes;
the codeword of each leaf's symbol is the path to it, left 0, right 1; every other record is cleared; SYM_CNT is the
number of leaves. -/
def Obligations.CodegenRecordsPaths : Prop :=
  ∀ (s : State) (h : HTree), s.mode = .idle → s.flag .tree = true → s.tree? = some h → h.symbols.Nodup →
    h.symbols.length ≤ nsym →
      ∃ t, exec .codegen s = .next t ∧ EndsWell s t ∧ t.flag .cb = true ∧ t.symCnt.toNat = h.symbols.length
        ∧ (∀ p ∈ h.paths, (t.cbAt p.1.toNat).valid = true ∧ (t.cbAt p.1.toNat).len.toNat = p.2.length
            ∧ codeBits (t.cbAt p.1.toNat) = p.2)
        ∧ ∀ v : Byte, v ∉ h.symbols → t.cbAt v.toNat = Code.clear

/-- 70_reset R344, 42_codebook R171: the codebook after a completed CODEGEN depends on NODE and ROOT only. -/
def Obligations.CodegenDependsOnTreeOnly : Prop :=
  ∀ s₁ s₂ t₁ : State, s₁.mode = .idle → s₂.mode = .idle → s₁.flag .tree = true → s₂.flag .tree = true →
    (∀ i, s₂.nodeAt i = s₁.nodeAt i) → s₂.root = s₁.root → exec .codegen s₁ = .next t₁ →
      ∃ t₂, exec .codegen s₂ = .next t₂ ∧ t₂.codebook = t₁.codebook ∧ t₂.symCnt = t₁.symCnt

/-- 42_codebook R177, 10_state R39: after CODEGEN on a tree of BUILD's shape the valid codewords are not empty and none
is a prefix of another. -/
def Obligations.CodegenIsPrefixFree : Prop :=
  ∀ s t : State, s.mode = .idle → s.flag .tree = true → s.treeOk → exec .codegen s = .next t →
    PrefixFree t.codebook ∧ NoEmptyCode t.codebook

/-- What CODEGEN leaves unchanged: every register but STATUS, ERR_CODE, ERR_INFO, PHASE and SYM_CNT, the last too when
it faults; every valid flag but CB_V; every byte of memory; FT; NODE; on a fault CB (42_codebook R170, 60_exceptions
R302). -/
def Obligations.CodegenFrame : Prop :=
  ∀ s t : State, exec .codegen s = .next t →
    KeepsRegs [1, 2, 3, 4, 8] s t ∧ KeepsFlags [.cb] s t ∧ KeepsBytes [] s t ∧ KeepsFreqs s t ∧ KeepsNodes s t
      ∧ KeepsOutside s t ∧ (t.status.err = true → KeepsRegs [1, 2, 3, 4] s t ∧ KeepsCodes s t)

/-! PACK -/

/-- 43_bit_packer R192: with CB_V = 1, every byte of RAW covered by the codebook, a bit total below 2^32 and room in PAY,
PACK completes; with B the codewords joined in input order, BIT_LEN, PAD_LEN and PAY_LEN are its length, the zero bits
that fill the last byte and the number of bytes, and PAY holds B, then the zero bits, most significant bit first. -/
def Obligations.PackJoinsCodewords : Prop :=
  ∀ s : State, s.mode = .idle → s.flag .cb = true → s.rawLen.toNat ≤ s.params.rawCap.cells →
    (∀ i, i < s.rawLen.toNat → (s.cbAt (s.byteAt .raw i).toNat).valid = true) →
    (s.bitString (s.readBytes .raw s.rawLen.toNat)).length < 2 ^ 32 →
    ceil8 (s.bitString (s.readBytes .raw s.rawLen.toNat)).length ≤ s.params.payCap.cells →
      let b := s.bitString (s.readBytes .raw s.rawLen.toNat)
      ∃ t, exec .pack s = .next t ∧ EndsWell s t ∧ t.flag .pay = true
        ∧ t.bitLen.toNat = b.length ∧ t.padLen.toNat = (8 - b.length % 8) % 8 ∧ t.payLen.toNat = ceil8 b.length
        ∧ 8 * t.payLen.toNat = b.length + t.padLen.toNat ∧ (t.padLen = 0 ↔ b.length % 8 = 0) ∧ t.padLen.toNat ≤ 7
        ∧ ∀ j, j < 8 * t.payLen.toNat → t.bitAt .pay j = b.getD j false

/-- 43_bit_packer R193: the first byte of RAW without a codeword, when the bytes before it could be packed, ends PACK in
MissingCodeError with its index; the result registers are unchanged and PAY_V is 0. -/
def Obligations.PackReportsMissingCode : Prop :=
  ∀ (s : State) (r : Nat), s.mode = .idle → s.flag .cb = true → s.rawLen.toNat ≤ s.params.rawCap.cells →
    r < s.rawLen.toNat → (∀ i, i < r → (s.cbAt (s.byteAt .raw i).toNat).valid = true) →
    (s.cbAt (s.byteAt .raw r).toNat).valid = false →
    (s.bitString (s.readBytes .raw r)).length < 2 ^ 32 →
    (s.bitString (s.readBytes .raw r)).length / 8 ≤ s.params.payCap.cells →
      ∃ t, exec .pack s = .next t ∧ EndsInFault .bp .missingCode (BitVec.ofNat 32 r) t ∧ t.flag .pay = false
        ∧ KeepsRegs [1, 2, 3, 4] s t

/-- 43_bit_packer R194, R195: PACK raises CapacityError with ERR_INFO r at the first byte r of RAW whose codeword takes
the bit total past 2^32 - 1 or needs a whole byte beyond PAY_CAP; with ERR_INFO RAW_LEN when only the last, partial byte
does not fit. The whole bytes packed before byte r, or all of them, are in PAY. -/
def Obligations.PackReportsCapacity : Prop :=
  ∀ s : State, s.mode = .idle → s.flag .cb = true → s.rawLen.toNat ≤ s.params.rawCap.cells →
    let bits := fun n => s.bitString (s.readBytes .raw n)
    let cap := s.params.payCap.cells
    (∀ r, r < s.rawLen.toNat → (∀ i, i ≤ r → (s.cbAt (s.byteAt .raw i).toNat).valid = true) →
        (bits r).length < 2 ^ 32 → (bits r).length / 8 ≤ cap →
        2 ^ 32 ≤ (bits (r + 1)).length ∨ cap < (bits (r + 1)).length / 8 →
          PackRunsOut r ((bits r).length / 8) (bits r) s)
      ∧ ((∀ i, i < s.rawLen.toNat → (s.cbAt (s.byteAt .raw i).toNat).valid = true) →
        (bits s.rawLen.toNat).length < 2 ^ 32 → (bits s.rawLen.toNat).length / 8 ≤ cap →
        cap < ceil8 (bits s.rawLen.toNat).length →
          PackRunsOut s.rawLen.toNat cap (bits s.rawLen.toNat) s)

/-- What PACK leaves unchanged: every register but STATUS, ERR_CODE, ERR_INFO, PHASE, PAD_LEN, BIT_LEN and PAY_LEN, the
last three too when it faults; every valid flag but PAY_V; every byte of RAW, TAG and CTR; every byte of PAY at and
above the number of bytes packed; FT, NODE, CB (43_bit_packer R190, 60_exceptions R302). -/
def Obligations.PackFrame : Prop :=
  ∀ s t : State, exec .pack s = .next t →
    KeepsRegs [1, 2, 3, 4, 9, 10, 11] s t ∧ KeepsFlags [.pay] s t ∧ KeepsBytes [.pay] s t
      ∧ KeepsBytesFrom .pay
          (packAll s.codebook s.params.payCap.cells (s.readBytes .raw s.rawLen.toNat) s.pay).work.wp s t
      ∧ KeepsFreqs s t ∧ KeepsNodes s t ∧ KeepsCodes s t ∧ KeepsOutside s t
      ∧ (t.status.err = true → KeepsRegs [1, 2, 3, 4] s t)

/-! SERIALIZE -/

/-- 44_container R205 to R208, 30_encoding R110 to R119: with CB_V = PAY_V = 1 and room in CTR, SERIALIZE completes; CTR
holds the frame, its entries in ascending symbol order, and CTR_LEN its length. -/
def Obligations.SerializeWritesFrame : Prop :=
  ∀ s : State, s.mode = .idle → s.flag .cb = true → s.flag .pay = true →
    let vs := (List.range 256).filter fun v => (s.cbAt v).valid
    let total := 1 + s.tagLen.toNat + 4 + (vs.map fun v => 2 + ceil8 (s.cbAt v).len.toNat).sum + 1 + 4 + s.payLen.toNat
    total ≤ s.params.ctrCap.cells →
      ∃ t, exec .serialize s = .next t ∧ EndsWell s t ∧ t.ctrLen.toNat = total
        ∧ t.readBytes .ctr total
          = [s.tagLen] ++ s.readBytes .tag s.tagLen.toNat ++ beBytes vs.length 4
            ++ vs.flatMap (fun v => BitVec.ofNat 8 v :: (s.cbAt v).len
                :: beBytes (s.cbAt v).val.toNat (ceil8 (s.cbAt v).len.toNat))
            ++ [s.padLen] ++ beBytes s.bitLen.toNat 4 ++ s.readBytes .pay s.payLen.toNat

/-- 44_container R205, 60_exceptions R302: a container that does not fit CTR raises CapacityError with its length,
saturated at 2^32 - 1, and SERIALIZE changes nothing else; so does every SERIALIZE that faults. -/
def Obligations.SerializeNeverPartlyWrites : Prop :=
  (∀ s : State, s.mode = .idle → s.flag .cb = true → s.flag .pay = true → s.params.ctrCap.cells < frameSize s →
      FaultsAtOnce .serialize .fs .capacity (BitVec.ofNat 32 (min (frameSize s) (2 ^ 32 - 1))) [] s)
    ∧ ∀ s t : State, exec .serialize s = .next t → t.status.err = true → KeepsBytes [] s t ∧ t.ctrLen = s.ctrLen

/-- What SERIALIZE leaves unchanged: every register but STATUS, ERR_CODE, ERR_INFO, PHASE and CTR_LEN; every valid flag;
every byte of RAW, TAG and PAY; every byte of CTR at and above the container's length; FT, NODE, CB (44_container
R205). -/
def Obligations.SerializeFrame : Prop :=
  ∀ s t : State, exec .serialize s = .next t →
    KeepsRegs [1, 2, 3, 4, 7] s t ∧ KeepsFlags [] s t ∧ KeepsBytes [.ctr] s t
      ∧ KeepsBytesFrom .ctr (frameSize s) s t ∧ KeepsFreqs s t ∧ KeepsNodes s t ∧ KeepsCodes s t ∧ KeepsOutside s t

/-! PARSE -/

/-- 44_container R220 to R229: when CTR holds a whole frame with a valid tag and a payload that is long enough and fits
PAY, PARSE completes with every field of the frame in its place; of two entries for one symbol the later counts, and the
bits of a value above its length are dropped. -/
def Obligations.ParseReadsFrame : Prop :=
  ∀ (s : State) (tag : List Byte) (cnt : List Byte) (es : List (Byte × Byte × List Byte)) (pad : Byte)
    (nbits payload : List Byte),
    s.mode = .idle → s.ctrLen.toNat ≤ s.params.ctrCap.cells →
    tag.length ≤ 255 → s.params.tagValid tag = true →
    cnt.length = 4 → be cnt = es.length → (∀ e ∈ es, e.2.2.length = ceil8 e.2.1.toNat) →
    nbits.length = 4 → be nbits ≤ 8 * payload.length → payload.length ≤ s.params.payCap.cells →
    s.readBytes .ctr s.ctrLen.toNat
      = [BitVec.ofNat 8 tag.length] ++ tag ++ cnt ++ es.flatMap (fun e => e.1 :: e.2.1 :: e.2.2) ++ [pad] ++ nbits
        ++ payload →
      ∃ t, exec .parse s = .next t ∧ EndsWell s t ∧ t.flag .cb = true ∧ t.flag .pay = true
        ∧ t.tagLen.toNat = tag.length ∧ t.readBytes .tag tag.length = tag
        ∧ t.symCnt.toNat = es.length
        ∧ (∀ v : Byte, t.cbAt v.toNat =
            match (es.filter fun e => e.1 = v).getLast? with
            | none   => Code.clear
            | some e => ⟨true, e.2.1, BitVec.ofNat 255 (be e.2.2 % 2 ^ e.2.1.toNat)⟩)
        ∧ t.padLen = pad ∧ t.bitLen.toNat = be nbits
        ∧ t.payLen.toNat = payload.length ∧ t.readBytes .pay payload.length = payload

/-- 44_container R223, 60_exceptions R298, R302: a tag read in full that is not TAG_VALID raises ExtensionDecodeError
with its length whatever follows it; TAG and TAG_LEN hold it and CB is unchanged. -/
def Obligations.ParseChecksTagFirst : Prop :=
  ∀ (s : State) (tag rest : List Byte), s.mode = .idle → s.ctrLen.toNat ≤ s.params.ctrCap.cells →
    tag.length ≤ 255 → s.params.tagValid tag = false →
    s.readBytes .ctr s.ctrLen.toNat = [BitVec.ofNat 8 tag.length] ++ tag ++ rest →
      ∃ t, exec .parse s = .next t ∧ EndsInFault .fp .extensionDecode (BitVec.ofNat 32 tag.length) t
        ∧ t.flag .cb = false ∧ t.flag .pay = false ∧ t.tagLen.toNat = tag.length
        ∧ t.readBytes .tag tag.length = tag ∧ KeepsRegs [1, 2, 3, 4, 6] s t ∧ KeepsBytes [.tag] s t ∧ KeepsCodes s t

/-- 44_container R220, R222, 60_exceptions R302: the truncation faults before the symbol table. With T the first byte of
CTR: no byte at all, offset 0; fewer than T bytes of tag, offset 1, TAG unchanged; a valid tag and fewer than four bytes
of symbol_count, offset 1 + T, the tag parsed; CB is unchanged by each. -/
def Obligations.ParseTruncatedBeforeTable : Prop :=
  ∀ s : State, s.mode = .idle → s.ctrLen.toNat ≤ s.params.ctrCap.cells →
    let n := s.ctrLen.toNat
    let len := (s.byteAt .ctr 0).toNat
    (n = 0 → FaultsAtOnce .parse .fp .truncatedContainer 0 [.cb, .pay] s)
      ∧ (1 ≤ n ∧ n < 1 + len → FaultsAtOnce .parse .fp .truncatedContainer 1 [.cb, .pay] s)
      ∧ (1 + len ≤ n ∧ n < 5 + len ∧ s.params.tagValid (((s.readBytes .ctr n).drop 1).take len) = true →
          ∃ t, exec .parse s = .next t ∧ EndsInFault .fp .truncatedContainer (BitVec.ofNat 32 (1 + len)) t
            ∧ t.flag .cb = false ∧ t.flag .pay = false ∧ t.tagLen = s.byteAt .ctr 0
            ∧ t.readBytes .tag len = ((s.readBytes .ctr n).drop 1).take len
            ∧ KeepsRegs [1, 2, 3, 4, 6] s t ∧ KeepsBytes [.tag] s t ∧ KeepsCodes s t)

/-- 44_container R220, R222, R229, 60_exceptions R302: the faults of PARSE in and after the symbol table, once the
entries es have been read and the bytes of rest follow. While the count asks for another entry: at the offset of its
symbol, its length or its value, whichever cannot be read in full. When it does not: at the offset of padding_length or
of true_bit_length; TruncatedContainerError with CTR_LEN for a payload shorter than true_bit_length; CapacityError with
the payload's length for one beyond PAY_CAP. -/
def Obligations.ParseFaultsFromTable : Prop :=
  ∀ (s : State) (tag cnt : List Byte) (es : List TableEntry) (rest : List Byte),
    s.mode = .idle → s.ctrLen.toNat ≤ s.params.ctrCap.cells → tag.length ≤ 255 → s.params.tagValid tag = true →
    cnt.length = 4 → WholeEntries es →
    s.readBytes .ctr s.ctrLen.toNat = [BitVec.ofNat 8 tag.length] ++ tag ++ cnt ++ tableBytes es ++ rest →
      let off := 5 + tag.length + (tableBytes es).length
      (es.length < be cnt →
        (rest = [] → ParseFaultsHaving tag es .truncatedContainer off s)
          ∧ (rest.length = 1 → ParseFaultsHaving tag es .truncatedContainer (off + 1) s)
          ∧ ∀ sym len val, rest = sym :: len :: val → val.length < ceil8 len.toNat →
              ParseFaultsHaving tag es .truncatedContainer (off + 2) s)
        ∧ (es.length = be cnt →
          (rest = [] → ParseFaultsHaving tag es .truncatedContainer off s)
            ∧ (1 ≤ rest.length ∧ rest.length < 5 → ParseFaultsHaving tag es .truncatedContainer (off + 1) s)
            ∧ ∀ pad nbits payload, nbits.length = 4 → rest = pad :: (nbits ++ payload) →
                (8 * payload.length < be nbits → ParseFaultsHaving tag es .truncatedContainer s.ctrLen.toNat s)
                  ∧ (be nbits ≤ 8 * payload.length → s.params.payCap.cells < payload.length →
                      ParseFaultsHaving tag es .capacity payload.length s))

/-- What PARSE leaves unchanged: every register but STATUS, ERR_CODE, ERR_INFO, PHASE, TAG_LEN, SYM_CNT, PAD_LEN, BIT_LEN
and PAY_LEN, the last four too when it faults; every valid flag but CB_V and PAY_V; every byte of RAW and CTR; every byte
of TAG at and above the tag's length, and of PAY at and above the payload's, all of PAY when it faults; FT and NODE
(44_container R220, 60_exceptions R302). -/
def Obligations.ParseFrame : Prop :=
  ∀ s t : State, exec .parse s = .next t →
    KeepsRegs [1, 2, 3, 4, 6, 8, 9, 10, 11] s t ∧ KeepsFlags [.cb, .pay] s t ∧ KeepsBytes [.tag, .pay] s t
      ∧ KeepsBytesFrom .tag (s.byteAt .ctr 0).toNat s t ∧ KeepsBytesFrom .pay t.payLen.toNat s t
      ∧ KeepsFreqs s t ∧ KeepsNodes s t ∧ KeepsOutside s t
      ∧ (t.status.err = true → KeepsRegs [1, 2, 3, 4, 6] s t ∧ KeepsBytes [.tag] s t)

/-- 44_container R231: a container made by SERIALIZE, parsed without a fault and serialized again, is the same
container. -/
def Obligations.ReserializedContainerIsSame : Prop :=
  ∀ s t u : State, s.mode = .idle → (∀ v : Byte, CodeFits (s.cbAt v.toNat)) →
    exec .serialize s = .next t → t.status.err = false → exec .parse t = .next u → u.status.err = false →
      ∃ w, exec .serialize u = .next w ∧ w.status.err = false ∧ w.ctrLen = t.ctrLen
        ∧ w.readBytes .ctr w.ctrLen.toNat = t.readBytes .ctr t.ctrLen.toNat

/-! MATCH -/

/-- 45_decoder R240, R249: when the first BIT_LEN bits of PAY are the codewords of a message m joined, under a
prefix-free codebook with no empty codeword, and m fits RAW, MATCH completes with the message in RAW. -/
def Obligations.MatchRecoversMessage : Prop :=
  ∀ (s : State) (m : List Byte), s.mode = .idle → s.flag .cb = true → s.flag .pay = true →
    s.bitLen.toNat ≤ 8 * s.payLen.toNat → (∀ v : Byte, CodeFits (s.cbAt v.toNat)) →
    PrefixFree s.codebook → NoEmptyCode s.codebook → (∀ x ∈ m, (s.cbAt x.toNat).valid = true) →
    s.payBits s.bitLen.toNat = s.bitString m → m.length ≤ s.params.rawCap.cells →
      ∃ t, exec .matchBits s = .next t ∧ EndsWell s t ∧ t.rawLen.toNat = m.length ∧ t.readBytes .raw m.length = m

/-- 45_decoder R240, R245, R246, 42_codebook R181: when the payload's bits are the codewords of m, each matched first and
for its least symbol, and then bits in which nothing matches, be it the beginning of a codeword, MATCH ends in
UnknownCodeError with the number of symbols emitted; RAW_LEN is 0, RAW holds m and is unchanged beyond it. -/
def Obligations.MatchReportsUnknownCode : Prop :=
  ∀ (s : State) (m : List Byte) (tail : List Bool), s.mode = .idle → s.flag .cb = true → s.flag .pay = true →
    s.bitLen.toNat ≤ 8 * s.payLen.toNat → s.payBits s.bitLen.toNat = s.bitString m ++ tail →
    (∀ x ∈ m, s.FirstMatch x) → s.NoMatchIn tail → tail ≠ [] → m.length ≤ s.params.rawCap.cells →
      ∃ t, exec .matchBits s = .next t ∧ EndsInFault .du .unknownCode (BitVec.ofNat 32 m.length) t ∧ t.rawLen = 0
        ∧ t.readBytes .raw m.length = m ∧ KeepsBytes [.raw] s t ∧ KeepsBytesFrom .raw m.length s t ∧ KeepsFlags [] s t

/-- 45_decoder R240, R244, 42_codebook R181: under any codebook, when the payload's bits begin with the codewords of m,
each matched first and for its least symbol: MATCH completes with m in RAW when nothing follows and m fits; when m does
not fit it ends in CapacityError with ERR_INFO RAW_CAP, RAW_LEN 0 and RAW full of the first symbols of m. -/
def Obligations.MatchEmitsFirstMatches : Prop :=
  ∀ (s : State) (m : List Byte) (tail : List Bool), s.mode = .idle → s.flag .cb = true → s.flag .pay = true →
    s.bitLen.toNat ≤ 8 * s.payLen.toNat → s.payBits s.bitLen.toNat = s.bitString m ++ tail →
    (∀ x ∈ m, s.FirstMatch x) →
      let cap := s.params.rawCap.cells
      (tail = [] → m.length ≤ cap →
        ∃ t, exec .matchBits s = .next t ∧ EndsWell s t ∧ t.rawLen.toNat = m.length ∧ t.readBytes .raw m.length = m)
        ∧ (cap < m.length →
          ∃ t, exec .matchBits s = .next t ∧ EndsInFault .du .capacity (BitVec.ofNat 32 cap) t ∧ t.rawLen = 0
            ∧ t.readBytes .raw cap = m.take cap)

/-- What MATCH leaves unchanged: every register but STATUS, ERR_CODE, ERR_INFO, PHASE and RAW_LEN; every valid flag;
every byte of TAG, CTR and PAY; every byte of RAW at and above the number of symbols emitted; FT, NODE, CB
(45_decoder R240). -/
def Obligations.MatchFrame : Prop :=
  ∀ s t : State, exec .matchBits s = .next t →
    KeepsRegs [1, 2, 3, 4, 5] s t ∧ KeepsFlags [] s t ∧ KeepsBytes [.raw] s t
      ∧ KeepsBytesFrom .raw
          (matchLoop s.codebook s.params.rawCap.cells (s.payBits s.bitLen.toNat) Acc.empty 0 s.raw).written s t
      ∧ KeepsFreqs s t ∧ KeepsNodes s t ∧ KeepsCodes s t ∧ KeepsOutside s t

/-! ENCODE -/

/-- 46_top_level R271: ENCODE is FREQ, BUILD, CODEGEN, PACK and SERIALIZE issued one after the other, from every state and
with the same outcome. -/
def Obligations.EncodeEqualsItsStages : Prop :=
  ∀ s : State, exec .encode s = issueAll [.freq, .build, .codegen, .pack, .serialize] s

/-- 46_top_level R270: ENCODE completes on every input that is not empty and whose worst case, 255 bits for every byte and
a full symbol table, fits BIT_LEN, PAY and CTR; the four valid flags are then 1. -/
def Obligations.EncodeCompletes : Prop :=
  ∀ s : State, s.mode = .idle → 1 ≤ s.rawLen.toNat → s.rawLen.toNat ≤ s.params.rawCap.cells →
    255 * s.rawLen.toNat < 2 ^ 32 → ceil8 (255 * s.rawLen.toNat) ≤ s.params.payCap.cells →
    1 + s.tagLen.toNat + 4 + 256 * 34 + 5 + ceil8 (255 * s.rawLen.toNat) ≤ s.params.ctrCap.cells →
      ∃ t, exec .encode s = .next t ∧ EndsWell s t ∧ ∀ f, t.flag f = true

/-- 46_top_level R270, 41_tree_builder R156, 42_codebook R175: ENCODE of n bytes that are all x completes, with the
container of one entry, the codeword of one bit 0, and n zero bits of payload. -/
def Obligations.EncodeOneSymbol : Prop :=
  ∀ (s : State) (x : Byte), s.mode = .idle → 1 ≤ s.rawLen.toNat → s.rawLen.toNat ≤ s.params.rawCap.cells →
    (∀ i, i < s.rawLen.toNat → s.byteAt .raw i = x) → ceil8 s.rawLen.toNat ≤ s.params.payCap.cells →
    s.tagLen.toNat + 13 + ceil8 s.rawLen.toNat ≤ s.params.ctrCap.cells →
      let n := s.rawLen.toNat
      ∃ t, exec .encode s = .next t ∧ EndsWell s t ∧ (∀ f, t.flag f = true)
        ∧ t.ctrLen.toNat = s.tagLen.toNat + 13 + ceil8 n
        ∧ t.readBytes .ctr t.ctrLen.toNat
          = [s.tagLen] ++ s.readBytes .tag s.tagLen.toNat
            ++ [0, 0, 0, 1, x, 1, 0, BitVec.ofNat 8 ((8 - n % 8) % 8)] ++ beBytes n 4 ++ List.replicate (ceil8 n) 0

/-- What ENCODE leaves unchanged: RAW_LEN and TAG_LEN; every byte of RAW and TAG; every byte of PAY and CTR at and above
the payload's and the container's length when it completes; CTR and CTR_LEN when it faults; PAY at and above PAY_CAP
(46_top_level R270). -/
def Obligations.EncodeFrame : Prop :=
  ∀ s t : State, exec .encode s = .next t →
    KeepsRegs [1, 2, 3, 4, 7, 8, 9, 10, 11, 12, 13] s t ∧ KeepsBytes [.pay, .ctr] s t
      ∧ KeepsBytesFrom .pay s.params.payCap.cells s t ∧ KeepsOutside s t
      ∧ (t.status.err = false → KeepsBytesFrom .pay t.payLen.toNat s t ∧ KeepsBytesFrom .ctr t.ctrLen.toNat s t)
      ∧ (t.status.err = true → KeepsBytes [.pay] s t ∧ t.ctrLen = s.ctrLen)

/-! DECODE -/

/-- 46_top_level R273: DECODE is PARSE and MATCH issued one after the other, from every state and with the same
outcome. -/
def Obligations.DecodeEqualsItsStages : Prop :=
  ∀ s : State, exec .decode s = issueAll [.parse, .matchBits] s

/-- 46_top_level R272, 44_container R220, 45_decoder R249: DECODE of a whole frame with a valid tag, whose table's
codewords are prefix-free and not empty and whose first true_bit_length payload bits are the codewords of a message m,
with room for payload and m, completes with m in RAW and the tag in TAG. -/
def Obligations.DecodeRecoversMessage : Prop :=
  ∀ (s : State) (tag cnt : List Byte) (es : List TableEntry) (pad : Byte) (nbits payload m : List Byte),
    s.mode = .idle → s.ctrLen.toNat ≤ s.params.ctrCap.cells → tag.length ≤ 255 → s.params.tagValid tag = true →
    cnt.length = 4 → be cnt = es.length → WholeEntries es →
    nbits.length = 4 → be nbits ≤ 8 * payload.length → payload.length ≤ s.params.payCap.cells →
    s.readBytes .ctr s.ctrLen.toNat
      = [BitVec.ofNat 8 tag.length] ++ tag ++ cnt ++ tableBytes es ++ [pad] ++ nbits ++ payload →
    PrefixFree (tableCodebook es) → NoEmptyCode (tableCodebook es) → (∀ x ∈ m, (tableCode es x).valid = true) →
    (bytesBits payload).take (be nbits) = m.flatMap (fun x => codeBits (tableCode es x)) →
    m.length ≤ s.params.rawCap.cells →
      ∃ t, exec .decode s = .next t ∧ EndsWell s t ∧ t.flag .cb = true ∧ t.flag .pay = true
        ∧ t.rawLen.toNat = m.length ∧ t.readBytes .raw m.length = m
        ∧ t.tagLen.toNat = tag.length ∧ t.readBytes .tag tag.length = tag

/-- What DECODE leaves unchanged: CTR_LEN, ROOT and NODE_CNT; FT_V and TREE_V; every byte of CTR; every byte of TAG and
PAY at and above the tag's and the payload's length, of RAW at and above the output's when it completes and at and above
RAW_CAP always; RAW and RAW_LEN when the fault is PARSE's; FT and NODE (46_top_level R272). -/
def Obligations.DecodeFrame : Prop :=
  ∀ s t : State, exec .decode s = .next t →
    KeepsRegs [1, 2, 3, 4, 5, 6, 8, 9, 10, 11] s t ∧ KeepsFlags [.cb, .pay] s t ∧ KeepsBytes [.raw, .tag, .pay] s t
      ∧ KeepsBytesFrom .tag (s.byteAt .ctr 0).toNat s t ∧ KeepsBytesFrom .pay t.payLen.toNat s t
      ∧ KeepsBytesFrom .raw s.params.rawCap.cells s t ∧ KeepsFreqs s t ∧ KeepsNodes s t ∧ KeepsOutside s t
      ∧ (t.status.err = false → KeepsBytesFrom .raw t.rawLen.toNat s t)
      ∧ (t.status.err = true → t.phase = Position.fp.code → KeepsBytes [.tag, .pay] s t ∧ t.rawLen = s.rawLen)

/-- 46_top_level R274: DECODE issued after an ENCODE that completed, its tag TAG_VALID, completes and gives back the raw
bytes and the tag. -/
def Obligations.DecodeRestoresEncodedInput : Prop :=
  ∀ s t : State, s.mode = .idle → s.params.tagValid (s.readBytes .tag s.tagLen.toNat) = true →
    exec .encode s = .next t → t.status.err = false →
      ∃ u, exec .decode t = .next u ∧ EndsWell t u
        ∧ u.rawLen = s.rawLen ∧ u.readBytes .raw u.rawLen.toNat = s.readBytes .raw s.rawLen.toNat
        ∧ u.tagLen = s.tagLen ∧ u.readBytes .tag u.tagLen.toNat = s.readBytes .tag s.tagLen.toNat

/-! The host's accesses -/

/-- 20_memory R81, R85, 70_reset R340: a host read changes nothing but the host's side and returns the register, byte or
record; STATUS can be read in every mode, all else in IDLE and FAULT mode, bytes below the capacity. That the read is
taken from the host's list (log 1) and what it returned kept on the host's side (log 7) is the model's choice. -/
def Obligations.HostReadsHaveNoSideEffect : Prop :=
  ∀ (s : State) (rest : List HostAction),
    (∀ n, s.host.script = .readReg n :: rest →
        ∃ t d, step s = .next t ∧ { t with host := s.host } = s ∧ t.host.script = rest ∧ t.host.seen = some (.word d)
          ∧ (s.mode ≠ .busy ∨ n = 1 → d = s.regRead n))
      ∧ (∀ sp i, s.host.script = .readMem sp i :: rest →
        ∃ t d, step s = .next t ∧ { t with host := s.host } = s ∧ t.host.script = rest ∧ t.host.seen = some (.byte d)
          ∧ (s.mode ≠ .busy → i < s.params.capOf sp → d = s.byteAt sp i))
      ∧ (∀ v, s.host.script = .readFreq v :: rest →
        ∃ t d, step s = .next t ∧ { t with host := s.host } = s ∧ t.host.script = rest ∧ t.host.seen = some (.count d)
          ∧ (s.mode ≠ .busy → d = s.ftAt v.toNat))
      ∧ (∀ i, s.host.script = .readNode i :: rest →
        ∃ t d, step s = .next t ∧ { t with host := s.host } = s ∧ t.host.script = rest ∧ t.host.seen = some (.node d)
          ∧ (s.mode ≠ .busy → i.toNat < 511 → d = s.nodeAt i.toNat))
      ∧ (∀ v, s.host.script = .readCode v :: rest →
        ∃ t d, step s = .next t ∧ { t with host := s.host } = s ∧ t.host.script = rest ∧ t.host.seen = some (.code d)
          ∧ (s.mode ≠ .busy → d = s.cbAt v.toNat))

/-- 10_state R21, 70_reset R340: a host write to RAW_LEN, TAG_LEN or CTR_LEN stores its low bits and changes no other
register; a write to any other register but CMD, and any in BUSY mode, changes nothing. That the write is taken from the
host's list is the model's choice (log 1). -/
def Obligations.HostWritesRegisters : Prop :=
  ∀ (s : State) (n : Nat) (v : Word) (rest : List HostAction), s.host.script = .writeReg n v :: rest → n ≠ 0 →
    ∃ t, step s = .next t ∧ t.host.script = rest ∧ KeepsRegs [n] s t ∧ KeepsBytes [] s t ∧ KeepsFreqs s t
      ∧ KeepsNodes s t ∧ KeepsCodes s t
      ∧ (s.mode = .busy ∨ n ∉ [5, 6, 7] → { t with host := s.host } = s)
      ∧ (s.mode ≠ .busy → (n = 5 → t.rawLen = v) ∧ (n = 6 → t.tagLen.toNat = v.toNat % 256) ∧ (n = 7 → t.ctrLen = v))

/-- 20_memory R85, 10_state R40, 70_reset R340: a host write to a cell of RAW, TAG or CTR below the capacity changes that
cell alone; to PAY, beyond the capacity or in BUSY mode it changes nothing. That the write is taken from the host's list
is the model's choice (log 1). -/
def Obligations.HostWritesMemory : Prop :=
  ∀ (s : State) (sp : Space) (i : Nat) (b : Byte) (rest : List HostAction),
    s.host.script = .writeMem sp i b :: rest →
      ∃ t, step s = .next t ∧ t.host.script = rest ∧ KeepsRegs [] s t ∧ KeepsBytes [sp] s t
        ∧ (∀ j, j ≠ i → t.byteAt sp j = s.byteAt sp j) ∧ KeepsFreqs s t ∧ KeepsNodes s t ∧ KeepsCodes s t
        ∧ (s.mode ≠ .busy ∧ sp ≠ .pay ∧ i < s.params.capOf sp → t.byteAt sp i = b)
        ∧ (s.mode = .busy ∨ sp = .pay ∨ s.params.capOf sp ≤ i → { t with host := s.host } = s)

/-! Invariants -/

/-- 70_reset R331: every invariant below holds after reset, whatever the parameters. -/
def Obligations.InvariantsHoldAtReset : Prop :=
  ∀ p : Params, let s := State.resetWith p
    s.modeOk ∧ s.memOk ∧ s.payOk ∧ s.cbOk ∧ s.ftOk ∧ s.treeOk

/-- 10_state R27, R29, 60_exceptions R291: every step keeps the mode bits, ERR_CODE and PHASE legal and in agreement. -/
def Obligations.StepKeepsModeLegal : Prop :=
  ∀ s t : State, s.modeOk → step s = .next t → t.modeOk

/-- 20_memory R79: every step keeps the four memories in canonical form and within their capacities. -/
def Obligations.StepKeepsMemoryWithinCapacity : Prop :=
  ∀ s t : State, s.memOk → step s = .next t → t.memOk

/-- 45_decoder R241: every step keeps it that PAY_V = 1 implies BIT_LEN <= 8 * PAY_LEN and PAY_LEN <= PAY_CAP. -/
def Obligations.StepKeepsPayloadBound : Prop :=
  ∀ s t : State, s.payOk → step s = .next t → t.payOk

/-- 10_state R38: every step keeps every listed codebook record fitting its length, clear when it is not valid, and all
256 listed while CB_V = 1. -/
def Obligations.StepKeepsCodebookFitting : Prop :=
  ∀ s t : State, s.cbOk → step s = .next t → t.cbOk

/-- 40_frequency R142, R143: every step keeps it that FT_V = 1 guards 256 counts, not all 0, of sum at most RAW_CAP. -/
def Obligations.StepKeepsCountsBounded : Prop :=
  ∀ s t : State, s.ftOk → step s = .next t → t.ftOk

/-- 10_state R37, 41_tree_builder R155, R156, R163: every step keeps it that TREE_V = 1 guards a tree of one of BUILD's
two shapes, of depth at most 255, no symbol in two leaves. -/
def Obligations.StepKeepsTreeShape : Prop :=
  ∀ s t : State, s.treeOk → step s = .next t → t.treeOk

/-- 46_top_level R263, 93_implementation_defined part 1: where the counts and the tree are as every run keeps them, every
step answers a next state, and no command is left running. -/
def Obligations.EveryCommandEnds : Prop :=
  ∀ s : State, s.ftOk → s.treeOk →
    ∃ t, step s = .next t ∧ (s.status.busy = false → t.status.busy = false)

/-- 60_exceptions R305: while ERR = 1, no step but CLR and reset changes STATUS, ERR_CODE, ERR_INFO or PHASE (a step
takes the host's next action, log 1). -/
def Obligations.FaultRecordIsKept : Prop :=
  ∀ (s t : State) (a : HostAction) (rest : List HostAction), s.mode = .fault → s.host.script = a :: rest →
    a ≠ .reset → a ≠ .writeReg 0 0x0000001F → step s = .next t →
      t.status = s.status ∧ t.errCode = s.errCode ∧ t.errInfo = s.errInfo ∧ t.phase = s.phase
end

