-- ==== Sys2Proof/Laws/State.lean ====
section
/-! SUPPORT. What each named update of the state does to each field, true by unfolding the update once. -/

namespace Sys2Proof.Machine

variable (s : State)

/-! `State.setPhase` -/

@[simp] theorem State.setPhase_status (u : Position) : (s.setPhase u).status = s.status := rfl
@[simp] theorem State.setPhase_errCode (u : Position) : (s.setPhase u).errCode = s.errCode := rfl
@[simp] theorem State.setPhase_errInfo (u : Position) : (s.setPhase u).errInfo = s.errInfo := rfl
@[simp] theorem State.setPhase_phase (u : Position) : (s.setPhase u).phase = u.code := rfl
@[simp] theorem State.setPhase_rawLen (u : Position) : (s.setPhase u).rawLen = s.rawLen := rfl
@[simp] theorem State.setPhase_tagLen (u : Position) : (s.setPhase u).tagLen = s.tagLen := rfl
@[simp] theorem State.setPhase_ctrLen (u : Position) : (s.setPhase u).ctrLen = s.ctrLen := rfl
@[simp] theorem State.setPhase_symCnt (u : Position) : (s.setPhase u).symCnt = s.symCnt := rfl
@[simp] theorem State.setPhase_padLen (u : Position) : (s.setPhase u).padLen = s.padLen := rfl
@[simp] theorem State.setPhase_bitLen (u : Position) : (s.setPhase u).bitLen = s.bitLen := rfl
@[simp] theorem State.setPhase_payLen (u : Position) : (s.setPhase u).payLen = s.payLen := rfl
@[simp] theorem State.setPhase_root (u : Position) : (s.setPhase u).root = s.root := rfl
@[simp] theorem State.setPhase_nodeCnt (u : Position) : (s.setPhase u).nodeCnt = s.nodeCnt := rfl
@[simp] theorem State.setPhase_ft (u : Position) : (s.setPhase u).ft = s.ft := rfl
@[simp] theorem State.setPhase_node (u : Position) : (s.setPhase u).node = s.node := rfl
@[simp] theorem State.setPhase_cb (u : Position) : (s.setPhase u).cb = s.cb := rfl
@[simp] theorem State.setPhase_raw (u : Position) : (s.setPhase u).raw = s.raw := rfl
@[simp] theorem State.setPhase_tag (u : Position) : (s.setPhase u).tag = s.tag := rfl
@[simp] theorem State.setPhase_ctr (u : Position) : (s.setPhase u).ctr = s.ctr := rfl
@[simp] theorem State.setPhase_pay (u : Position) : (s.setPhase u).pay = s.pay := rfl
@[simp] theorem State.setPhase_params (u : Position) : (s.setPhase u).params = s.params := rfl
@[simp] theorem State.setPhase_fresh (u : Position) : (s.setPhase u).fresh = s.fresh := rfl
@[simp] theorem State.setPhase_host (u : Position) : (s.setPhase u).host = s.host := rfl

/-! `State.raise` -/

@[simp] theorem State.raise_status (e : ErrKind) (info : Word) : (s.raise e info).status = { s.status with err := true, busy := false } := rfl
@[simp] theorem State.raise_errCode (e : ErrKind) (info : Word) : (s.raise e info).errCode = e.code := rfl
@[simp] theorem State.raise_errInfo (e : ErrKind) (info : Word) : (s.raise e info).errInfo = info := rfl
@[simp] theorem State.raise_phase (e : ErrKind) (info : Word) : (s.raise e info).phase = s.phase := rfl
@[simp] theorem State.raise_rawLen (e : ErrKind) (info : Word) : (s.raise e info).rawLen = s.rawLen := rfl
@[simp] theorem State.raise_tagLen (e : ErrKind) (info : Word) : (s.raise e info).tagLen = s.tagLen := rfl
@[simp] theorem State.raise_ctrLen (e : ErrKind) (info : Word) : (s.raise e info).ctrLen = s.ctrLen := rfl
@[simp] theorem State.raise_symCnt (e : ErrKind) (info : Word) : (s.raise e info).symCnt = s.symCnt := rfl
@[simp] theorem State.raise_padLen (e : ErrKind) (info : Word) : (s.raise e info).padLen = s.padLen := rfl
@[simp] theorem State.raise_bitLen (e : ErrKind) (info : Word) : (s.raise e info).bitLen = s.bitLen := rfl
@[simp] theorem State.raise_payLen (e : ErrKind) (info : Word) : (s.raise e info).payLen = s.payLen := rfl
@[simp] theorem State.raise_root (e : ErrKind) (info : Word) : (s.raise e info).root = s.root := rfl
@[simp] theorem State.raise_nodeCnt (e : ErrKind) (info : Word) : (s.raise e info).nodeCnt = s.nodeCnt := rfl
@[simp] theorem State.raise_ft (e : ErrKind) (info : Word) : (s.raise e info).ft = s.ft := rfl
@[simp] theorem State.raise_node (e : ErrKind) (info : Word) : (s.raise e info).node = s.node := rfl
@[simp] theorem State.raise_cb (e : ErrKind) (info : Word) : (s.raise e info).cb = s.cb := rfl
@[simp] theorem State.raise_raw (e : ErrKind) (info : Word) : (s.raise e info).raw = s.raw := rfl
@[simp] theorem State.raise_tag (e : ErrKind) (info : Word) : (s.raise e info).tag = s.tag := rfl
@[simp] theorem State.raise_ctr (e : ErrKind) (info : Word) : (s.raise e info).ctr = s.ctr := rfl
@[simp] theorem State.raise_pay (e : ErrKind) (info : Word) : (s.raise e info).pay = s.pay := rfl
@[simp] theorem State.raise_params (e : ErrKind) (info : Word) : (s.raise e info).params = s.params := rfl
@[simp] theorem State.raise_fresh (e : ErrKind) (info : Word) : (s.raise e info).fresh = s.fresh := rfl
@[simp] theorem State.raise_host (e : ErrKind) (info : Word) : (s.raise e info).host = s.host := rfl

/-! `State.beginCommand` -/

@[simp] theorem State.beginCommand_status : (s.beginCommand).status = { s.status with done := false, busy := true } := rfl
@[simp] theorem State.beginCommand_errCode : (s.beginCommand).errCode = s.errCode := rfl
@[simp] theorem State.beginCommand_errInfo : (s.beginCommand).errInfo = s.errInfo := rfl
@[simp] theorem State.beginCommand_phase : (s.beginCommand).phase = 8 := rfl
@[simp] theorem State.beginCommand_rawLen : (s.beginCommand).rawLen = s.rawLen := rfl
@[simp] theorem State.beginCommand_tagLen : (s.beginCommand).tagLen = s.tagLen := rfl
@[simp] theorem State.beginCommand_ctrLen : (s.beginCommand).ctrLen = s.ctrLen := rfl
@[simp] theorem State.beginCommand_symCnt : (s.beginCommand).symCnt = s.symCnt := rfl
@[simp] theorem State.beginCommand_padLen : (s.beginCommand).padLen = s.padLen := rfl
@[simp] theorem State.beginCommand_bitLen : (s.beginCommand).bitLen = s.bitLen := rfl
@[simp] theorem State.beginCommand_payLen : (s.beginCommand).payLen = s.payLen := rfl
@[simp] theorem State.beginCommand_root : (s.beginCommand).root = s.root := rfl
@[simp] theorem State.beginCommand_nodeCnt : (s.beginCommand).nodeCnt = s.nodeCnt := rfl
@[simp] theorem State.beginCommand_ft : (s.beginCommand).ft = s.ft := rfl
@[simp] theorem State.beginCommand_node : (s.beginCommand).node = s.node := rfl
@[simp] theorem State.beginCommand_cb : (s.beginCommand).cb = s.cb := rfl
@[simp] theorem State.beginCommand_raw : (s.beginCommand).raw = s.raw := rfl
@[simp] theorem State.beginCommand_tag : (s.beginCommand).tag = s.tag := rfl
@[simp] theorem State.beginCommand_ctr : (s.beginCommand).ctr = s.ctr := rfl
@[simp] theorem State.beginCommand_pay : (s.beginCommand).pay = s.pay := rfl
@[simp] theorem State.beginCommand_params : (s.beginCommand).params = s.params := rfl
@[simp] theorem State.beginCommand_fresh : (s.beginCommand).fresh = s.fresh := rfl
@[simp] theorem State.beginCommand_host : (s.beginCommand).host = s.host := rfl

/-! `State.endCommand` -/

@[simp] theorem State.endCommand_status : (s.endCommand).status = { s.status with busy := false, done := true } := rfl
@[simp] theorem State.endCommand_errCode : (s.endCommand).errCode = s.errCode := rfl
@[simp] theorem State.endCommand_errInfo : (s.endCommand).errInfo = s.errInfo := rfl
@[simp] theorem State.endCommand_phase : (s.endCommand).phase = 0 := rfl
@[simp] theorem State.endCommand_rawLen : (s.endCommand).rawLen = s.rawLen := rfl
@[simp] theorem State.endCommand_tagLen : (s.endCommand).tagLen = s.tagLen := rfl
@[simp] theorem State.endCommand_ctrLen : (s.endCommand).ctrLen = s.ctrLen := rfl
@[simp] theorem State.endCommand_symCnt : (s.endCommand).symCnt = s.symCnt := rfl
@[simp] theorem State.endCommand_padLen : (s.endCommand).padLen = s.padLen := rfl
@[simp] theorem State.endCommand_bitLen : (s.endCommand).bitLen = s.bitLen := rfl
@[simp] theorem State.endCommand_payLen : (s.endCommand).payLen = s.payLen := rfl
@[simp] theorem State.endCommand_root : (s.endCommand).root = s.root := rfl
@[simp] theorem State.endCommand_nodeCnt : (s.endCommand).nodeCnt = s.nodeCnt := rfl
@[simp] theorem State.endCommand_ft : (s.endCommand).ft = s.ft := rfl
@[simp] theorem State.endCommand_node : (s.endCommand).node = s.node := rfl
@[simp] theorem State.endCommand_cb : (s.endCommand).cb = s.cb := rfl
@[simp] theorem State.endCommand_raw : (s.endCommand).raw = s.raw := rfl
@[simp] theorem State.endCommand_tag : (s.endCommand).tag = s.tag := rfl
@[simp] theorem State.endCommand_ctr : (s.endCommand).ctr = s.ctr := rfl
@[simp] theorem State.endCommand_pay : (s.endCommand).pay = s.pay := rfl
@[simp] theorem State.endCommand_params : (s.endCommand).params = s.params := rfl
@[simp] theorem State.endCommand_fresh : (s.endCommand).fresh = s.fresh := rfl
@[simp] theorem State.endCommand_host : (s.endCommand).host = s.host := rfl

/-! `State.cleared` -/

@[simp] theorem State.cleared_status : (s.cleared).status = ⟨false, true, false, false, false, false, false⟩ := rfl
@[simp] theorem State.cleared_errCode : (s.cleared).errCode = 0 := rfl
@[simp] theorem State.cleared_errInfo : (s.cleared).errInfo = 0 := rfl
@[simp] theorem State.cleared_phase : (s.cleared).phase = 0 := rfl
@[simp] theorem State.cleared_rawLen : (s.cleared).rawLen = s.rawLen := rfl
@[simp] theorem State.cleared_tagLen : (s.cleared).tagLen = s.tagLen := rfl
@[simp] theorem State.cleared_ctrLen : (s.cleared).ctrLen = s.ctrLen := rfl
@[simp] theorem State.cleared_symCnt : (s.cleared).symCnt = 0 := rfl
@[simp] theorem State.cleared_padLen : (s.cleared).padLen = 0 := rfl
@[simp] theorem State.cleared_bitLen : (s.cleared).bitLen = 0 := rfl
@[simp] theorem State.cleared_payLen : (s.cleared).payLen = 0 := rfl
@[simp] theorem State.cleared_root : (s.cleared).root = 0 := rfl
@[simp] theorem State.cleared_nodeCnt : (s.cleared).nodeCnt = 0 := rfl
@[simp] theorem State.cleared_ft : (s.cleared).ft = ⟨[], s.fresh⟩ := rfl
@[simp] theorem State.cleared_node : (s.cleared).node = ⟨[], s.fresh⟩ := rfl
@[simp] theorem State.cleared_cb : (s.cleared).cb = ⟨[], s.fresh⟩ := rfl
@[simp] theorem State.cleared_raw : (s.cleared).raw = s.raw := rfl
@[simp] theorem State.cleared_tag : (s.cleared).tag = s.tag := rfl
@[simp] theorem State.cleared_ctr : (s.cleared).ctr = s.ctr := rfl
@[simp] theorem State.cleared_pay : (s.cleared).pay = ⟨[], s.fresh⟩ := rfl
@[simp] theorem State.cleared_params : (s.cleared).params = s.params := rfl
@[simp] theorem State.cleared_fresh : (s.cleared).fresh = s.fresh + 1 := rfl
@[simp] theorem State.cleared_host : (s.cleared).host = s.host := rfl

/-! `State.afterTaking` -/

@[simp] theorem State.afterTaking_status (rest : List HostAction) : (s.afterTaking rest).status = s.status := rfl
@[simp] theorem State.afterTaking_errCode (rest : List HostAction) : (s.afterTaking rest).errCode = s.errCode := rfl
@[simp] theorem State.afterTaking_errInfo (rest : List HostAction) : (s.afterTaking rest).errInfo = s.errInfo := rfl
@[simp] theorem State.afterTaking_phase (rest : List HostAction) : (s.afterTaking rest).phase = s.phase := rfl
@[simp] theorem State.afterTaking_rawLen (rest : List HostAction) : (s.afterTaking rest).rawLen = s.rawLen := rfl
@[simp] theorem State.afterTaking_tagLen (rest : List HostAction) : (s.afterTaking rest).tagLen = s.tagLen := rfl
@[simp] theorem State.afterTaking_ctrLen (rest : List HostAction) : (s.afterTaking rest).ctrLen = s.ctrLen := rfl
@[simp] theorem State.afterTaking_symCnt (rest : List HostAction) : (s.afterTaking rest).symCnt = s.symCnt := rfl
@[simp] theorem State.afterTaking_padLen (rest : List HostAction) : (s.afterTaking rest).padLen = s.padLen := rfl
@[simp] theorem State.afterTaking_bitLen (rest : List HostAction) : (s.afterTaking rest).bitLen = s.bitLen := rfl
@[simp] theorem State.afterTaking_payLen (rest : List HostAction) : (s.afterTaking rest).payLen = s.payLen := rfl
@[simp] theorem State.afterTaking_root (rest : List HostAction) : (s.afterTaking rest).root = s.root := rfl
@[simp] theorem State.afterTaking_nodeCnt (rest : List HostAction) : (s.afterTaking rest).nodeCnt = s.nodeCnt := rfl
@[simp] theorem State.afterTaking_ft (rest : List HostAction) : (s.afterTaking rest).ft = s.ft := rfl
@[simp] theorem State.afterTaking_node (rest : List HostAction) : (s.afterTaking rest).node = s.node := rfl
@[simp] theorem State.afterTaking_cb (rest : List HostAction) : (s.afterTaking rest).cb = s.cb := rfl
@[simp] theorem State.afterTaking_raw (rest : List HostAction) : (s.afterTaking rest).raw = s.raw := rfl
@[simp] theorem State.afterTaking_tag (rest : List HostAction) : (s.afterTaking rest).tag = s.tag := rfl
@[simp] theorem State.afterTaking_ctr (rest : List HostAction) : (s.afterTaking rest).ctr = s.ctr := rfl
@[simp] theorem State.afterTaking_pay (rest : List HostAction) : (s.afterTaking rest).pay = s.pay := rfl
@[simp] theorem State.afterTaking_params (rest : List HostAction) : (s.afterTaking rest).params = s.params := rfl
@[simp] theorem State.afterTaking_fresh (rest : List HostAction) : (s.afterTaking rest).fresh = s.fresh := rfl
@[simp] theorem State.afterTaking_host (rest : List HostAction) : (s.afterTaking rest).host = { s.host with script := rest } := rfl

/-! `State.hostSees` -/

@[simp] theorem State.hostSees_status (d : HostDatum) : (s.hostSees d).status = s.status := rfl
@[simp] theorem State.hostSees_errCode (d : HostDatum) : (s.hostSees d).errCode = s.errCode := rfl
@[simp] theorem State.hostSees_errInfo (d : HostDatum) : (s.hostSees d).errInfo = s.errInfo := rfl
@[simp] theorem State.hostSees_phase (d : HostDatum) : (s.hostSees d).phase = s.phase := rfl
@[simp] theorem State.hostSees_rawLen (d : HostDatum) : (s.hostSees d).rawLen = s.rawLen := rfl
@[simp] theorem State.hostSees_tagLen (d : HostDatum) : (s.hostSees d).tagLen = s.tagLen := rfl
@[simp] theorem State.hostSees_ctrLen (d : HostDatum) : (s.hostSees d).ctrLen = s.ctrLen := rfl
@[simp] theorem State.hostSees_symCnt (d : HostDatum) : (s.hostSees d).symCnt = s.symCnt := rfl
@[simp] theorem State.hostSees_padLen (d : HostDatum) : (s.hostSees d).padLen = s.padLen := rfl
@[simp] theorem State.hostSees_bitLen (d : HostDatum) : (s.hostSees d).bitLen = s.bitLen := rfl
@[simp] theorem State.hostSees_payLen (d : HostDatum) : (s.hostSees d).payLen = s.payLen := rfl
@[simp] theorem State.hostSees_root (d : HostDatum) : (s.hostSees d).root = s.root := rfl
@[simp] theorem State.hostSees_nodeCnt (d : HostDatum) : (s.hostSees d).nodeCnt = s.nodeCnt := rfl
@[simp] theorem State.hostSees_ft (d : HostDatum) : (s.hostSees d).ft = s.ft := rfl
@[simp] theorem State.hostSees_node (d : HostDatum) : (s.hostSees d).node = s.node := rfl
@[simp] theorem State.hostSees_cb (d : HostDatum) : (s.hostSees d).cb = s.cb := rfl
@[simp] theorem State.hostSees_raw (d : HostDatum) : (s.hostSees d).raw = s.raw := rfl
@[simp] theorem State.hostSees_tag (d : HostDatum) : (s.hostSees d).tag = s.tag := rfl
@[simp] theorem State.hostSees_ctr (d : HostDatum) : (s.hostSees d).ctr = s.ctr := rfl
@[simp] theorem State.hostSees_pay (d : HostDatum) : (s.hostSees d).pay = s.pay := rfl
@[simp] theorem State.hostSees_params (d : HostDatum) : (s.hostSees d).params = s.params := rfl
@[simp] theorem State.hostSees_fresh (d : HostDatum) : (s.hostSees d).fresh = s.fresh := rfl
@[simp] theorem State.hostSees_host (d : HostDatum) : (s.hostSees d).host = { s.host with seen := some d, reads := s.host.reads + 1 } := rfl

/-! `State.resetAgain` -/

@[simp] theorem State.resetAgain_status : (s.resetAgain).status = Status.reset := rfl
@[simp] theorem State.resetAgain_errCode : (s.resetAgain).errCode = 0 := rfl
@[simp] theorem State.resetAgain_errInfo : (s.resetAgain).errInfo = 0 := rfl
@[simp] theorem State.resetAgain_phase : (s.resetAgain).phase = 0 := rfl
@[simp] theorem State.resetAgain_rawLen : (s.resetAgain).rawLen = 0 := rfl
@[simp] theorem State.resetAgain_tagLen : (s.resetAgain).tagLen = 0 := rfl
@[simp] theorem State.resetAgain_ctrLen : (s.resetAgain).ctrLen = 0 := rfl
@[simp] theorem State.resetAgain_symCnt : (s.resetAgain).symCnt = 0 := rfl
@[simp] theorem State.resetAgain_padLen : (s.resetAgain).padLen = 0 := rfl
@[simp] theorem State.resetAgain_bitLen : (s.resetAgain).bitLen = 0 := rfl
@[simp] theorem State.resetAgain_payLen : (s.resetAgain).payLen = 0 := rfl
@[simp] theorem State.resetAgain_root : (s.resetAgain).root = 0 := rfl
@[simp] theorem State.resetAgain_nodeCnt : (s.resetAgain).nodeCnt = 0 := rfl
@[simp] theorem State.resetAgain_ft : (s.resetAgain).ft = ⟨[], s.fresh⟩ := rfl
@[simp] theorem State.resetAgain_node : (s.resetAgain).node = ⟨[], s.fresh⟩ := rfl
@[simp] theorem State.resetAgain_cb : (s.resetAgain).cb = ⟨[], s.fresh⟩ := rfl
@[simp] theorem State.resetAgain_raw : (s.resetAgain).raw = ⟨[], s.fresh⟩ := rfl
@[simp] theorem State.resetAgain_tag : (s.resetAgain).tag = ⟨[], s.fresh⟩ := rfl
@[simp] theorem State.resetAgain_ctr : (s.resetAgain).ctr = ⟨[], s.fresh⟩ := rfl
@[simp] theorem State.resetAgain_pay : (s.resetAgain).pay = ⟨[], s.fresh⟩ := rfl
@[simp] theorem State.resetAgain_params : (s.resetAgain).params = s.params := rfl
@[simp] theorem State.resetAgain_fresh : (s.resetAgain).fresh = s.fresh + 1 := rfl
@[simp] theorem State.resetAgain_host : (s.resetAgain).host = s.host := rfl

/-! `State.setFlag`: only STATUS changes, and of it only the flag -/

@[simp] theorem State.setFlag_errCode (f : Flag) (b : Bool) : (s.setFlag f b).errCode = s.errCode := by cases f <;> rfl
@[simp] theorem State.setFlag_errInfo (f : Flag) (b : Bool) : (s.setFlag f b).errInfo = s.errInfo := by cases f <;> rfl
@[simp] theorem State.setFlag_phase (f : Flag) (b : Bool) : (s.setFlag f b).phase = s.phase := by cases f <;> rfl
@[simp] theorem State.setFlag_rawLen (f : Flag) (b : Bool) : (s.setFlag f b).rawLen = s.rawLen := by cases f <;> rfl
@[simp] theorem State.setFlag_tagLen (f : Flag) (b : Bool) : (s.setFlag f b).tagLen = s.tagLen := by cases f <;> rfl
@[simp] theorem State.setFlag_ctrLen (f : Flag) (b : Bool) : (s.setFlag f b).ctrLen = s.ctrLen := by cases f <;> rfl
@[simp] theorem State.setFlag_symCnt (f : Flag) (b : Bool) : (s.setFlag f b).symCnt = s.symCnt := by cases f <;> rfl
@[simp] theorem State.setFlag_padLen (f : Flag) (b : Bool) : (s.setFlag f b).padLen = s.padLen := by cases f <;> rfl
@[simp] theorem State.setFlag_bitLen (f : Flag) (b : Bool) : (s.setFlag f b).bitLen = s.bitLen := by cases f <;> rfl
@[simp] theorem State.setFlag_payLen (f : Flag) (b : Bool) : (s.setFlag f b).payLen = s.payLen := by cases f <;> rfl
@[simp] theorem State.setFlag_root (f : Flag) (b : Bool) : (s.setFlag f b).root = s.root := by cases f <;> rfl
@[simp] theorem State.setFlag_nodeCnt (f : Flag) (b : Bool) : (s.setFlag f b).nodeCnt = s.nodeCnt := by cases f <;> rfl
@[simp] theorem State.setFlag_ft (f : Flag) (b : Bool) : (s.setFlag f b).ft = s.ft := by cases f <;> rfl
@[simp] theorem State.setFlag_node (f : Flag) (b : Bool) : (s.setFlag f b).node = s.node := by cases f <;> rfl
@[simp] theorem State.setFlag_cb (f : Flag) (b : Bool) : (s.setFlag f b).cb = s.cb := by cases f <;> rfl
@[simp] theorem State.setFlag_raw (f : Flag) (b : Bool) : (s.setFlag f b).raw = s.raw := by cases f <;> rfl
@[simp] theorem State.setFlag_tag (f : Flag) (b : Bool) : (s.setFlag f b).tag = s.tag := by cases f <;> rfl
@[simp] theorem State.setFlag_ctr (f : Flag) (b : Bool) : (s.setFlag f b).ctr = s.ctr := by cases f <;> rfl
@[simp] theorem State.setFlag_pay (f : Flag) (b : Bool) : (s.setFlag f b).pay = s.pay := by cases f <;> rfl
@[simp] theorem State.setFlag_params (f : Flag) (b : Bool) : (s.setFlag f b).params = s.params := by cases f <;> rfl
@[simp] theorem State.setFlag_fresh (f : Flag) (b : Bool) : (s.setFlag f b).fresh = s.fresh := by cases f <;> rfl
@[simp] theorem State.setFlag_host (f : Flag) (b : Bool) : (s.setFlag f b).host = s.host := by cases f <;> rfl
@[simp] theorem State.setFlag_ft_status (b : Bool) : (s.setFlag .ft b).status = { s.status with ftV := b } := rfl
@[simp] theorem State.setFlag_tree_status (b : Bool) : (s.setFlag .tree b).status = { s.status with treeV := b } := rfl
@[simp] theorem State.setFlag_cb_status (b : Bool) : (s.setFlag .cb b).status = { s.status with cbV := b } := rfl
@[simp] theorem State.setFlag_pay_status (b : Bool) : (s.setFlag .pay b).status = { s.status with payV := b } := rfl
@[simp] theorem State.setFlag_busy (f : Flag) (b : Bool) : (s.setFlag f b).status.busy = s.status.busy := by cases f <;> rfl
@[simp] theorem State.setFlag_done (f : Flag) (b : Bool) : (s.setFlag f b).status.done = s.status.done := by cases f <;> rfl
@[simp] theorem State.setFlag_err (f : Flag) (b : Bool) : (s.setFlag f b).status.err = s.status.err := by cases f <;> rfl
@[simp] theorem State.flag_setFlag_same (f : Flag) (b : Bool) : (s.setFlag f b).flag f = b := by cases f <;> rfl
theorem State.flag_setFlag_other (b : Bool) {f g : Flag} (h : g ≠ f) : (s.setFlag f b).flag g = s.flag g := by
  cases f <;> cases g <;> first | rfl | exact absurd rfl h

/-! `State.setMem`: only the memory of the space changes -/

@[simp] theorem State.setMem_status (sp : Space) (m : Memory) : (s.setMem sp m).status = s.status := by cases sp <;> rfl
@[simp] theorem State.setMem_errCode (sp : Space) (m : Memory) : (s.setMem sp m).errCode = s.errCode := by cases sp <;> rfl
@[simp] theorem State.setMem_errInfo (sp : Space) (m : Memory) : (s.setMem sp m).errInfo = s.errInfo := by cases sp <;> rfl
@[simp] theorem State.setMem_phase (sp : Space) (m : Memory) : (s.setMem sp m).phase = s.phase := by cases sp <;> rfl
@[simp] theorem State.setMem_rawLen (sp : Space) (m : Memory) : (s.setMem sp m).rawLen = s.rawLen := by cases sp <;> rfl
@[simp] theorem State.setMem_tagLen (sp : Space) (m : Memory) : (s.setMem sp m).tagLen = s.tagLen := by cases sp <;> rfl
@[simp] theorem State.setMem_ctrLen (sp : Space) (m : Memory) : (s.setMem sp m).ctrLen = s.ctrLen := by cases sp <;> rfl
@[simp] theorem State.setMem_symCnt (sp : Space) (m : Memory) : (s.setMem sp m).symCnt = s.symCnt := by cases sp <;> rfl
@[simp] theorem State.setMem_padLen (sp : Space) (m : Memory) : (s.setMem sp m).padLen = s.padLen := by cases sp <;> rfl
@[simp] theorem State.setMem_bitLen (sp : Space) (m : Memory) : (s.setMem sp m).bitLen = s.bitLen := by cases sp <;> rfl
@[simp] theorem State.setMem_payLen (sp : Space) (m : Memory) : (s.setMem sp m).payLen = s.payLen := by cases sp <;> rfl
@[simp] theorem State.setMem_root (sp : Space) (m : Memory) : (s.setMem sp m).root = s.root := by cases sp <;> rfl
@[simp] theorem State.setMem_nodeCnt (sp : Space) (m : Memory) : (s.setMem sp m).nodeCnt = s.nodeCnt := by cases sp <;> rfl
@[simp] theorem State.setMem_ft (sp : Space) (m : Memory) : (s.setMem sp m).ft = s.ft := by cases sp <;> rfl
@[simp] theorem State.setMem_node (sp : Space) (m : Memory) : (s.setMem sp m).node = s.node := by cases sp <;> rfl
@[simp] theorem State.setMem_cb (sp : Space) (m : Memory) : (s.setMem sp m).cb = s.cb := by cases sp <;> rfl
@[simp] theorem State.setMem_params (sp : Space) (m : Memory) : (s.setMem sp m).params = s.params := by cases sp <;> rfl
@[simp] theorem State.setMem_fresh (sp : Space) (m : Memory) : (s.setMem sp m).fresh = s.fresh := by cases sp <;> rfl
@[simp] theorem State.setMem_host (sp : Space) (m : Memory) : (s.setMem sp m).host = s.host := by cases sp <;> rfl
@[simp] theorem State.mem_setMem_same (sp : Space) (m : Memory) : (s.setMem sp m).mem sp = m := by cases sp <;> rfl
theorem State.mem_setMem_other (m : Memory) {sp sq : Space} (h : sq ≠ sp) : (s.setMem sp m).mem sq = s.mem sq := by
  cases sp <;> cases sq <;> first | rfl | exact absurd rfl h

/-! The memory of a space by name -/

@[simp] theorem State.mem_raw : s.mem .raw = s.raw := rfl
@[simp] theorem State.mem_tag : s.mem .tag = s.tag := rfl
@[simp] theorem State.mem_ctr : s.mem .ctr = s.ctr := rfl
@[simp] theorem State.mem_pay : s.mem .pay = s.pay := rfl

end Sys2Proof.Machine
end

