-- ==== Sys2Proof/Laws/Memory.lean ====
section
/-! SUPPORT. The laws of byte memories: a read after a write, and that every operation keeps the canonical form. -/

namespace Sys2Proof.Machine

theorem lookupCell_insertCell_same (cs : List Host.Cell) (a : Nat) (b : Byte) :
    lookupCell (insertCell cs a b) a = some b := by
  induction cs with
  | nil => simp [insertCell, lookupCell]
  | cons c cs ih =>
    unfold insertCell
    split
    · simp [lookupCell]
    · split
      · simp [lookupCell]
      · rename_i _ hne
        simp [lookupCell, Ne.symm hne, ih]

theorem lookupCell_insertCell_other (cs : List Host.Cell) (b : Byte) {a i : Nat} (h : i ≠ a) :
    lookupCell (insertCell cs a b) i = lookupCell cs i := by
  induction cs with
  | nil => simp [insertCell, lookupCell, Ne.symm h]
  | cons c cs ih =>
    unfold insertCell
    split
    · simp [lookupCell, Ne.symm h]
    · split
      · rename_i _ heq
        have hc : c.1 ≠ i := by omega
        simp [lookupCell, Ne.symm h, hc]
      · simp [lookupCell, ih]

@[simp] theorem Memory.get?_set_same (m : Memory) (a : Nat) (b : Byte) : (m.set a b).get? a = some b :=
  lookupCell_insertCell_same m.cells a b

theorem Memory.get?_set_other (m : Memory) (b : Byte) {a i : Nat} (h : i ≠ a) : (m.set a b).get? i = m.get? i :=
  lookupCell_insertCell_other m.cells b h

@[simp] theorem Memory.set_stamp (m : Memory) (a : Nat) (b : Byte) : (m.set a b).stamp = m.stamp := rfl

@[simp] theorem Memory.write_stamp (m : Memory) (a : Nat) (bs : List Byte) : (m.write a bs).stamp = m.stamp := by
  induction bs generalizing m a with
  | nil => rfl
  | cons b bs ih => simp [Memory.write, ih]

/-- A read after a write of consecutive bytes: inside, the byte written; outside, what was there. -/
theorem Memory.get?_write (m : Memory) (a : Nat) (bs : List Byte) (i : Nat) :
    (m.write a bs).get? i = if a ≤ i ∧ i < a + bs.length then bs[i - a]? else m.get? i := by
  induction bs generalizing m a with
  | nil => simp [Memory.write]
  | cons b bs ih =>
    rw [Memory.write, ih]
    rcases Nat.lt_trichotomy i a with h | rfl | h
    · rw [if_neg (by omega), if_neg (by simp; omega), Memory.get?_set_other m b (by omega)]
    · simp
    · by_cases h2 : i < a + (bs.length + 1)
      · rw [if_pos (by omega), if_pos (by simp; omega)]
        obtain ⟨k, rfl⟩ : ∃ k, i = a + 1 + k := ⟨i - (a + 1), by omega⟩
        simp [show a + 1 + k - a = k + 1 by omega]
      · rw [if_neg (by omega), if_neg (by simp; omega), Memory.get?_set_other m b (by omega)]

theorem mem_insertCell {cs : List Host.Cell} {a : Nat} {b : Byte} {c : Host.Cell} (h : c ∈ insertCell cs a b) :
    c = (a, b) ∨ c ∈ cs := by
  induction cs with
  | nil => simpa [insertCell] using h
  | cons d cs ih =>
    unfold insertCell at h
    split at h
    · simpa using h
    · split at h
      · rcases List.mem_cons.mp h with h | h
        · exact .inl h
        · exact .inr (List.mem_cons_of_mem _ h)
      · rcases List.mem_cons.mp h with h | h
        · exact .inr (h ▸ List.mem_cons_self)
        · exact (ih h).imp_right (List.mem_cons_of_mem _)

theorem insertCell_rising {cs : List Host.Cell} (a : Nat) (b : Byte)
    (h : (cs.map Prod.fst).Pairwise (· < ·)) : ((insertCell cs a b).map Prod.fst).Pairwise (· < ·) := by
  induction cs with
  | nil => simp [insertCell]
  | cons c cs ih =>
    have hc := List.pairwise_cons.mp (by simpa using h :
      (c.1 :: cs.map Prod.fst).Pairwise (· < ·))
    unfold insertCell
    split
    · rename_i hlt
      simp only [List.map_cons, List.pairwise_cons]
      refine ⟨?_, hc⟩
      intro k hk
      rcases List.mem_cons.mp hk with rfl | hk
      · exact hlt
      · exact Nat.lt_trans hlt (hc.1 k hk)
    · split
      · rename_i _ heq
        simp only [List.map_cons, List.pairwise_cons]
        exact ⟨heq ▸ hc.1, hc.2⟩
      · rename_i hnlt hne
        simp only [List.map_cons, List.pairwise_cons]
        refine ⟨?_, ih hc.2⟩
        intro k hk
        obtain ⟨d, hd, rfl⟩ := List.mem_map.mp hk
        rcases mem_insertCell hd with rfl | hd
        · show c.1 < a
          omega
        · exact hc.1 d.1 (List.mem_map.mpr ⟨d, hd, rfl⟩)

theorem Memory.unknown_wf (stamp : Nat) : (Memory.unknown stamp).wf := List.Pairwise.nil

theorem Memory.set_wf {m : Memory} (a : Nat) (b : Byte) (h : m.wf) : (m.set a b).wf := insertCell_rising a b h

theorem Memory.write_wf {m : Memory} (a : Nat) (bs : List Byte) (h : m.wf) : (m.write a bs).wf := by
  induction bs generalizing m a with
  | nil => exact h
  | cons b bs ih => exact ih (a + 1) (Memory.set_wf a b h)

/-- A write below a bound lists no cell at or above it. -/
theorem Memory.set_below {m : Memory} {a cap : Nat} (b : Byte) (ha : a < cap) (h : ∀ c ∈ m.cells, c.1 < cap) :
    ∀ c ∈ (m.set a b).cells, c.1 < cap := by
  intro c hc
  rcases mem_insertCell hc with rfl | hc
  · exact ha
  · exact h c hc

/-- Consecutive writes below a bound list no cell at or above it. -/
theorem Memory.write_below {m : Memory} {a cap : Nat} (bs : List Byte) (ha : a + bs.length ≤ cap)
    (h : ∀ c ∈ m.cells, c.1 < cap) : ∀ c ∈ (m.write a bs).cells, c.1 < cap := by
  induction bs generalizing m a with
  | nil => exact h
  | cons b bs ih =>
    have ha' : a + 1 + bs.length ≤ cap := by simp at ha; omega
    exact ih ha' (Memory.set_below b (by simp at ha; omega) h)

theorem State.reset_memories_wf :
    State.reset.raw.wf ∧ State.reset.tag.wf ∧ State.reset.ctr.wf ∧ State.reset.pay.wf :=
  ⟨.nil, .nil, .nil, .nil⟩

/-! Bytes of a state -/

/-- A byte depends on its memory alone. -/
theorem State.byteAt_congr {s t : State} {sp : Space} (h : t.mem sp = s.mem sp) (i : Nat) :
    t.byteAt sp i = s.byteAt sp i := by simp [State.byteAt, h]

theorem State.readBytes_congr {s t : State} {sp : Space} (h : t.mem sp = s.mem sp) (n : Nat) :
    t.readBytes sp n = s.readBytes sp n := by
  have : t.byteAt sp = s.byteAt sp := funext (State.byteAt_congr h)
  simp [State.readBytes, this]

@[simp] theorem State.length_readBytes (s : State) (sp : Space) (n : Nat) : (s.readBytes sp n).length = n := by
  simp [State.readBytes]

theorem State.getElem?_readBytes (s : State) (sp : Space) {n i : Nat} (h : i < n) :
    (s.readBytes sp n)[i]? = some (s.byteAt sp i) := by
  simp [State.readBytes, h]

/-- The byte at a written index is the byte written. -/
theorem State.byteAt_of_get? {s : State} {sp : Space} {i : Nat} {b : Byte} (h : (s.mem sp).get? i = some b) :
    s.byteAt sp i = b := by simp [State.byteAt, h]

/-- Two memories with the same event and the same listed byte at an index have the same byte there. -/
theorem State.byteAt_eq_of {s t : State} {sp : Space} {i : Nat} (hs : (t.mem sp).stamp = (s.mem sp).stamp)
    (hg : (t.mem sp).get? i = (s.mem sp).get? i) : t.byteAt sp i = s.byteAt sp i := by
  simp [State.byteAt, hs, hg]

/-- A memory replaced by a write from index 0 reads the bytes written, then what was there. -/
theorem State.readBytes_of_write {s t : State} {sp : Space} {bs : List Byte}
    (h : t.mem sp = (s.mem sp).write 0 bs) : t.readBytes sp bs.length = bs := by
  apply List.ext_getElem (by simp)
  intro i h1 h2
  have hb : t.byteAt sp i = bs[i] := by
    apply State.byteAt_of_get?
    rw [h, Memory.get?_write, if_pos (by omega)]
    simp [h2]
  simp [State.readBytes, hb]

theorem State.byteAt_beyond_write {s t : State} {sp : Space} {bs : List Byte} {i : Nat}
    (h : t.mem sp = (s.mem sp).write 0 bs) (hi : bs.length ≤ i) : t.byteAt sp i = s.byteAt sp i := by
  apply State.byteAt_eq_of
  · simp [h]
  · rw [h, Memory.get?_write, if_neg (by omega)]

end Sys2Proof.Machine
end

