-- ==== Sys2Proof/Laws/Ops.lean ====
section
/-! SUPPORT. What each shared operation can do: modes, the end of a body, the issue of a command, register reads, the
codebook look-ups, the container cursor. -/

namespace Sys2Proof.Machine

/-! The mode (10_state R27) -/

theorem State.mode_idle_iff (s : State) : s.mode = .idle ↔ s.status.busy = false ∧ s.status.err = false := by
  unfold State.mode
  cases s.status.busy <;> cases s.status.err <;> simp

theorem State.mode_busy_iff (s : State) : s.mode = .busy ↔ s.status.busy = true := by
  unfold State.mode
  cases s.status.busy <;> cases s.status.err <;> simp

theorem State.mode_fault_iff (s : State) : s.mode = .fault ↔ s.status.busy = false ∧ s.status.err = true := by
  unfold State.mode
  cases s.status.busy <;> cases s.status.err <;> simp

/-! The end of a body -/

@[simp] theorem Ran.andThen_ended (s : State) (f : State → Ran) : (Ran.ended s).andThen f = f s := rfl
@[simp] theorem Ran.andThen_raised (s : State) (f : State → Ran) : (Ran.raised s).andThen f = .raised s := rfl
@[simp] theorem Ran.andThen_stopped (e : Fault) (f : State → Ran) : (Ran.stopped e).andThen f = .stopped e := rfl
@[simp] theorem Ran.finish_ended (s : State) : (Ran.ended s).finish = .next s.endCommand := rfl
@[simp] theorem Ran.finish_raised (s : State) : (Ran.raised s).finish = .next s := rfl
@[simp] theorem Ran.finish_stopped (e : Fault) : (Ran.stopped e).finish = .fault e := rfl

/-- A composition ends only when both bodies end. -/
theorem Ran.andThen_eq_ended {r : Ran} {f : State → Ran} {t : State} (h : r.andThen f = .ended t) :
    ∃ u, r = .ended u ∧ f u = .ended t := by
  cases r with
  | ended u => exact ⟨u, rfl, h⟩
  | raised u => cases h
  | stopped e => cases h

/-- A composition raises when the first body raises, or the second does after the first ended. -/
theorem Ran.andThen_eq_raised {r : Ran} {f : State → Ran} {t : State} (h : r.andThen f = .raised t) :
    r = .raised t ∨ ∃ u, r = .ended u ∧ f u = .raised t := by
  cases r with
  | ended u => exact .inr ⟨u, rfl, h⟩
  | raised u => exact .inl h
  | stopped e => cases h

/-- What a body can have done when its command answers a next state. -/
theorem Ran.finish_next {r : Ran} {t : State} (h : r.finish = .next t) :
    (∃ u, r = .ended u ∧ t = u.endCommand) ∨ r = .raised t := by
  cases r with
  | ended u => cases h; exact .inl ⟨u, rfl, rfl⟩
  | raised u => cases h; exact .inr rfl
  | stopped e => cases h

/-! The issue of a command (46_top_level R260) -/

theorem issue_idle {s : State} (body : State → Ran) (h : s.mode = .idle) :
    issue body s = (body s.beginCommand).finish := by simp [issue, h]

theorem issue_dropped {s : State} (body : State → Ran) (h : s.mode ≠ .idle) : issue body s = .next s := by
  unfold issue
  split
  · rfl
  · rfl
  · exact absurd ‹_› h

/-- Everything the issue of a command can do when it answers a next state: the word is dropped, or the body ends and the
command with it, or the body raises. -/
theorem issue_next {body : State → Ran} {s t : State} (h : issue body s = .next t) :
    (s.mode ≠ .idle ∧ t = s)
      ∨ (s.mode = .idle ∧ ∃ u, body s.beginCommand = .ended u ∧ t = u.endCommand)
      ∨ (s.mode = .idle ∧ body s.beginCommand = .raised t) := by
  by_cases hm : s.mode = .idle
  · rw [issue_idle body hm] at h
    rcases Ran.finish_next h with ⟨u, hu, ht⟩ | hr
    · exact .inr (.inl ⟨hm, u, hu, ht⟩)
    · exact .inr (.inr ⟨hm, hr⟩)
  · rw [issue_dropped body hm] at h
    cases h
    exact .inl ⟨hm, rfl⟩

/-- A command issued through `issue` never answers a refusal. -/
theorem issue_not_refused (body : State → Ran) (s : State) (r : Refusal) : issue body s ≠ .refused r := by
  by_cases hm : s.mode = .idle
  · rw [issue_idle body hm]
    cases body s.beginCommand <;> simp [Ran.finish]
  · rw [issue_dropped body hm]
    simp

theorem issueClear_next {s t : State} (h : issueClear s = .next t) :
    (s.mode = .busy ∧ t = s) ∨ (s.mode ≠ .busy ∧ t = s.cleared) := by
  unfold issueClear at h
  split at h <;> rename_i hm <;> cases h <;> simp [hm]

theorem issueIllegal_next {w : Word} {s t : State} (h : issueIllegal w s = .next t) :
    (s.mode ≠ .idle ∧ t = s) ∨ (s.mode = .idle ∧ t = s.beginCommand.raise .illegalCommand w) := by
  unfold issueIllegal at h
  split at h <;> rename_i hm <;> cases h <;> simp [hm]

/-! STATUS as a word (10_state R23) -/

@[simp] theorem Status.word_reset : Status.reset.word = 0 := by decide
theorem Status.word_done : Status.word ⟨false, true, false, false, false, false, false⟩ = 0x00000002 := by decide
theorem Status.word_err : Status.word ⟨false, false, true, false, false, false, false⟩ = 0x00000004 := by decide

/-- The word determines the fields. -/
theorem Status.word_injective {a b : Status} (h : a.word = b.word) : a = b := by
  obtain ⟨a1, a2, a3, a4, a5, a6, a7⟩ := a
  obtain ⟨b1, b2, b3, b4, b5, b6, b7⟩ := b
  revert a1 a2 a3 a4 a5 a6 a7 b1 b2 b3 b4 b5 b6 b7
  decide +kernel

/-! Registers by number (10_state R21) -/

@[simp] theorem State.regRead_0 (s : State) : s.regRead 0 = 0 := rfl
@[simp] theorem State.regRead_1 (s : State) : s.regRead 1 = s.status.word := rfl
@[simp] theorem State.regRead_2 (s : State) : s.regRead 2 = s.errCode.setWidth 32 := rfl
@[simp] theorem State.regRead_3 (s : State) : s.regRead 3 = s.errInfo := rfl
@[simp] theorem State.regRead_4 (s : State) : s.regRead 4 = s.phase.setWidth 32 := rfl
@[simp] theorem State.regRead_5 (s : State) : s.regRead 5 = s.rawLen := rfl
@[simp] theorem State.regRead_6 (s : State) : s.regRead 6 = s.tagLen.setWidth 32 := rfl
@[simp] theorem State.regRead_7 (s : State) : s.regRead 7 = s.ctrLen := rfl
@[simp] theorem State.regRead_8 (s : State) : s.regRead 8 = s.symCnt := rfl
@[simp] theorem State.regRead_9 (s : State) : s.regRead 9 = s.padLen.setWidth 32 := rfl
@[simp] theorem State.regRead_10 (s : State) : s.regRead 10 = s.bitLen := rfl
@[simp] theorem State.regRead_11 (s : State) : s.regRead 11 = s.payLen := rfl
@[simp] theorem State.regRead_12 (s : State) : s.regRead 12 = s.root.setWidth 32 := rfl
@[simp] theorem State.regRead_13 (s : State) : s.regRead 13 = s.nodeCnt.setWidth 32 := rfl

theorem State.regRead_absent (s : State) {n : Nat} (h : 14 ≤ n) : s.regRead n = 0 := by
  obtain ⟨k, rfl⟩ : ∃ k, n = k + 14 := ⟨n - 14, by omega⟩
  rfl

/-- A register is one of the fourteen, or does not exist. -/
theorem reg_cases {P : Nat → Prop} (n : Nat) (h0 : P 0) (h1 : P 1) (h2 : P 2) (h3 : P 3) (h4 : P 4) (h5 : P 5)
    (h6 : P 6) (h7 : P 7) (h8 : P 8) (h9 : P 9) (h10 : P 10) (h11 : P 11) (h12 : P 12) (h13 : P 13)
    (habsent : ∀ k, P (k + 14)) : P n := by
  match n with
  | 0 => exact h0
  | 1 => exact h1
  | 2 => exact h2
  | 3 => exact h3
  | 4 => exact h4
  | 5 => exact h5
  | 6 => exact h6
  | 7 => exact h7
  | 8 => exact h8
  | 9 => exact h9
  | 10 => exact h10
  | 11 => exact h11
  | 12 => exact h12
  | 13 => exact h13
  | k + 14 => exact habsent k

/-! Tables -/

theorem State.ftAt_congr {s t : State} (h : t.ft = s.ft) (v : Nat) : t.ftAt v = s.ftAt v := by simp [State.ftAt, h]
theorem State.nodeAt_congr {s t : State} (h : t.node = s.node) (i : Nat) : t.nodeAt i = s.nodeAt i := by
  simp [State.nodeAt, h]
theorem State.cbAt_congr {s t : State} (h : t.cb = s.cb) (v : Nat) : t.cbAt v = s.cbAt v := by simp [State.cbAt, h]

@[simp] theorem State.length_freqTable (s : State) : s.freqTable.length = nsym := by simp [State.freqTable]
@[simp] theorem State.length_codebook (s : State) : s.codebook.length = nsym := by simp [State.codebook]

/-- A table of 256 listed records reads as its list. -/
theorem State.codebook_of_rows {s : State} (h : s.cb.rows.length = nsym) : s.codebook = s.cb.rows := by
  apply List.ext_getElem (by simp [h])
  intro i h1 h2
  simp [State.codebook, State.cbAt, h2]

theorem State.freqTable_of_rows {s : State} (h : s.ft.rows.length = nsym) : s.freqTable = s.ft.rows := by
  apply List.ext_getElem (by simp [h])
  intro i h1 h2
  simp [State.freqTable, State.ftAt, h2]

theorem State.codebook_getD (s : State) {v : Nat} (h : v < nsym) (d : Code) : s.codebook.getD v d = s.cbAt v := by
  have hv : v < 256 := h
  simp [State.codebook, List.getD, hv]

/-! Numbers (00_scope R11, R14) -/

theorem le_ceil8 (n : Nat) : n ≤ 8 * ceil8 n := by unfold ceil8; omega

@[simp] theorem length_beBytes (v n : Nat) : (beBytes v n).length = n := by
  induction n generalizing v with
  | zero => rfl
  | succ n ih => simp [beBytes, ih]

@[simp] theorem be_nil : be [] = 0 := rfl

theorem be_append_byte (bs : List Byte) (b : Byte) : be (bs ++ [b]) = 256 * be bs + b.toNat := by
  simp [be, List.foldl_append]

@[simp] theorem be_byte (b : Byte) : be [b] = b.toNat := by simp [be]

/-- BEbytes is the inverse of BE on numbers that fit (00_scope R14). -/
theorem be_beBytes (n v : Nat) (h : v < 256 ^ n) : be (beBytes v n) = v := by
  induction n generalizing v with
  | zero => simp at h; simp [beBytes, h]
  | succ n ih =>
    have hv : v / 256 < 256 ^ n := Nat.div_lt_of_lt_mul (by rw [Nat.pow_succ] at h; omega)
    rw [beBytes, be_append_byte, ih _ hv, BitVec.toNat_ofNat]
    omega

/-- A big-endian number of n bytes is below 256^n. -/
theorem be_lt (bs : List Byte) : be bs < 256 ^ bs.length := by
  induction bs using List.reverseRecOn with
  | nil => simp
  | append_singleton bs b ih =>
    rw [be_append_byte, List.length_append, List.length_singleton, Nat.pow_succ]
    have := b.isLt
    omega

@[simp] theorem length_codeBits (c : Code) : (codeBits c).length = c.len.toNat := by simp [codeBits]

/-! The codebook look-up by codeword (42_codebook R181) -/

theorem cbMatch_zero (cb : List Code) (v : Nat) : cbMatch cb 0 v = none := by simp [cbMatch]
theorem cbMatch_256 (cb : List Code) (v : Nat) : cbMatch cb 256 v = none := by simp [cbMatch]

/-- What a match says: the record at the symbol is valid with that length and value, and no smaller symbol's is. -/
theorem cbMatch_some {cb : List Code} {l v x : Nat} (h : cbMatch cb l v = some x) :
    l ≠ 0 ∧ l ≠ 256 ∧ (∃ c, cb[x]? = some c ∧ c.valid = true ∧ c.len.toNat = l ∧ c.val.toNat = v)
      ∧ ∀ y < x, ∀ c, cb[y]? = some c → ¬ (c.valid = true ∧ c.len.toNat = l ∧ c.val.toNat = v) := by
  unfold cbMatch at h
  split at h
  · cases h
  · rename_i hl
    obtain ⟨hlt, hx, hmin⟩ := List.findIdx?_eq_some_iff_getElem.mp h
    simp only [not_or] at hl
    refine ⟨hl.1, hl.2, ⟨cb[x], by simp [hlt], ?_⟩, ?_⟩
    · simpa [and_assoc] using hx
    · intro y hy c hc hcon
      have hylt : y < cb.length := Nat.lt_trans hy hlt
      have hcy : cb[y] = c := by simpa [hylt] using hc
      have := hmin y hy
      simp [hcy, hcon] at this

/-- What no match says, at a length a codeword can have. -/
theorem cbMatch_none {cb : List Code} {l v : Nat} (h : cbMatch cb l v = none) (h0 : l ≠ 0) (h1 : l ≠ 256) :
    ∀ c ∈ cb, ¬ (c.valid = true ∧ c.len.toNat = l ∧ c.val.toNat = v) := by
  unfold cbMatch at h
  rw [if_neg (by simp [h0, h1]), List.findIdx?_eq_none_iff] at h
  intro c hc hcon
  have := h c hc
  simp [hcon] at this

/-! The container cursor (44_container R222) -/

theorem Cursor.field_some {c c' : Cursor} {k : Nat} {bs : List Byte} (h : c.field k = some (bs, c')) :
    k ≤ c.rest.length ∧ bs = c.rest.take k ∧ c'.rp = c.rp + k ∧ c'.rest = c.rest.drop k := by
  unfold Cursor.field at h
  split at h
  · cases h; exact ⟨‹_›, rfl, rfl, rfl⟩
  · cases h

theorem Cursor.field_none {c : Cursor} {k : Nat} (h : c.field k = none) : c.rest.length < k := by
  unfold Cursor.field at h
  split at h
  · cases h
  · omega

/-- A field of the length of a known beginning reads that beginning. -/
theorem Cursor.field_append (rp : Nat) (bs rest : List Byte) :
    (Cursor.mk rp (bs ++ rest)).field bs.length = some (bs, ⟨rp + bs.length, rest⟩) := by
  simp [Cursor.field]

end Sys2Proof.Machine
end

