-- ==== Sys2Proof/Laws/Bodies.lean ====
section
/-! SUPPORT. Everything the body of each stage can do, said once: the raise it reaches, or the state it ends in. -/

namespace Sys2Proof.Machine

variable (s : State)

/-- FREQ_body (40_frequency R140). -/
theorem freqBody_cases :
    (s.params.rawCap.cells < s.rawLen.toNat
        ∧ freqBody s = .raised (((s.setPhase .fa).setFlag .ft false).raise .capacity s.rawLen))
      ∨ (s.rawLen.toNat ≤ s.params.rawCap.cells ∧ s.rawLen = 0
        ∧ freqBody s = .raised (((s.setPhase .fa).setFlag .ft false).raise .emptyInput 0))
      ∨ (s.rawLen.toNat ≤ s.params.rawCap.cells ∧ s.rawLen ≠ 0
        ∧ freqBody s = .ended { s with
            phase := 1
            status := { s.status with ftV := true }
            ft := ⟨histogram (s.readBytes .raw s.rawLen.toNat), s.ft.stamp⟩ }) := by
  by_cases h1 : s.params.rawCap.cells < s.rawLen.toNat
  · exact .inl ⟨h1, by simp [freqBody, h1]⟩
  · by_cases h2 : s.rawLen = 0
    · exact .inr (.inl ⟨by omega, h2, by simp [freqBody, h2]⟩)
    · refine .inr (.inr ⟨by omega, h2, ?_⟩)
      simp only [freqBody, State.setFlag_params, State.setPhase_params, State.setFlag_rawLen, State.setPhase_rawLen, h1,
        h2, if_false]
      rfl

/-- BUILD_body (41_tree_builder R150). -/
theorem buildBody_cases :
    (s.status.ftV = false
        ∧ buildBody s = .raised (((s.setPhase .tb).setFlag .tree false).raise .sequence 0x02))
      ∨ (s.status.ftV = true ∧ leavesFrom 0 s.freqTable = []
        ∧ buildBody s = .raised (((s.setPhase .tb).setFlag .tree false).raise .emptyInput 0))
      ∨ (s.status.ftV = true ∧ leavesFrom 0 s.freqTable ≠ []
        ∧ ∃ f, treeRows (leavesFrom 0 s.freqTable) = .error f ∧ buildBody s = .stopped f)
      ∨ (s.status.ftV = true ∧ leavesFrom 0 s.freqTable ≠ []
        ∧ ∃ rows, treeRows (leavesFrom 0 s.freqTable) = .ok rows
          ∧ buildBody s = .ended { s with
              phase := 2
              status := { s.status with treeV := true }
              node := ⟨rows, s.fresh⟩
              fresh := s.fresh + 1
              root := BitVec.ofNat 9 (rows.length - 1)
              nodeCnt := BitVec.ofNat 10 rows.length }) := by
  have ht : ((s.setPhase .tb).setFlag .tree false).freqTable = s.freqTable := rfl
  cases hf : s.status.ftV with
  | false => exact .inl ⟨rfl, by simp [buildBody, hf]⟩
  | true =>
    by_cases hl : leavesFrom 0 s.freqTable = []
    · exact .inr (.inl ⟨rfl, hl, by simp [buildBody, hf, ht, hl]⟩)
    · cases hr : treeRows (leavesFrom 0 s.freqTable) with
      | error f => exact .inr (.inr (.inl ⟨rfl, hl, f, rfl, by simp [buildBody, hf, ht, hl, hr]⟩))
      | ok rows =>
        refine .inr (.inr (.inr ⟨rfl, hl, rows, rfl, ?_⟩))
        simp only [buildBody, State.setFlag_tree_status, State.setPhase_status, hf, ht, hl, hr, Bool.true_eq_false,
          if_false]
        rfl

/-- CODEGEN_body (42_codebook R170). -/
theorem codegenBody_cases :
    (s.status.treeV = false
        ∧ codegenBody s = .raised (((s.setPhase .cg).setFlag .cb false).raise .sequence 0x03))
      ∨ (s.status.treeV = true ∧ walkTree ((s.setPhase .cg).setFlag .cb false) = none
        ∧ codegenBody s = .stopped .nodeTableNotATree)
      ∨ (s.status.treeV = true ∧ ∃ w, walkTree ((s.setPhase .cg).setFlag .cb false) = some w
        ∧ codegenBody s = .ended { s with
            phase := 3
            status := { s.status with cbV := true }
            cb := ⟨w.cb, s.cb.stamp⟩
            symCnt := BitVec.ofNat 32 w.cnt }) := by
  cases hf : s.status.treeV with
  | false => exact .inl ⟨rfl, by simp [codegenBody, hf]⟩
  | true =>
    cases hw : walkTree ((s.setPhase .cg).setFlag .cb false) with
    | none => exact .inr (.inl ⟨rfl, rfl, by simp [codegenBody, hf, hw]⟩)
    | some w =>
      refine .inr (.inr ⟨rfl, w, rfl, ?_⟩)
      simp only [codegenBody, State.setFlag_cb_status, State.setPhase_status, hf, hw, Bool.true_eq_false, if_false]
      rfl

/-- The walk reads NODE alone: it is the same from states with the same records. -/
theorem walk_congr {s t : State} (h : ∀ i, t.nodeAt i = s.nodeAt i) (levels i l v : Nat) (w : Walked) :
    walk t levels i l v w = walk s levels i l v w := by
  induction levels generalizing i l v w with
  | zero => rfl
  | succ n ih => simp only [walk, h, ih]

theorem walkTree_congr {s t : State} (h : ∀ i, t.nodeAt i = s.nodeAt i) (hr : t.root = s.root) :
    walkTree t = walkTree s := by
  simp only [walkTree, hr, walk_congr h]

/-- PACK_body (43_bit_packer R190). -/
theorem packBody_cases :
    (s.status.cbV = false
        ∧ packBody s = .raised (((s.setPhase .bp).setFlag .pay false).raise .sequence 0x04))
      ∨ (s.status.cbV = true ∧ s.params.rawCap.cells < s.rawLen.toNat
        ∧ packBody s = .raised (((s.setPhase .bp).setFlag .pay false).raise .capacity s.rawLen))
      ∨ (s.status.cbV = true ∧ s.rawLen.toNat ≤ s.params.rawCap.cells ∧ ∃ e info w,
        packAll s.codebook s.params.payCap.cells (s.readBytes .raw s.rawLen.toNat) s.pay = .raised e info w
          ∧ packBody s = .raised
              ({ (s.setPhase .bp).setFlag .pay false with pay := w.pay }.raise e (BitVec.ofNat 32 info)))
      ∨ (s.status.cbV = true ∧ s.rawLen.toNat ≤ s.params.rawCap.cells ∧ ∃ w,
        packAll s.codebook s.params.payCap.cells (s.readBytes .raw s.rawLen.toNat) s.pay = .on w
          ∧ packBody s = .ended { s with
              phase := 4
              status := { s.status with payV := true }
              pay := w.pay
              padLen := BitVec.ofNat 8 (padOf w.bits)
              bitLen := BitVec.ofNat 32 w.bits
              payLen := BitVec.ofNat 32 w.wp }) := by
  have hcb : ((s.setPhase .bp).setFlag .pay false).codebook = s.codebook := rfl
  have hraw : ((s.setPhase .bp).setFlag .pay false).readBytes .raw = s.readBytes .raw := rfl
  cases hf : s.status.cbV with
  | false => exact .inl ⟨rfl, by simp [packBody, hf]⟩
  | true =>
    by_cases h1 : s.params.rawCap.cells < s.rawLen.toNat
    · exact .inr (.inl ⟨rfl, h1, by simp [packBody, hf, h1]⟩)
    · cases hp : packAll s.codebook s.params.payCap.cells (s.readBytes .raw s.rawLen.toNat) s.pay with
      | raised e info w =>
        exact .inr (.inr (.inl ⟨rfl, by omega, e, info, w, rfl, by simp [packBody, hf, h1, hcb, hraw, hp]⟩))
      | on w =>
        refine .inr (.inr (.inr ⟨rfl, by omega, w, rfl, ?_⟩))
        simp only [packBody, State.setFlag_pay_status, State.setPhase_status, State.setFlag_params,
          State.setPhase_params, State.setFlag_rawLen, State.setPhase_rawLen, State.setFlag_pay, State.setPhase_pay, hf,
          h1, hcb, hraw, hp, Bool.true_eq_false, if_false]
        rfl

/-- SERIALIZE_body (44_container R205). -/
theorem serializeBody_cases :
    ((s.status.cbV = false ∨ s.status.payV = false)
        ∧ serializeBody s = .raised ((s.setPhase .fs).raise .sequence 0x05))
      ∨ (s.status.cbV = true ∧ s.status.payV = true ∧ s.params.ctrCap.cells < frameSize s
        ∧ serializeBody s
          = .raised ((s.setPhase .fs).raise .capacity (BitVec.ofNat 32 (min (frameSize s) (2 ^ 32 - 1)))))
      ∨ (s.status.cbV = true ∧ s.status.payV = true ∧ frameSize s ≤ s.params.ctrCap.cells
        ∧ serializeBody s = .ended { s with
            phase := 5
            ctr := s.ctr.write 0 (frameBytes s)
            ctrLen := BitVec.ofNat 32 (frameSize s) }) := by
  have hs : frameSize (s.setPhase .fs) = frameSize s := rfl
  have hb : frameBytes (s.setPhase .fs) = frameBytes s := rfl
  by_cases hf : s.status.cbV = false ∨ s.status.payV = false
  · exact .inl ⟨hf, by simp [serializeBody, hf]⟩
  · have hc : s.status.cbV = true := by simpa using fun h => hf (.inl h)
    have hp : s.status.payV = true := by simpa using fun h => hf (.inr h)
    by_cases h1 : s.params.ctrCap.cells < frameSize s
    · exact .inr (.inl ⟨hc, hp, h1, by simp [serializeBody, hc, hp, hs, h1]⟩)
    · refine .inr (.inr ⟨hc, hp, by omega, ?_⟩)
      simp only [serializeBody, State.setPhase_status, State.setPhase_params, State.setPhase_ctr, hc, hp, hs, hb, h1,
        Bool.true_eq_false, or_self, if_false]
      rfl

/-- The container's bytes are as many as its length says (30_encoding R119). -/
theorem length_frameBytes : (frameBytes s).length = frameSize s := by
  have he : ∀ es : List (Nat × Code), (es.flatMap entryBytes).length = (es.map entrySize).sum := by
    intro es
    induction es with
    | nil => rfl
    | cons e es ih => simp [ih, entryBytes, entrySize]; omega
  simp [frameBytes, frameSize, he]
  omega

/-- MATCH_body (45_decoder R240). -/
theorem matchBody_cases :
    ((s.status.cbV = false ∨ s.status.payV = false)
        ∧ matchBody s = .raised ((s.setPhase .du).raise .sequence 0x07))
      ∨ (s.status.cbV = true ∧ s.status.payV = true ∧ 8 * s.payLen.toNat < s.bitLen.toNat
        ∧ matchBody s = .raised ({ s.setPhase .du with rawLen := 0 }.raise .truncatedContainer s.payLen))
      ∨ (s.status.cbV = true ∧ s.status.payV = true ∧ s.bitLen.toNat ≤ 8 * s.payLen.toNat ∧ ∃ wp raw,
        matchLoop s.codebook s.params.rawCap.cells (s.payBits s.bitLen.toNat) Acc.empty 0 s.raw = .full wp raw
          ∧ matchBody s = .raised
              ({ s.setPhase .du with rawLen := 0, raw := raw }.raise .capacity (BitVec.ofNat 32 wp)))
      ∨ (s.status.cbV = true ∧ s.status.payV = true ∧ s.bitLen.toNat ≤ 8 * s.payLen.toNat ∧ ∃ a wp raw,
        matchLoop s.codebook s.params.rawCap.cells (s.payBits s.bitLen.toNat) Acc.empty 0 s.raw = .spent a wp raw
          ∧ ((a.len ≠ 0 ∧ matchBody s = .raised
                ({ s.setPhase .du with rawLen := 0, raw := raw }.raise .unknownCode (BitVec.ofNat 32 wp)))
            ∨ (a.len = 0 ∧ matchBody s
                = .ended { s with phase := 7, raw := raw, rawLen := BitVec.ofNat 32 wp }))) := by
  by_cases hf : s.status.cbV = false ∨ s.status.payV = false
  · exact .inl ⟨hf, by simp [matchBody, hf]⟩
  · have hc : s.status.cbV = true := by simpa using fun h => hf (.inl h)
    have hp : s.status.payV = true := by simpa using fun h => hf (.inr h)
    by_cases h1 : 8 * s.payLen.toNat < s.bitLen.toNat
    · exact .inr (.inl ⟨hc, hp, h1, by simp [matchBody, hc, hp, h1]⟩)
    · have hrun : matchBody s = (match matchLoop s.codebook s.params.rawCap.cells (s.payBits s.bitLen.toNat)
            Acc.empty 0 s.raw with
          | .full wp raw => Ran.raised
              ({ s.setPhase .du with rawLen := 0, raw := raw }.raise .capacity (BitVec.ofNat 32 wp))
          | .spent a wp raw =>
            if a.len = 0 then Ran.ended { s with phase := 7, raw := raw, rawLen := BitVec.ofNat 32 wp }
            else .raised
              ({ s.setPhase .du with rawLen := 0, raw := raw }.raise .unknownCode (BitVec.ofNat 32 wp))) :=
        (if_neg hf).trans (if_neg h1)
      rw [hrun]
      cases hm : matchLoop s.codebook s.params.rawCap.cells (s.payBits s.bitLen.toNat) Acc.empty 0 s.raw with
      | full wp raw => exact .inr (.inr (.inl ⟨hc, hp, by omega, wp, raw, rfl, rfl⟩))
      | spent a wp raw =>
        refine .inr (.inr (.inr ⟨hc, hp, by omega, a, wp, raw, rfl, ?_⟩))
        by_cases ha : a.len = 0
        · exact .inr ⟨ha, if_pos ha⟩
        · exact .inl ⟨ha, if_neg ha⟩

end Sys2Proof.Machine
end

