-- ==== Sys2Proof/Laws/PerInstr.lean ====
section
/-! SUPPORT. Per command: its word has a zero upper field and its op in the low byte, is legal, and the command is well
formed (30_encoding R100 to R102, R105). -/

namespace Sys2Proof.Laws.RoundTrip

/-- What is said of every command. -/
def Statement (i : Instr) : Prop :=
  legalWord (encode i) = true ∧ opField (encode i) = i.op ∧ decode (encode i) = some i ∧ i.wellFormed = true

theorem freq : Statement .freq := by unfold Statement; decide
theorem build : Statement .build := by unfold Statement; decide
theorem codegen : Statement .codegen := by unfold Statement; decide
theorem pack : Statement .pack := by unfold Statement; decide
theorem serialize : Statement .serialize := by unfold Statement; decide
theorem parse : Statement .parse := by unfold Statement; decide
theorem matchBits : Statement .matchBits := by unfold Statement; decide
theorem encode : Statement .encode := by unfold Statement; decide
theorem decode : Statement .decode := by unfold Statement; decide
theorem clr : Statement .clr := by unfold Statement; decide

end Sys2Proof.Laws.RoundTrip
end

