-- ==== Sys2Proof/Laws/Table.lean ====
section
/-! SUPPORT. The symbol table of a container, read whole entry by whole entry. -/

namespace Sys2Proof.Machine

/-- The 256 records once the entries have been read over `cb`. -/
def writeEntries (es : List TableEntry) (cb : List Code) : List Code :=
  es.foldl (fun cb e => cb.set e.1.toNat ⟨true, e.2.1, BitVec.ofNat 255 (be e.2.2 % 2 ^ e.2.1.toNat)⟩) cb

/-- One whole entry is read, and the reading goes on behind it (44_container R220). -/
theorem readEntries_entry (sym len : Byte) (val rest : List Byte) (h : val.length = ceil8 len.toNat) (n rp : Nat)
    (cb : List Code) :
    readEntries (n + 1) ⟨rp, sym :: len :: (val ++ rest)⟩ cb
      = readEntries n ⟨rp + (2 + val.length), rest⟩
          (cb.set sym.toNat ⟨true, len, BitVec.ofNat 255 (be val % 2 ^ len.toNat)⟩) := by
  have h₁ := Cursor.field_append rp [sym] (len :: (val ++ rest))
  have h₂ := Cursor.field_append (rp + 1) [len] (val ++ rest)
  have h₃ := Cursor.field_append (rp + 1 + 1) val rest
  simp only [List.singleton_append, List.length_singleton] at h₁ h₂
  rw [h] at h₃
  simp only [readEntries, h₁, h₂, be_byte, h₃, BitVec.ofNat_toNat, BitVec.setWidth_eq]
  rw [h, show rp + 1 + 1 + ceil8 len.toNat = rp + (2 + ceil8 len.toNat) by omega]

/-- Whole entries are read one after the other, and the reading goes on behind them. -/
theorem readEntries_table (es : List TableEntry) (h : WholeEntries es) (rest : List Byte) (n rp : Nat) (cb : List Code) :
    readEntries (es.length + n) ⟨rp, tableBytes es ++ rest⟩ cb
      = readEntries n ⟨rp + (tableBytes es).length, rest⟩ (writeEntries es cb) := by
  induction es generalizing rp cb with
  | nil => simp [tableBytes, writeEntries]
  | cons e es ih =>
    obtain ⟨he, hes⟩ := List.forall_mem_cons.1 h
    have hb : tableBytes (e :: es) = e.1 :: e.2.1 :: (e.2.2 ++ tableBytes es) := List.flatMap_cons
    rw [hb, List.cons_append, List.cons_append, List.append_assoc, List.length_cons, Nat.succ_add,
      readEntries_entry _ _ _ _ he, ih hes]
    simp only [List.length_cons, List.length_append, writeEntries, List.foldl_cons]
    congr 2
    omega

@[simp] theorem length_writeEntries (es : List TableEntry) (cb : List Code) : (writeEntries es cb).length = cb.length := by
  induction es generalizing cb with
  | nil => rfl
  | cons e es ih => exact (ih _).trans (List.length_set ..)

/-- The record of a symbol after the entries: that of its last entry, or the one before them (44_container R226). -/
theorem getElem?_writeEntries (es : List TableEntry) (cb : List Code) (hcb : cb.length = nsym) (v : Byte) :
    (writeEntries es cb)[v.toNat]? = match (es.filter fun e => e.1 = v).getLast? with
      | none   => cb[v.toNat]?
      | some e => some ⟨true, e.2.1, BitVec.ofNat 255 (be e.2.2 % 2 ^ e.2.1.toNat)⟩ := by
  induction es generalizing cb with
  | nil => rfl
  | cons e es ih =>
    have hv : v.toNat < cb.length := hcb ▸ v.isLt
    refine (ih _ ((List.length_set ..).trans hcb)).trans ?_
    by_cases he : e.1 = v
    · subst he
      rw [List.filter_cons_of_pos (by simp), List.getLast?_cons]
      cases (es.filter fun f => f.1 = e.1).getLast? <;> simp [hv]
    · rw [List.filter_cons_of_neg (by simpa using he)]
      have hne : e.1.toNat ≠ v.toNat := fun h => he (BitVec.eq_of_toNat_eq h)
      cases (es.filter fun f => f.1 = v).getLast? <;> simp [hne]

/-- Over the cleared codebook the records are those of `tableCode`. -/
theorem getElem?_writeEntries_cleared (es : List TableEntry) (v : Byte) :
    (writeEntries es clearedCb)[v.toNat]? = some (tableCode es v) := by
  have hc : clearedCb[v.toNat]? = some Code.clear := List.getElem?_replicate.trans (if_pos v.isLt)
  rw [getElem?_writeEntries es clearedCb List.length_replicate v, tableCode, hc]
  cases (es.filter fun e => e.1 = v).getLast? <;> rfl

end Sys2Proof.Machine
end

