-- ==== Sys2Proof/Tests/Slice0.lean ====
section
/-! SUPPORT. The model's own tests. Expected values are those of spec/95_test_vectors (its ids are named) or of the
spec's encodings; each witness shows a state and operands that meet all the hypotheses of one obligation. -/

set_option Elab.async false

namespace Sys2Proof.Tests

open Sys2Proof.Machine

/-! Well-formedness: each check refuses an ill-formed word -/

/-- Bits 31:8 not zero, op FREQ (T14). -/
theorem test_zero_field_refused : zeroFieldOk 0x00000101 = false ∧ opAssigned 0x00000101 = true := by decide
/-- Bits 31:8 zero, op 0x08 unassigned (T12). -/
theorem test_op_refused : zeroFieldOk 0x00000008 = true ∧ opAssigned 0x00000008 = false := by decide
theorem test_legal_words_accepted : legalWord 0x00000001 = true ∧ legalWord 0x0000001F = true := by decide

/-! Decoding: each word written out from 30_encoding R100 and R102, 24 zero bits and the op -/

theorem test_decode_freq : decode 0b000000000000000000000000_00000001#32 = some .freq := by decide
theorem test_decode_build : decode 0b000000000000000000000000_00000010#32 = some .build := by decide
theorem test_decode_codegen : decode 0b000000000000000000000000_00000011#32 = some .codegen := by decide
theorem test_decode_pack : decode 0b000000000000000000000000_00000100#32 = some .pack := by decide
theorem test_decode_serialize : decode 0b000000000000000000000000_00000101#32 = some .serialize := by decide
theorem test_decode_parse : decode 0b000000000000000000000000_00000110#32 = some .parse := by decide
theorem test_decode_match : decode 0b000000000000000000000000_00000111#32 = some .matchBits := by decide
theorem test_decode_encode : decode 0b000000000000000000000000_00010000#32 = some .encode := by decide
theorem test_decode_decode : decode 0b000000000000000000000000_00010001#32 = some .decode := by decide
theorem test_decode_clr : decode 0b000000000000000000000000_00011111#32 = some .clr := by decide
/-- Every other op value is refused (R103). -/
theorem test_decode_other_ops :
    ((List.range 256).filter fun op => (decode (BitVec.ofNat 32 op)).isSome) = [1, 2, 3, 4, 5, 6, 7, 16, 17, 31] := by
  decide +kernel
theorem test_table_word : decodeTableWord 32 0x1F = some .clr ∧ decodeTableWord 32 0x8 = none := by decide

/-! Small states -/

/-- An HCE with the given capacities, after reset. -/
def small (raw ctr pay : Nat) : State :=
  State.resetWith ⟨Cap.ofCells raw, Cap.ofCells ctr, Cap.ofCells pay, [[0xC3, 0x28]]⟩

/-- With bytes put into RAW, TAG and CTR. -/
def State.put (s : State) (raw tag ctr : List Byte) : State :=
  { s with raw := s.raw.write 0 raw, rawLen := BitVec.ofNat 32 raw.length
           tag := s.tag.write 0 tag, tagLen := BitVec.ofNat 8 tag.length
           ctr := s.ctr.write 0 ctr, ctrLen := BitVec.ofNat 32 ctr.length }

def abc : List Byte := [0x41, 0x41, 0x41, 0x41, 0x41, 0x42, 0x42, 0x42, 0x43, 0x43]
def txt : List Byte := [0x74, 0x78, 0x74]
/-- The container of S1. -/
def s1 : List Byte := [0x03, 0x74, 0x78, 0x74, 0, 0, 0, 3, 0x41, 1, 0, 0x42, 2, 3, 0x43, 2, 2, 1, 0, 0, 0, 0x0F, 7, 0xF4]

/-- The input of 95_test_vectors 1.1. -/
def input : State := State.put (small 64 64 64) abc txt []

/-- The counts of F1. -/
def f1 : List Word := (((List.replicate 256 0).set 0x41 5).set 0x42 3).set 0x43 2
/-- The tree of B1. -/
def b1 : List Node :=
  [⟨true, 0x41, 5, 0, 0, false⟩, ⟨true, 0x42, 3, 0, 0, false⟩, ⟨true, 0x43, 2, 0, 0, false⟩,
   ⟨false, 0, 5, 2, 1, true⟩, ⟨false, 0, 10, 0, 3, true⟩]
/-- The codebook G1. -/
def g1 : List Code := ((clearedCb.set 0x41 ⟨true, 1, 0⟩).set 0x42 ⟨true, 2, 3⟩).set 0x43 ⟨true, 2, 2⟩

/-- After FREQ. -/
def counted : State := { input with ft := ⟨f1, 0⟩, status := { input.status with ftV := true } }
/-- After BUILD. -/
def built : State :=
  { counted with node := ⟨b1, 1⟩, root := 4, nodeCnt := 5, fresh := 2, status := { counted.status with treeV := true } }
/-- After CODEGEN. -/
def coded : State := { built with cb := ⟨g1, 0⟩, symCnt := 3, status := { built.status with cbV := true } }
/-- After PACK (K1). -/
def packed : State :=
  { coded with pay := coded.pay.write 0 [7, 0xF4], payLen := 2, bitLen := 15, padLen := 1
               status := { coded.status with payV := true } }
/-- A state in FAULT mode. -/
def faulted : State := { packed with status := { packed.status with err := true }, errCode := 1, phase := 1 }
/-- With one action pending. -/
def pending (s : State) (a : HostAction) : State := s.withScript [a]

/-- A property of the next state of a command. -/
def after (o : Host.Outcome State Fault Refusal) (p : State → Bool) : Bool :=
  match o with
  | .next s => p s
  | _       => false

/-! One command each (95_test_vectors section 2) -/

/-- F1. -/
theorem test_freq_f1 : after (exec .freq input) (fun t => t.ft.rows == f1 && t.status.word == 0x00000102#32) = true := by
  decide +kernel
/-- F6: RAW_CAP = 4, RAW_LEN = 5. -/
theorem test_freq_f6 : after (exec .freq { small 4 8 8 with rawLen := 5 })
    (fun t => t.errCode == 8 && t.errInfo == 5 && t.phase == 1 && t.status.word == 0x00000004#32) = true := by
  decide +kernel
/-- B1. -/
theorem test_build_b1 : after (exec .build counted)
    (fun t => t.node.rows == b1 && t.root == 4 && t.nodeCnt == 5) = true := by decide +kernel
/-- B6: ties among leaves and internal nodes. -/
theorem test_build_b6 : after (exec .build { counted with ft := ⟨((((f1.set 0x41 2).set 0x42 2).set 0x43 2).set 0x44 2).set 0x45 4, 0⟩ })
    (fun t => (t.node.rows.drop 5).map (fun n => (n.left.toNat, n.right.toNat, n.freq.toNat))
      == [(0, 1, 4), (2, 3, 4), (4, 5, 8), (6, 7, 12)]) = true := by decide +kernel
/-- G1. -/
theorem test_codegen_g1 : after (exec .codegen built) (fun t => t.cb.rows == g1 && t.symCnt == 3) = true := by
  decide +kernel
/-- G2, the one-symbol tree, over an old codebook (R171). -/
theorem test_codegen_g2 : after (exec .codegen
      { coded with node := ⟨[⟨true, 0x41, 4, 0, 0, false⟩, ⟨false, 0, 4, 0, 0, false⟩], 1⟩, root := 1 })
    (fun t => t.cb.rows == clearedCb.set 0x41 ⟨true, 1, 0⟩) = true := by decide +kernel
/-- K1. -/
theorem test_pack_k1 : after (exec .pack coded)
    (fun t => t.readBytes .pay 2 == [7, 0xF4] && t.bitLen == 15 && t.padLen == 1 && t.payLen == 2) = true := by
  decide +kernel
/-- K15: PAY_CAP = 1. -/
theorem test_pack_k15 : after (exec .pack { coded with params := { coded.params with payCap := Cap.ofCells 1 } })
    (fun t => t.errCode == 8 && t.errInfo == 10 && t.phase == 4 && t.byteAt .pay 0 == 7) = true := by decide +kernel
/-- S1. -/
theorem test_serialize_s1 : after (exec .serialize packed)
    (fun t => t.ctrLen == 24 && t.readBytes .ctr 24 == s1) = true := by decide +kernel
/-- S12: CTR_CAP = 23. -/
theorem test_serialize_s12 : after (exec .serialize { packed with params := { packed.params with ctrCap := Cap.ofCells 23 } })
    (fun t => t.errCode == 8 && t.errInfo == 24 && t.phase == 5 && t.ctr == packed.ctr) = true := by decide +kernel
/-- S1 parsed. -/
theorem test_parse_s1 : after (exec .parse (State.put (small 64 64 64) [] [] s1))
    (fun t => t.status.word == 0x00000C02#32 && t.cb.rows == g1 && t.readBytes .tag 3 == txt && t.padLen == 1
      && t.bitLen == 15 && t.readBytes .pay 2 == [7, 0xF4]) = true := by decide +kernel
/-- P10: a tag that is not valid. -/
theorem test_parse_p10 : after (exec .parse (State.put (small 64 64 64) [] [] [2, 0xC3, 0x28]))
    (fun t => t.errCode == 4 && t.errInfo == 2 && t.phase == 6 && t.tagLen == 2) = true := by decide +kernel
/-- M3: the last byte inverted. -/
theorem test_match_m3 : after (exec .matchBits { packed with pay := packed.pay.set 1 0x0B })
    (fun t => t.errCode == 3 && t.errInfo == 11 && t.phase == 7 && t.rawLen == 0) = true := by decide +kernel
/-- M8: of two symbols with one codeword the least. -/
theorem test_match_m8 : after (exec .matchBits
      { packed with cb := ⟨(clearedCb.set 0x41 ⟨true, 1, 0⟩).set 0x42 ⟨true, 1, 0⟩, 0⟩, bitLen := 3, pay := packed.pay.set 0 0 })
    (fun t => t.readBytes .raw 3 == [0x41, 0x41, 0x41] && t.rawLen == 3) = true := by decide +kernel
/-- ENCODE of "AB" with tag "b" (S3). -/
theorem test_encode_s3 : after (exec .encode (State.put (small 64 64 64) [0x41, 0x42] [0x62] []))
    (fun t => t.readBytes .ctr t.ctrLen.toNat
      == [1, 0x62, 0, 0, 0, 2, 0x41, 1, 0, 0x42, 1, 1, 6, 0, 0, 0, 2, 0x40] && t.status.word == 0x00000F02#32) = true := by
  decide +kernel
/-- DECODE of S2, the one-symbol container. -/
theorem test_decode_s2 : after (exec .decode (State.put (small 64 64 64) [] []
      [3, 0x74, 0x78, 0x74, 0, 0, 0, 1, 0x41, 1, 0, 4, 0, 0, 0, 4, 0]))
    (fun t => t.readBytes .raw t.rawLen.toNat == [0x41, 0x41, 0x41, 0x41] && t.status.word == 0x00000C02#32) = true := by
  decide +kernel
/-- T20: CLR keeps the host's buffers. -/
theorem test_clr_t20 : after (exec .clr packed)
    (fun t => t.status.word == 0x00000002#32 && t.bitLen == 0 && t.root == 0 && t.rawLen == 10 && t.tagLen == 3) = true := by
  decide +kernel
/-- T11 and T16: illegal words. -/
theorem test_illegal_t16 : after (step (State.reset.withFetchWord 32 0xFFFFFFFF))
    (fun t => t.errCode == 5 && t.errInfo == 0xFFFFFFFF && t.phase == 8 && t.status.word == 0x00000004#32) = true := by
  decide
/-- T1: the first command after reset is fetched and run. -/
theorem test_first_t1 : after (step (State.reset.withFetchWord 32 1))
    (fun t => t.errCode == 1 && t.errInfo == 0 && t.phase == 1 && t.status.word == 0x00000004#32) = true := by decide
/-- A host read returns the register and changes nothing but the host's side. -/
theorem test_host_read : after (step (pending packed (.readReg 10)))
    (fun t => t.host.seen == some (.word 15) && { t with host := packed.host } == packed) = true := by decide +kernel

/-! Witnesses: the hypotheses of the obligations can be met -/

theorem wit_StepRunsDecodedCommand : (pending input (.writeReg 0 1)).host.script = [.writeReg 0 1]
    ∧ decode 1 = some .freq ∧ Instr.freq.wellFormed = true := by decide
theorem wit_IllegalWordRaises : decode 8 = none ∧ input.mode = .idle := by decide
theorem wit_WordsAreDropped_fault : faulted.mode = .fault ∧ Instr.freq ≠ .clr ∧ faulted.mode ≠ .idle ∧ decode 0 = none := by
  decide
theorem wit_WordsAreDropped_busy : input.beginCommand.mode = .busy := by decide
theorem wit_ClrReturnsToIdle : faulted.mode ≠ .busy ∧ packed.mode ≠ .busy := by decide
theorem wit_ResetWorksInAnyMode : (pending faulted .reset).host.script = [.reset] := by decide
theorem wit_StagesNeedTheirFlags : input.mode = .idle ∧ input.flag .ft = false ∧ input.flag .tree = false
    ∧ input.flag .cb = false ∧ input.flag .pay = false := by decide
theorem wit_StagesNeedTheirFlags_pay_alone : coded.mode = .idle ∧ coded.flag .cb = true ∧ coded.flag .pay = false := by
  decide
/-- RAW_LEN and CTR_LEN one beyond the capacities, with CB_V = 1 for the clause of PACK. -/
def beyond : State := { coded with rawLen := 65, ctrLen := 65 }
theorem wit_LengthsBeyondCapacityFault : beyond.mode = .idle ∧ beyond.params.rawCap.cells < beyond.rawLen.toNat
    ∧ beyond.params.ctrCap.cells < beyond.ctrLen.toNat ∧ beyond.flag .cb = true := by decide +kernel
theorem wit_EmptyInputFaults : (small 64 64 64).mode = .idle ∧ (small 64 64 64).rawLen = 0 := by decide
theorem wit_FreqCountsBytes : input.mode = .idle ∧ input.rawLen ≠ 0 ∧ input.rawLen.toNat ≤ input.params.rawCap.cells := by
  decide +kernel
/-- RAW_LEN = RAW_CAP, the boundary. -/
theorem wit_FreqCountsBytes_full : (State.put (small 10 8 8) abc [] []).rawLen.toNat
    = (State.put (small 10 8 8) abc [] []).params.rawCap.cells := by decide +kernel
theorem wit_FreqFrame : after (exec .freq input) (fun _ => true) = true := by decide +kernel
theorem wit_FreqFrame_err : after (exec .freq (small 8 8 8)) (fun t => t.status.err) = true := by decide +kernel
/-- A live set with a tie in frequency. -/
def live : List Live := [(0, ⟨true, 0x41, 5, 0, 0, false⟩), (3, ⟨false, 0, 5, 2, 1, true⟩)]
theorem wit_ExtractMinTakesLeast : live ≠ [] ∧ (live.map Prod.fst).Nodup := by decide
theorem wit_BuildMakesTree : counted.mode = .idle ∧ counted.flag .ft = true ∧ counted.freqSum < 2 ^ 32
    ∧ (counted.freqTable.filter (· ≠ 0)).length = 3 ∧ counted.ftAt 0x41 ≠ 0 := by decide +kernel
/-- One distinct symbol. -/
def countedOne : State := { counted with ft := ⟨(List.replicate 256 0).set 0x41 4, 0⟩ }
theorem wit_BuildMakesTree_one : countedOne.mode = .idle ∧ countedOne.flag .ft = true ∧ countedOne.freqSum < 2 ^ 32
    ∧ (countedOne.freqTable.filter (· ≠ 0)).length = 1 := by decide +kernel
theorem wit_BuiltNodesHaveOneParent : counted.mode = .idle
    ∧ after (exec .build counted) (fun t => !t.status.err && decide (0 < t.nodeCnt.toNat) && t.root != 0) = true := by
  decide +kernel
theorem wit_BuildFrame_err : after (exec .build input) (fun t => t.status.err) = true := by decide +kernel
/-- The tree of B1. -/
def t1 : HTree := .fork (.leaf 0x41) (.fork (.leaf 0x43) (.leaf 0x42))
theorem wit_CodegenRecordsPaths : built.mode = .idle ∧ built.flag .tree = true ∧ built.tree? = some t1
    ∧ t1.symbols.Nodup ∧ t1.symbols.length ≤ nsym ∧ ((0x43 : Byte), [true, false]) ∈ t1.paths ∧ (0x44 : Byte) ∉ t1.symbols := by
  decide +kernel
theorem wit_CodegenDependsOnTreeOnly : built.mode = .idle ∧ coded.mode = .idle ∧ built.flag .tree = true
    ∧ coded.flag .tree = true ∧ coded.node = built.node ∧ coded.root = built.root
    ∧ after (exec .codegen built) (fun _ => true) = true := by decide +kernel
theorem wit_treeOk : built.treeOk := fun _ => ⟨t1, by decide +kernel, by decide, by decide, by decide⟩
theorem wit_CodegenIsPrefixFree : built.mode = .idle ∧ built.flag .tree = true
    ∧ after (exec .codegen built) (fun _ => true) = true := by decide +kernel
theorem wit_CodegenFrame_err : after (exec .codegen input) (fun t => t.status.err) = true := by decide +kernel
theorem wit_PackJoinsCodewords : coded.mode = .idle ∧ coded.flag .cb = true
    ∧ coded.rawLen.toNat ≤ coded.params.rawCap.cells
    ∧ (∀ i, i < coded.rawLen.toNat → (coded.cbAt (coded.byteAt .raw i).toNat).valid = true)
    ∧ (coded.bitString (coded.readBytes .raw coded.rawLen.toNat)).length < 2 ^ 32
    ∧ ceil8 (coded.bitString (coded.readBytes .raw coded.rawLen.toNat)).length ≤ coded.params.payCap.cells := by
  decide +kernel
/-- RAW = "AAD", whose last byte has no codeword. -/
def uncovered : State := { coded with raw := (coded.raw.write 0 [0x41, 0x41, 0x44]), rawLen := 3 }
theorem wit_PackReportsMissingCode : uncovered.mode = .idle ∧ uncovered.flag .cb = true
    ∧ uncovered.rawLen.toNat ≤ uncovered.params.rawCap.cells ∧ 2 < uncovered.rawLen.toNat
    ∧ (∀ i, i < 2 → (uncovered.cbAt (uncovered.byteAt .raw i).toNat).valid = true)
    ∧ (uncovered.cbAt (uncovered.byteAt .raw 2).toNat).valid = false
    ∧ (uncovered.bitString (uncovered.readBytes .raw 2)).length < 2 ^ 32
    ∧ (uncovered.bitString (uncovered.readBytes .raw 2)).length / 8 ≤ uncovered.params.payCap.cells := by decide +kernel
/-- A small PAY under K1's input, whose last byte is partial. -/
def cramped (cap : Nat) : State := { coded with params := { coded.params with payCap := Cap.ofCells cap } }
theorem wit_PackReportsCapacity_whole : (cramped 1).mode = .idle ∧ (cramped 1).flag .cb = true
    ∧ (cramped 1).rawLen.toNat ≤ (cramped 1).params.rawCap.cells
    ∧ (let s := { cramped 1 with cb := ⟨g1.set 0x41 ⟨true, 4, 0⟩, 0⟩ }
      3 < s.rawLen.toNat ∧ (∀ i, i ≤ 3 → (s.cbAt (s.byteAt .raw i).toNat).valid = true)
        ∧ (s.bitString (s.readBytes .raw 3)).length < 2 ^ 32
        ∧ (s.bitString (s.readBytes .raw 3)).length / 8 ≤ s.params.payCap.cells
        ∧ s.params.payCap.cells < (s.bitString (s.readBytes .raw 4)).length / 8) := by decide +kernel
theorem wit_PackReportsCapacity_last : (cramped 1).rawLen.toNat ≤ (cramped 1).params.rawCap.cells
    ∧ (∀ i, i < (cramped 1).rawLen.toNat → ((cramped 1).cbAt ((cramped 1).byteAt .raw i).toNat).valid = true)
    ∧ ((cramped 1).bitString ((cramped 1).readBytes .raw (cramped 1).rawLen.toNat)).length = 15
    ∧ 15 / 8 ≤ (cramped 1).params.payCap.cells ∧ (cramped 1).params.payCap.cells < ceil8 15 := by decide +kernel
/-- 2^32 - 1 bytes under 255-bit codewords: the bytes before index 16843009 take exactly 2^32 - 1 bits. -/
def endless : State :=
  { State.reset with
    cb := ⟨List.replicate 256 ⟨true, 255, 0⟩, 0⟩, rawLen := 0xFFFFFFFF, status := { Status.reset with cbV := true } }
theorem endless_cbAt (x : Byte) : endless.cbAt x.toNat = ⟨true, 255, 0⟩ := by
  have hx : endless.cb.rows[x.toNat]? = some ⟨true, 255, 0⟩ :=
    List.getElem?_replicate.trans (if_pos x.isLt)
  simp only [State.cbAt, hx]
theorem endless_bits (l : List Byte) : (endless.bitString l).length = 255 * l.length := by
  induction l with
  | nil => rfl
  | cons x xs ih =>
    have hx : (codeBits (endless.cbAt x.toNat)).length = 255 := by
      rw [endless_cbAt]; exact (List.length_map ..).trans List.length_range
    have : endless.bitString (x :: xs) = codeBits (endless.cbAt x.toNat) ++ endless.bitString xs := List.flatMap_cons
    rw [this, List.length_append, ih, hx, List.length_cons]
    omega
theorem wit_PackReportsCapacity_total : endless.mode = .idle ∧ endless.flag .cb = true
    ∧ endless.rawLen.toNat ≤ endless.params.rawCap.cells ∧ 16843009 < endless.rawLen.toNat
    ∧ (∀ i, i ≤ 16843009 → (endless.cbAt (endless.byteAt .raw i).toNat).valid = true)
    ∧ (endless.bitString (endless.readBytes .raw 16843009)).length < 2 ^ 32
    ∧ (endless.bitString (endless.readBytes .raw 16843009)).length / 8 ≤ endless.params.payCap.cells
    ∧ 2 ^ 32 ≤ (endless.bitString (endless.readBytes .raw (16843009 + 1))).length := by
  refine ⟨by decide, by decide, by decide, by decide, fun i _ => by rw [endless_cbAt], ?_, ?_, ?_⟩ <;>
    simp only [endless_bits, State.readBytes, List.length_map, List.length_range] <;> decide
theorem wit_PackFrame : after (exec .pack coded) (fun _ => true) = true ∧ after (exec .pack uncovered) (fun t => t.status.err) = true := by
  decide +kernel
theorem wit_SerializeWritesFrame : packed.mode = .idle ∧ packed.flag .cb = true ∧ packed.flag .pay = true
    ∧ frameSize packed = 24 ∧ frameSize packed ≤ packed.params.ctrCap.cells := by decide +kernel
/-- CTR_CAP = 23, one byte short. -/
def tight : State := { packed with params := { packed.params with ctrCap := Cap.ofCells 23 } }
theorem wit_SerializeNeverPartlyWrites : tight.mode = .idle ∧ tight.flag .cb = true ∧ tight.flag .pay = true
    ∧ tight.params.ctrCap.cells < frameSize tight ∧ after (exec .serialize tight) (fun t => t.status.err) = true := by
  decide +kernel
/-- A state with the container S1 in CTR. -/
def filled : State := State.put (small 64 64 64) [] [] s1
theorem wit_ParseReadsFrame : filled.mode = .idle ∧ filled.ctrLen.toNat ≤ filled.params.ctrCap.cells
    ∧ txt.length ≤ 255 ∧ filled.params.tagValid txt = true
    ∧ be [0, 0, 0, 3] = 3 ∧ (∀ e ∈ [((0x41 : Byte), (1 : Byte), [(0 : Byte)]), (0x42, 2, [3]), (0x43, 2, [2])], e.2.2.length = ceil8 e.2.1.toNat)
    ∧ be [0, 0, 0, 0x0F] ≤ 8 * [(7 : Byte), 0xF4].length ∧ [(7 : Byte), 0xF4].length ≤ filled.params.payCap.cells
    ∧ filled.readBytes .ctr filled.ctrLen.toNat
      = [BitVec.ofNat 8 txt.length] ++ txt ++ [0, 0, 0, 3]
        ++ [((0x41 : Byte), (1 : Byte), [(0 : Byte)]), (0x42, 2, [3]), (0x43, 2, [2])].flatMap (fun e => e.1 :: e.2.1 :: e.2.2)
        ++ [1] ++ [0, 0, 0, 0x0F] ++ [7, 0xF4] := by decide +kernel
/-- P10's container. -/
def badTag : State := State.put (small 64 64 64) [] [] [2, 0xC3, 0x28]
theorem wit_ParseChecksTagFirst : badTag.mode = .idle ∧ badTag.ctrLen.toNat ≤ badTag.params.ctrCap.cells
    ∧ badTag.params.tagValid [0xC3, 0x28] = false
    ∧ badTag.readBytes .ctr badTag.ctrLen.toNat = [BitVec.ofNat 8 2] ++ [0xC3, 0x28] ++ [] := by decide +kernel
theorem wit_ParseTruncatedBeforeTable_first : (small 8 8 8).mode = .idle ∧ (small 8 8 8).ctrLen.toNat = 0 := by decide
theorem wit_ParseTruncatedBeforeTable_tag : (State.put (small 8 8 8) [] [] [3, 0x74, 0x78]).ctrLen.toNat = 3
    ∧ 3 < 1 + ((State.put (small 8 8 8) [] [] [3, 0x74, 0x78]).byteAt .ctr 0).toNat := by decide +kernel
theorem wit_ParseTruncatedBeforeTable_count :
    let s := State.put (small 8 8 8) [] [] [3, 0x74, 0x78, 0x74, 0, 0, 0]
    s.mode = .idle ∧ 1 + (s.byteAt .ctr 0).toNat ≤ s.ctrLen.toNat ∧ s.ctrLen.toNat < 5 + (s.byteAt .ctr 0).toNat
      ∧ s.params.tagValid (((s.readBytes .ctr s.ctrLen.toNat).drop 1).take 3) = true := by decide +kernel
/-- The entries of S1's table. -/
def es1 : List TableEntry := [(0x41, 1, [0]), (0x42, 2, [3]), (0x43, 2, [2])]
/-- A container with tag "b", a count of two or of three, the entries S1's or the first of them, and other bytes. -/
def cut (count : Byte) (es : List TableEntry) (rest : List Byte) : State :=
  State.put (small 64 64 1) [] [] ([1, 0x62] ++ [0, 0, 0, count] ++ tableBytes es ++ rest)
/-- The hypotheses of ParseFaultsFromTable. -/
abbrev CutHyp (count : Byte) (es : List TableEntry) (rest : List Byte) : Prop :=
  let s := cut count es rest
  s.mode = .idle ∧ s.ctrLen.toNat ≤ s.params.ctrCap.cells ∧ s.params.tagValid [0x62] = true ∧ WholeEntries es
    ∧ s.readBytes .ctr s.ctrLen.toNat
      = [BitVec.ofNat 8 [(0x62 : Byte)].length] ++ [0x62] ++ [0, 0, 0, count] ++ tableBytes es ++ rest
theorem wit_ParseFaultsFromTable_entry : (es1.take 2).length < be [0, 0, 0, 3] ∧ CutHyp 3 (es1.take 2) []
    ∧ CutHyp 3 (es1.take 2) [0x43] ∧ CutHyp 3 (es1.take 2) [0x43, 9, 1] ∧ [(1 : Byte)].length < ceil8 (9 : Byte).toNat := by
  decide +kernel
theorem wit_ParseFaultsFromTable_fields : es1.length = be [0, 0, 0, 3] ∧ CutHyp 3 es1 [] ∧ CutHyp 3 es1 [1]
    ∧ CutHyp 3 es1 [1, 0, 0, 0] := by decide +kernel
theorem wit_ParseFaultsFromTable_payload : CutHyp 3 es1 (1 :: ([0, 0, 0, 0x11] ++ [7, 0xF4]))
    ∧ 8 * [(7 : Byte), 0xF4].length < be [0, 0, 0, 0x11] ∧ CutHyp 3 es1 (1 :: ([0, 0, 0, 0x10] ++ [7, 0xF4]))
    ∧ be [0, 0, 0, 0x10] ≤ 8 * [(7 : Byte), 0xF4].length ∧ (cut 3 es1 []).params.payCap.cells < [(7 : Byte), 0xF4].length := by
  decide +kernel
/-- P4 of 95_test_vectors over tag "b": the fault has the container's length, and CB the entries. -/
theorem test_parse_short_payload : after (exec .parse (cut 3 es1 (1 :: ([0, 0, 0, 0x11] ++ [7, 0xF4]))))
    (fun t => t.errCode == 2 && t.errInfo == 22 && t.cb.rows == g1 && t.bitLen == 0) = true := by decide +kernel
theorem wit_ParseFrame : after (exec .parse filled) (fun _ => true) = true ∧ after (exec .parse badTag) (fun t => t.status.err) = true := by
  decide +kernel
theorem wit_ReserializedContainerIsSame : packed.mode = .idle ∧ (∀ v < 256, CodeFits (packed.cbAt v))
    ∧ after (exec .serialize packed) (fun t => !t.status.err && after (exec .parse t) fun u => !u.status.err) = true := by
  decide +kernel
theorem wit_MatchRecoversMessage : packed.mode = .idle ∧ packed.flag .cb = true ∧ packed.flag .pay = true
    ∧ packed.bitLen.toNat ≤ 8 * packed.payLen.toNat ∧ (∀ v < 256, CodeFits (packed.cbAt v))
    ∧ PrefixFree packed.codebook ∧ NoEmptyCode packed.codebook ∧ (∀ x ∈ abc, (packed.cbAt x.toNat).valid = true)
    ∧ packed.payBits packed.bitLen.toNat = packed.bitString abc ∧ abc.length ≤ packed.params.rawCap.cells := by
  decide +kernel
/-- A claim about every byte is one about 256 numbers. -/
theorem forall_byte {p : Byte → Prop} (h : ∀ v < 256, p (BitVec.ofNat 8 v)) (y : Byte) : p y := by
  have := h y.toNat y.isLt
  rwa [BitVec.ofNat_toNat, BitVec.setWidth_eq] at this
/-- No codeword begins the bits, as a check over 256 numbers. -/
theorem noMatchIn_of {s : State} {bits : List Bool}
    (h : ∀ v < 256, let c := s.cbAt (BitVec.ofNat 8 v).toNat
      c.valid = true → 1 ≤ c.len.toNat → ¬ codeBits c <+: bits) : s.NoMatchIn bits := forall_byte h
/-- `FirstMatch`, as a check over 256 numbers. -/
theorem firstMatch_of {s : State} {x : Byte}
    (h : (s.cbAt x.toNat).valid = true ∧ 1 ≤ (s.cbAt x.toNat).len.toNat
      ∧ (s.cbAt x.toNat).val.toNat < 2 ^ (s.cbAt x.toNat).len.toNat)
    (h' : ∀ v < 256, let c := s.cbAt (BitVec.ofNat 8 v).toNat
      c.valid = true → 1 ≤ c.len.toNat → codeBits c <+: codeBits (s.cbAt x.toNat) →
        codeBits c = codeBits (s.cbAt x.toNat) ∧ x.toNat ≤ (BitVec.ofNat 8 v).toNat) : s.FirstMatch x :=
  ⟨h.1, h.2.1, h.2.2, forall_byte h'⟩
/-- Under G1's codebook every byte of K1's input is matched first. -/
theorem g1_firstMatch {s : State} (hs : s.cb.rows = g1) : ∀ x ∈ abc, s.FirstMatch x := by
  have h : ∀ x ∈ abc, coded.FirstMatch x := by
    simp only [abc, List.forall_mem_cons, List.not_mem_nil, false_imp_iff, implies_true, and_true]
    refine ⟨?_, ?_, ?_, ?_, ?_, ?_, ?_, ?_, ?_, ?_⟩ <;> exact firstMatch_of (by decide +kernel) (by decide +kernel)
  have hr : ∀ y : Byte, s.cbAt y.toNat = coded.cbAt y.toNat := fun y => by
    have hy : y.toNat < g1.length := Nat.lt_of_lt_of_eq y.isLt (by decide +kernel)
    have : coded.cb.rows = g1 := rfl
    simp only [State.cbAt, hs, this, List.getElem?_eq_getElem hy]
  simpa only [State.FirstMatch, hr] using h
/-- K1's payload cut to 14 bits, in the middle of the last codeword. -/
def midway : State := { packed with bitLen := 14 }
theorem wit_MatchReportsUnknownCode : midway.mode = .idle ∧ midway.flag .cb = true ∧ midway.flag .pay = true
    ∧ midway.bitLen.toNat ≤ 8 * midway.payLen.toNat
    ∧ midway.payBits midway.bitLen.toNat = midway.bitString (abc.take 9) ++ [true]
    ∧ (∀ x ∈ abc.take 9, midway.FirstMatch x) ∧ midway.NoMatchIn [true] ∧ [true] ≠ []
    ∧ (abc.take 9).length ≤ midway.params.rawCap.cells :=
  ⟨by decide, by decide, by decide, by decide, by decide +kernel,
    fun x hx => g1_firstMatch rfl x (List.mem_of_mem_take hx), noMatchIn_of (by decide +kernel), by decide,
    by decide +kernel⟩
/-- M13: no valid entry, one bit. -/
def noCode : State := { packed with cb := ⟨clearedCb, 0⟩, bitLen := 1 }
theorem wit_MatchReportsUnknownCode_none : noCode.payBits noCode.bitLen.toNat = noCode.bitString [] ++ [false]
    ∧ noCode.NoMatchIn [false] := ⟨by decide +kernel, noMatchIn_of (by decide +kernel)⟩
/-- M8: two symbols with one codeword, of which 41 is the least. -/
def twins : State :=
  { packed with cb := ⟨(clearedCb.set 0x41 ⟨true, 1, 0⟩).set 0x42 ⟨true, 1, 0⟩, 0⟩, bitLen := 3, pay := packed.pay.set 0 0 }
theorem wit_MatchEmitsFirstMatches : twins.mode = .idle ∧ twins.flag .cb = true ∧ twins.flag .pay = true
    ∧ twins.bitLen.toNat ≤ 8 * twins.payLen.toNat
    ∧ twins.payBits twins.bitLen.toNat = twins.bitString [0x41, 0x41, 0x41] ++ [] ∧ twins.FirstMatch 0x41
    ∧ ¬ twins.FirstMatch 0x42 ∧ 3 ≤ twins.params.rawCap.cells :=
  ⟨by decide, by decide, by decide, by decide, by decide +kernel, firstMatch_of (by decide +kernel) (by decide +kernel),
    fun h => absurd (h.2.2.2 0x41 (by decide +kernel) (by decide +kernel) (by decide +kernel)) (by decide +kernel), by decide⟩
/-- RAW_CAP = 9 for a message of ten. -/
def full : State := { packed with params := { packed.params with rawCap := Cap.ofCells 9 } }
theorem wit_MatchEmitsFirstMatches_full : full.mode = .idle
    ∧ full.payBits full.bitLen.toNat = full.bitString abc ++ [] ∧ (∀ x ∈ abc, full.FirstMatch x)
    ∧ full.params.rawCap.cells < abc.length ∧ after (exec .matchBits full)
      (fun t => t.errCode == 8 && t.errInfo == 9 && t.rawLen == 0 && t.readBytes .raw 9 == abc.take 9) = true :=
  ⟨by decide, by decide +kernel, g1_firstMatch rfl, by decide +kernel, by decide +kernel⟩
theorem wit_MatchFrame : after (exec .matchBits packed) (fun _ => true) = true := by decide +kernel
/-- Room for the worst case of two bytes. -/
def roomy : State := State.put (small 64 9000 64) [0x41, 0x42] [0x62] []
theorem wit_EncodeCompletes : roomy.mode = .idle ∧ 1 ≤ roomy.rawLen.toNat
    ∧ roomy.rawLen.toNat ≤ roomy.params.rawCap.cells ∧ 255 * roomy.rawLen.toNat < 2 ^ 32
    ∧ ceil8 (255 * roomy.rawLen.toNat) ≤ roomy.params.payCap.cells
    ∧ 1 + roomy.tagLen.toNat + 4 + 256 * 34 + 5 + ceil8 (255 * roomy.rawLen.toNat) ≤ roomy.params.ctrCap.cells := by
  decide +kernel
/-- "AAAA". -/
def aaaa : State := State.put (small 4 17 1) [0x41, 0x41, 0x41, 0x41] txt []
theorem wit_EncodeOneSymbol : aaaa.mode = .idle ∧ 1 ≤ aaaa.rawLen.toNat ∧ aaaa.rawLen.toNat ≤ aaaa.params.rawCap.cells
    ∧ (∀ i, i < aaaa.rawLen.toNat → aaaa.byteAt .raw i = 0x41) ∧ ceil8 aaaa.rawLen.toNat ≤ aaaa.params.payCap.cells
    ∧ aaaa.tagLen.toNat + 13 + ceil8 aaaa.rawLen.toNat ≤ aaaa.params.ctrCap.cells := by decide +kernel
theorem wit_EncodeFrame : after (exec .encode aaaa) (fun t => !t.status.err) = true
    ∧ after (exec .encode (small 8 8 8)) (fun t => t.status.err) = true := by decide +kernel
/-- The container of "AAAA" (S2). -/
def s2 : State := State.put (small 4 17 1) [] [] [3, 0x74, 0x78, 0x74, 0, 0, 0, 1, 0x41, 1, 0, 4, 0, 0, 0, 4, 0]
theorem wit_DecodeRecoversMessage : filled.mode = .idle ∧ filled.ctrLen.toNat ≤ filled.params.ctrCap.cells
    ∧ txt.length ≤ 255 ∧ filled.params.tagValid txt = true ∧ be [0, 0, 0, 3] = es1.length ∧ WholeEntries es1
    ∧ be [0, 0, 0, 0x0F] ≤ 8 * [(7 : Byte), 0xF4].length ∧ [(7 : Byte), 0xF4].length ≤ filled.params.payCap.cells
    ∧ filled.readBytes .ctr filled.ctrLen.toNat = [BitVec.ofNat 8 txt.length] ++ txt ++ [0, 0, 0, 3] ++ tableBytes es1
      ++ [1] ++ [0, 0, 0, 0x0F] ++ [7, 0xF4]
    ∧ PrefixFree (tableCodebook es1) ∧ NoEmptyCode (tableCodebook es1) ∧ (∀ x ∈ abc, (tableCode es1 x).valid = true)
    ∧ (bytesBits [7, 0xF4]).take (be [0, 0, 0, 0x0F]) = abc.flatMap (fun x => codeBits (tableCode es1 x))
    ∧ abc.length ≤ filled.params.rawCap.cells := by decide +kernel
theorem wit_DecodeFrame : after (exec .decode s2) (fun t => !t.status.err) = true
    ∧ after (exec .decode badTag) (fun t => t.status.err && t.phase == Position.fp.code) = true := by decide +kernel
theorem wit_DecodeRestoresEncodedInput : aaaa.mode = .idle
    ∧ aaaa.params.tagValid (aaaa.readBytes .tag aaaa.tagLen.toNat) = true
    ∧ after (exec .encode aaaa) (fun t => !t.status.err) = true := by decide +kernel
theorem wit_HostReadsHaveNoSideEffect : (pending packed (.readReg 1)).host.script = [.readReg 1]
    ∧ (pending packed (.readMem .raw 63)).host.script = [.readMem .raw 63] ∧ 63 < packed.params.capOf .raw
    ∧ (pending packed (.readFreq 255)).host.script = [.readFreq 255]
    ∧ (pending packed (.readNode 510)).host.script = [.readNode 510]
    ∧ (pending packed (.readCode 255)).host.script = [.readCode 255]
    ∧ (pending packed (.readReg 1)).mode ≠ .busy := by decide +kernel
theorem wit_HostWritesRegisters : (pending packed (.writeReg 6 0x1FF)).host.script = [.writeReg 6 0x1FF]
    ∧ (6 : Nat) ≠ 0 ∧ (pending packed (.writeReg 6 0x1FF)).mode ≠ .busy ∧ (8 : Nat) ∉ [5, 6, 7] := by decide
/-- A running command, as BUSY mode. -/
def running (a : HostAction) : State := pending input.beginCommand a
theorem wit_host_accesses_busy : (running (.writeReg 5 1)).host.script = [.writeReg 5 1]
    ∧ (running (.writeReg 5 1)).mode = .busy ∧ (running (.readReg 1)).mode = .busy
    ∧ (running (.writeMem .raw 0 1)).host.script = [.writeMem .raw 0 1] ∧ (running (.writeMem .raw 0 1)).mode = .busy := by
  decide
theorem wit_HostWritesMemory : (pending packed (.writeMem .tag 254 1)).host.script = [.writeMem .tag 254 1]
    ∧ packed.mode ≠ .busy ∧ Space.tag ≠ .pay ∧ 254 < packed.params.capOf .tag ∧ packed.params.capOf .tag ≤ 255 := by decide
theorem wit_StepKeepsModeLegal : faulted.modeOk ∧ packed.modeOk := by decide
theorem wit_StepKeepsMemoryWithinCapacity : packed.memOk ∧ packed.raw.cells ≠ [] := by decide +kernel
theorem wit_StepKeepsPayloadBound : packed.payOk ∧ packed.status.payV = true := by decide +kernel
theorem wit_StepKeepsCodebookFitting : packed.cbOk ∧ packed.status.cbV = true := by decide +kernel
theorem wit_StepKeepsCountsBounded : counted.ftOk ∧ counted.status.ftV = true := by decide +kernel
theorem wit_StepKeepsTreeShape : built.treeOk ∧ built.status.treeV = true := ⟨wit_treeOk, by decide⟩
theorem wit_EveryCommandEnds : built.ftOk ∧ built.treeOk ∧ built.status.busy = false :=
  ⟨by decide +kernel, wit_treeOk, by decide⟩
theorem wit_FaultRecordIsKept : faulted.mode = .fault
    ∧ (pending faulted (.writeReg 0 0x10)).host.script = [.writeReg 0 0x10]
    ∧ HostAction.writeReg 0 0x10 ≠ .reset ∧ HostAction.writeReg 0 0x10 ≠ .writeReg 0 0x1F
    ∧ after (step (pending faulted (.writeReg 0 0x10))) (fun _ => true) = true := by decide +kernel

end Sys2Proof.Tests
end

section
/-! PROOFS. What one step can do, said once, and how an invariant is carried through it. -/

namespace Sys2Proof.Machine

/-! The end of a body as a postcondition -/

/-- The body ended where `Q` holds, or raised where `R` holds, or stopped the machine. -/
def Ran.Meets (Q R : State → Prop) : Ran → Prop
  | .ended s   => Q s
  | .raised s  => R s
  | .stopped _ => True

/-- A composition meets what its second body meets after the first (46_top_level R270). -/
theorem Ran.Meets.andThen {P Q R : State → Prop} {r : Ran} {f : State → Ran} (h : r.Meets P R)
    (hf : ∀ s, P s → (f s).Meets Q R) : (r.andThen f).Meets Q R := by
  cases r with
  | ended s => exact hf s h
  | raised s => exact h
  | stopped e => trivial

/-- The body of a command; CLR alone has none (46_top_level R261, R270, R272, R275). -/
def commandBody : Instr → Option (State → Ran)
  | .freq      => some freqBody
  | .build     => some buildBody
  | .codegen   => some codegenBody
  | .pack      => some packBody
  | .serialize => some serializeBody
  | .parse     => some parseBody
  | .matchBits => some matchBody
  | .encode    => some encodeBody
  | .decode    => some decodeBody
  | .clr       => none

theorem exec_of_commandBody {i : Instr} {body : State → Ran} (h : commandBody i = some body) (s : State) :
    exec i s = issue body s := by
  cases i <;> cases h <;> rfl

theorem commandBody_eq_none {i : Instr} (h : commandBody i = none) : i = .clr := by
  match i, h with
  | .clr, _ => rfl

/-! Inversion of a step -/

/-- Everything a host action taken at `s` can lead to (20_memory R85, 46_top_level R260, 70_reset R330, R340). -/
inductive Acts : HostAction → State → State → Prop
  /-- an access or a word that is dropped or ignored -/
  | dropped (a : HostAction) (s : State) : Acts a s s
  /-- a command that ends without a fault -/
  | ended {w : Word} {i : Instr} {body : State → Ran} {s u : State} (hw : decode w = some i)
      (hi : commandBody i = some body) (hm : s.mode = .idle) (hu : body s.beginCommand = .ended u) :
      Acts (.writeReg 0 w) s u.endCommand
  /-- a command that raises -/
  | raised {w : Word} {i : Instr} {body : State → Ran} {s u : State} (hw : decode w = some i)
      (hi : commandBody i = some body) (hm : s.mode = .idle) (hu : body s.beginCommand = .raised u) :
      Acts (.writeReg 0 w) s u
  | cleared {w : Word} {s : State} (hw : decode w = some .clr) (hm : s.mode ≠ .busy) : Acts (.writeReg 0 w) s s.cleared
  | illegal {w : Word} {s : State} (hw : decode w = none) (hm : s.mode = .idle) :
      Acts (.writeReg 0 w) s (s.beginCommand.raise .illegalCommand w)
  | regWritten {n : Nat} {v : Word} {s : State} (hn : n ≠ 0) (hm : s.mode ≠ .busy) :
      Acts (.writeReg n v) s (s.regWrite n v)
  | memWritten {sp : Space} {i : Nat} {b : Byte} {s : State} (hm : s.mode ≠ .busy) (hsp : sp ≠ .pay)
      (hi : i < s.params.capOf sp) : Acts (.writeMem sp i b) s (s.setMem sp ((s.mem sp).set i b))
  /-- a read or a WAIT, which changes the host's side alone -/
  | read {a : HostAction} {s : State} (h : HostSide) : Acts a s { s with host := h }
  | reset {s : State} : Acts .reset s s.resetAgain

theorem hostCommand_acts {w : Word} {s t : State} (h : hostCommand w s = .next t) : Acts (.writeReg 0 w) s t := by
  unfold hostCommand at h
  split at h
  · rename_i i hw
    cases hb : commandBody i with
    | none =>
      obtain rfl := commandBody_eq_none hb
      rcases issueClear_next h with ⟨_, rfl⟩ | ⟨hm, rfl⟩
      · exact .dropped _ _
      · exact .cleared hw hm
    | some body =>
      rw [exec_of_commandBody hb] at h
      rcases issue_next h with ⟨_, rfl⟩ | ⟨hm, u, hu, rfl⟩ | ⟨hm, hu⟩
      · exact .dropped _ _
      · exact .ended hw hb hm hu
      · exact .raised hw hb hm hu
  · rename_i hw
    rcases issueIllegal_next h with ⟨_, rfl⟩ | ⟨hm, rfl⟩
    · exact .dropped _ _
    · exact .illegal hw hm

theorem hostWriteReg_acts {n : Nat} {v : Word} {s t : State} (h : hostWriteReg n v s = .next t) :
    Acts (.writeReg n v) s t := by
  unfold hostWriteReg at h
  split at h
  · rename_i hn
    exact hn ▸ hostCommand_acts h
  · split at h <;> cases h
    · exact .dropped _ _
    · exact .regWritten ‹_› ‹_›

theorem hostWriteMem_acts (sp : Space) (i : Nat) (b : Byte) (s : State) :
    Acts (.writeMem sp i b) s (hostWriteMem sp i b s) := by
  unfold hostWriteMem
  split
  · exact .dropped _ _
  · split
    · exact .dropped _ _
    · split
      · exact .memWritten ‹_› ‹_› ‹_›
      · exact .dropped _ _

/-- Inversion of a host action. -/
theorem hostAct_acts {a : HostAction} {s t : State} (h : hostAct a s = .next t) : Acts a s t := by
  cases a with
  | writeReg n v => exact hostWriteReg_acts h
  | writeMem sp i b => cases h; exact hostWriteMem_acts sp i b s
  | reset => cases h; exact .reset
  | wait =>
    simp only [hostAct] at h
    split at h <;> cases h <;> exact .read _
  | readReg n => cases h; exact .read _
  | readMem sp i => cases h; exact .read _
  | readFreq v => cases h; exact .read _
  | readNode i => cases h; exact .read _
  | readCode v => cases h; exact .read _

/-- Inversion of a step: nothing is pending and nothing changes, or the host's next action is taken. -/
theorem step_acts {s t : State} (h : step s = .next t) :
    (s.host.script = [] ∧ t = s) ∨ ∃ a rest, s.host.script = a :: rest ∧ Acts a (s.afterTaking rest) t := by
  unfold step hostStep at h
  split at h
  · cases h; exact .inl ⟨‹_›, rfl⟩
  · exact .inr ⟨_, _, ‹_›, hostAct_acts h⟩

/-! Carrying an invariant through a step -/

/-- Begun where `P` holds, the body ends where `P` holds and raises where `I` holds. -/
def BodyKeeps (P I : State → Prop) (body : State → Ran) : Prop := ∀ s, P s → (body s).Meets P I

/-- The seven stages keep `P` while a command runs, and raise into `I` (46_top_level R261). -/
structure StagesKeep (P I : State → Prop) : Prop where
  freq      : BodyKeeps P I freqBody
  build     : BodyKeeps P I buildBody
  codegen   : BodyKeeps P I codegenBody
  pack      : BodyKeeps P I packBody
  serialize : BodyKeeps P I serializeBody
  parse     : BodyKeeps P I parseBody
  matchBits : BodyKeeps P I matchBody

/-- What the stages keep, every command's body keeps: ENCODE and DECODE are made of stages (46_top_level R270, R272). -/
theorem StagesKeep.commandBody {P I : State → Prop} (h : StagesKeep P I) {i : Instr} {body : State → Ran}
    (hi : commandBody i = some body) : BodyKeeps P I body := by
  cases i <;> cases hi
  case freq => exact h.freq
  case build => exact h.build
  case codegen => exact h.codegen
  case pack => exact h.pack
  case serialize => exact h.serialize
  case parse => exact h.parse
  case matchBits => exact h.matchBits
  case encode =>
    exact fun s hs => ((((h.freq s hs).andThen h.build).andThen h.codegen).andThen h.pack).andThen h.serialize
  case decode => exact fun s hs => (h.parse s hs).andThen h.matchBits

/-- What has to be shown for `I` to be kept by every step: `P` is what holds of the state while a command runs. -/
structure KeptByParts (I P : State → Prop) : Prop where
  host    : ∀ (s : State) (h : HostSide), I s → I { s with host := h }
  begin   : ∀ s : State, I s → s.mode = .idle → P s.beginCommand
  stages  : StagesKeep P I
  finish  : ∀ s : State, P s → I s.endCommand
  illegal : ∀ (s : State) (w : Word), P s.beginCommand → I (s.beginCommand.raise .illegalCommand w)
  clear   : ∀ s : State, I s → I s.cleared
  reset   : ∀ s : State, I s → I s.resetAgain
  reg     : ∀ (s : State) (n : Nat) (v : Word), I s → I (s.regWrite n v)
  mem     : ∀ (s : State) (sp : Space) (i : Nat) (b : Byte), sp ≠ .pay → i < s.params.capOf sp → I s →
    I (s.setMem sp ((s.mem sp).set i b))

theorem KeptByParts.acts {I P : State → Prop} (h : KeptByParts I P) {a : HostAction} {s t : State} (hs : I s)
    (ha : Acts a s t) : I t := by
  cases ha with
  | dropped => exact hs
  | ended hw hi hm hu =>
    have hmeets := h.stages.commandBody hi _ (h.begin s hs hm)
    rw [hu] at hmeets
    exact h.finish _ hmeets
  | raised hw hi hm hu =>
    have hmeets := h.stages.commandBody hi _ (h.begin s hs hm)
    rw [hu] at hmeets
    exact hmeets
  | cleared hw hm => exact h.clear s hs
  | illegal hw hm => exact h.illegal s _ (h.begin s hs hm)
  | regWritten hn hm => exact h.reg s _ _ hs
  | memWritten hm hsp hi => exact h.mem s _ _ _ hsp hi hs
  | read side => exact h.host s side hs
  | reset => exact h.reset s hs

/-- The induction over a step: an invariant kept by every part is kept by every step. -/
theorem KeptByParts.step {I P : State → Prop} (h : KeptByParts I P) {s t : State} (hs : I s)
    (hst : step s = .next t) : I t := by
  rcases step_acts hst with ⟨_, rfl⟩ | ⟨a, rest, _, ha⟩
  · exact hs
  · exact h.acts (h.host s _ hs) ha

/-- A register write by the host reaches RAW_LEN, TAG_LEN or CTR_LEN, or nothing (10_state R21). -/
theorem regWrite_cases (s : State) (n : Nat) (v : Word) :
    (n = 5 ∧ s.regWrite n v = { s with rawLen := v }) ∨ (n = 6 ∧ s.regWrite n v = { s with tagLen := v.setWidth 8 })
      ∨ (n = 7 ∧ s.regWrite n v = { s with ctrLen := v }) ∨ (n ∉ [5, 6, 7] ∧ s.regWrite n v = s) := by
  by_cases h5 : n = 5
  · subst h5; exact .inl ⟨rfl, rfl⟩
  by_cases h6 : n = 6
  · subst h6; exact .inr (.inl ⟨rfl, rfl⟩)
  by_cases h7 : n = 7
  · subst h7; exact .inr (.inr (.inl ⟨rfl, rfl⟩))
  · refine .inr (.inr (.inr ⟨by simp [h5, h6, h7], ?_⟩))
    match n, h5, h6, h7 with
    | 0, _, _, _ | 1, _, _, _ | 2, _, _, _ | 3, _, _, _ | 4, _, _, _ | _ + 8, _, _, _ => rfl

/-! PARSE_body, which no lemma above opens (44_container R220 to R229) -/

/-- PARSE after the table: a raise that changes nothing else, or the end with a payload that is long enough and fits. -/
theorem parseTail_cases (s : State) (cnt : Nat) (c : Cursor) :
    (∃ e info, parseTail s cnt c = .raised (s.raise e info))
      ∨ ∃ pad nbits rest, be nbits ≤ 8 * rest.length ∧ rest.length ≤ s.params.payCap.cells
        ∧ nbits.length = 4 ∧ rest.length ≤ c.rest.length
        ∧ parseTail s cnt c = .ended { s with
            status := { s.status with cbV := true, payV := true }
            pay := s.pay.write 0 rest
            symCnt := BitVec.ofNat 32 cnt
            padLen := BitVec.ofNat 8 (be pad)
            bitLen := BitVec.ofNat 32 (be nbits)
            payLen := BitVec.ofNat 32 rest.length } := by
  unfold parseTail
  split
  · exact .inl ⟨_, _, rfl⟩
  · rename_i pad c₁ h₁
    split
    · exact .inl ⟨_, _, rfl⟩
    · rename_i nbits c₂ h₂
      obtain ⟨_, _, _, hr₁⟩ := Cursor.field_some h₁
      obtain ⟨hk, hn, _, hr₂⟩ := Cursor.field_some h₂
      split
      · exact .inl ⟨_, _, rfl⟩
      · split
        · exact .inl ⟨_, _, rfl⟩
        · refine .inr ⟨pad, nbits, c₂.rest, by omega, by omega, by simp [hn, hk], ?_, rfl⟩
          simp only [hr₂, hr₁, List.length_drop]
          omega

/-- The state with other listed records in CB. -/
abbrev State.withCodes (s : State) (cb : List Code) : State := { s with cb := ⟨cb, s.cb.stamp⟩ }

/-- PARSE from symbol_count on: a raise that changes nothing else, or the entry loop over the cleared codebook, short or
whole. -/
theorem parseTable_cases (s : State) (c : Cursor) :
    (∃ info, parseTable s c = .raised (s.raise .truncatedContainer info))
      ∨ ∃ cnt c₁,
        (∃ rp cb, readEntries (be cnt) c₁ clearedCb = .short rp cb
          ∧ parseTable s c = .raised ((s.withCodes cb).raise .truncatedContainer (BitVec.ofNat 32 rp)))
        ∨ ∃ c₂ cb, readEntries (be cnt) c₁ clearedCb = .whole c₂ cb
          ∧ parseTable s c = parseTail (s.withCodes cb) (be cnt) c₂ := by
  unfold parseTable
  split
  · exact .inl ⟨_, rfl⟩
  · rename_i cnt c₁ h₁
    refine .inr ⟨cnt, c₁, ?_⟩
    cases hr : readEntries (be cnt) c₁ clearedCb with
    | short rp cb => exact .inl ⟨rp, cb, rfl, rfl⟩
    | whole c₂ cb => exact .inr ⟨c₂, cb, rfl, rfl⟩

/-- The state PARSE starts on: PHASE is its unit, CB_V and PAY_V are 0. -/
abbrev State.parsing (s : State) : State := ((s.setPhase .fp).setFlag .cb false).setFlag .pay false

/-- The state once PARSE has read the tag, whose length field is `len`. -/
abbrev State.tagRead (s : State) (len tag : List Byte) : State :=
  { s.parsing with tag := s.tag.write 0 tag, tagLen := BitVec.ofNat 8 (be len) }

/-- PARSE: a raise before the tag is read in full, a tag that is not valid, or the reading from symbol_count on. -/
theorem parseBody_cases (s : State) :
    (∃ e info, parseBody s = .raised (s.parsing.raise e info))
      ∨ ∃ len tag c, tag.length = be len ∧
        ((s.params.tagValid tag = false
          ∧ parseBody s = .raised ((s.tagRead len tag).raise .extensionDecode (BitVec.ofNat 32 (be len))))
        ∨ (s.params.tagValid tag = true ∧ parseBody s = parseTable (s.tagRead len tag) c)) := by
  unfold parseBody
  simp only
  split
  · exact .inl ⟨_, _, rfl⟩
  · split
    · exact .inl ⟨_, _, rfl⟩
    · split
      · exact .inl ⟨_, _, rfl⟩
      · rename_i len c₁ h₁ _ tag c₂ h₂
        obtain ⟨hk, ht, _, _⟩ := Cursor.field_some h₂
        refine .inr ⟨len, tag, c₂, by simp [ht, hk], ?_⟩
        cases hv : s.params.tagValid tag with
        | false => exact .inl ⟨rfl, if_neg (by simpa using hv)⟩
        | true => exact .inr ⟨rfl, if_pos (by simpa using hv)⟩

end Sys2Proof.Machine
end

section
/-! PROOFS. The mode bits, ERR_CODE and PHASE (10_state R27, R29, 60_exceptions R291, R305). -/

namespace Sys2Proof.Machine

/-- What holds of the mode bits and the fault registers while a command runs (46_top_level R260). -/
structure State.Running (s : State) : Prop where
  done    : s.status.done = false
  err     : s.status.err = false
  errCode : s.errCode = 0
  errInfo : s.errInfo = 0

theorem ErrKind.code_bounds (e : ErrKind) : 1 ≤ e.code.toNat ∧ e.code.toNat ≤ 8 := by cases e <;> decide

theorem Position.code_bounds {u : Position} (h : u ≠ .idle) : 1 ≤ u.code.toNat ∧ u.code.toNat ≤ 8 := by
  cases u
  case idle => exact absurd rfl h
  all_goals decide

/-- A raise by a unit makes a legal FAULT mode (60_exceptions R300). -/
theorem modeOk_raise {s : State} {e : ErrKind} {info : Word} (u : Position) (hu : u ≠ .idle) (hp : s.phase = u.code)
    (hs : s.status.done = false) : (s.raise e info).modeOk := by
  obtain ⟨he₁, he₈⟩ := e.code_bounds
  obtain ⟨hu₁, hu₈⟩ := Position.code_bounds hu
  rw [← hp] at hu₁ hu₈
  exact ⟨rfl, by simp [hs], by simp, fun _ => ⟨he₁, he₈, hu₁, hu₈⟩⟩

/-- The same of a body that ends in the raise. -/
theorem meets_raised {s : State} {e : ErrKind} {info : Word} (u : Position) (hu : u ≠ .idle) (hp : s.phase = u.code)
    (hs : s.status.done = false) : (Ran.raised (s.raise e info)).Meets State.Running State.modeOk :=
  modeOk_raise u hu hp hs

theorem modeOk_endCommand {s : State} (hs : s.Running) : s.endCommand.modeOk :=
  ⟨rfl, by simp [hs.err], fun _ => ⟨hs.errCode, hs.errInfo, rfl⟩, by simp [hs.err]⟩

theorem running_beginCommand {s : State} (hs : s.modeOk) (hm : s.mode = .idle) : s.beginCommand.Running := by
  obtain ⟨_, he⟩ := s.mode_idle_iff.mp hm
  obtain ⟨_, _, hzero, _⟩ := hs
  obtain ⟨hc, hi, _⟩ := hzero he
  exact ⟨rfl, he, hc, hi⟩

theorem freqBody_keepsModeLegal : BodyKeeps State.Running State.modeOk freqBody := by
  intro s ⟨hd, he, hc, hi⟩
  rcases freqBody_cases s with ⟨_, h⟩ | ⟨_, _, h⟩ | ⟨_, _, h⟩ <;> rw [h]
  · exact meets_raised .fa (by decide) rfl hd
  · exact meets_raised .fa (by decide) rfl hd
  · exact ⟨hd, he, hc, hi⟩

theorem buildBody_keepsModeLegal : BodyKeeps State.Running State.modeOk buildBody := by
  intro s ⟨hd, he, hc, hi⟩
  rcases buildBody_cases s with ⟨_, h⟩ | ⟨_, _, h⟩ | ⟨_, _, f, _, h⟩ | ⟨_, _, rows, _, h⟩ <;> rw [h]
  · exact meets_raised .tb (by decide) rfl hd
  · exact meets_raised .tb (by decide) rfl hd
  · trivial
  · exact ⟨hd, he, hc, hi⟩

theorem codegenBody_keepsModeLegal : BodyKeeps State.Running State.modeOk codegenBody := by
  intro s ⟨hd, he, hc, hi⟩
  rcases codegenBody_cases s with ⟨_, h⟩ | ⟨_, _, h⟩ | ⟨_, w, _, h⟩ <;> rw [h]
  · exact meets_raised .cg (by decide) rfl hd
  · trivial
  · exact ⟨hd, he, hc, hi⟩

theorem packBody_keepsModeLegal : BodyKeeps State.Running State.modeOk packBody := by
  intro s ⟨hd, he, hc, hi⟩
  rcases packBody_cases s with ⟨_, h⟩ | ⟨_, _, h⟩ | ⟨_, _, e, info, w, _, h⟩ | ⟨_, _, w, _, h⟩ <;> rw [h]
  · exact meets_raised .bp (by decide) rfl hd
  · exact meets_raised .bp (by decide) rfl hd
  · exact meets_raised .bp (by decide) rfl hd
  · exact ⟨hd, he, hc, hi⟩

theorem serializeBody_keepsModeLegal : BodyKeeps State.Running State.modeOk serializeBody := by
  intro s ⟨hd, he, hc, hi⟩
  rcases serializeBody_cases s with ⟨_, h⟩ | ⟨_, _, _, h⟩ | ⟨_, _, _, h⟩ <;> rw [h]
  · exact meets_raised .fs (by decide) rfl hd
  · exact meets_raised .fs (by decide) rfl hd
  · exact ⟨hd, he, hc, hi⟩

theorem matchBody_keepsModeLegal : BodyKeeps State.Running State.modeOk matchBody := by
  intro s ⟨hd, he, hc, hi⟩
  rcases matchBody_cases s with ⟨_, h⟩ | ⟨_, _, _, h⟩ | ⟨_, _, _, wp, raw, _, h⟩ |
    ⟨_, _, _, a, wp, raw, _, ⟨_, h⟩ | ⟨_, h⟩⟩ <;> rw [h]
  · exact meets_raised .du (by decide) rfl hd
  · exact meets_raised .du (by decide) rfl hd
  · exact meets_raised .du (by decide) rfl hd
  · exact meets_raised .du (by decide) rfl hd
  · exact ⟨hd, he, hc, hi⟩

theorem parseTail_keepsModeLegal {s : State} (hs : s.Running) (hp : s.phase = Position.fp.code) (cnt : Nat)
    (c : Cursor) : (parseTail s cnt c).Meets State.Running State.modeOk := by
  rcases parseTail_cases s cnt c with ⟨e, info, h⟩ | ⟨pad, nbits, rest, _, _, _, _, h⟩ <;> rw [h]
  · exact meets_raised .fp (by decide) hp hs.done
  · exact ⟨hs.done, hs.err, hs.errCode, hs.errInfo⟩

theorem parseTable_keepsModeLegal {s : State} (hs : s.Running) (hp : s.phase = Position.fp.code) (c : Cursor) :
    (parseTable s c).Meets State.Running State.modeOk := by
  rcases parseTable_cases s c with ⟨info, h⟩ | ⟨cnt, c₁, ⟨rp, cb, _, h⟩ | ⟨c₂, cb, _, h⟩⟩ <;> rw [h]
  · exact meets_raised .fp (by decide) hp hs.done
  · exact meets_raised .fp (by decide) hp hs.done
  · exact parseTail_keepsModeLegal (s := s.withCodes cb) ⟨hs.done, hs.err, hs.errCode, hs.errInfo⟩ hp _ _

theorem parseBody_keepsModeLegal : BodyKeeps State.Running State.modeOk parseBody := by
  intro s ⟨hd, he, hc, hi⟩
  rcases parseBody_cases s with ⟨e, info, h⟩ | ⟨len, tag, c, _, ⟨_, h⟩ | ⟨_, h⟩⟩ <;> rw [h]
  · exact meets_raised .fp (by decide) rfl hd
  · exact meets_raised .fp (by decide) rfl hd
  · exact parseTable_keepsModeLegal (s := s.tagRead len tag) ⟨hd, he, hc, hi⟩ rfl _

theorem modeOk_regWrite {s : State} (hs : s.modeOk) (n : Nat) (v : Word) : (s.regWrite n v).modeOk := by
  rcases regWrite_cases s n v with ⟨_, h⟩ | ⟨_, h⟩ | ⟨_, h⟩ | ⟨_, h⟩ <;> rw [h] <;> exact hs

/-- Every part of a step keeps the mode bits and the fault registers legal. -/
theorem modeOk_keptByParts : KeptByParts State.modeOk State.Running where
  host _ _ hs := hs
  begin _ hs hm := running_beginCommand hs hm
  stages :=
    { freq := freqBody_keepsModeLegal, build := buildBody_keepsModeLegal, codegen := codegenBody_keepsModeLegal,
      pack := packBody_keepsModeLegal, serialize := serializeBody_keepsModeLegal, parse := parseBody_keepsModeLegal,
      matchBits := matchBody_keepsModeLegal }
  finish _ hs := modeOk_endCommand hs
  illegal _ _ hs := modeOk_raise .seq (by decide) rfl hs.done
  clear _ _ := by simp [State.modeOk]
  reset _ _ := by simp [State.modeOk, Status.reset]
  reg _ n v hs := modeOk_regWrite hs n v
  mem _ sp _ _ _ _ hs := by cases sp <;> exact hs

/-- Settles O50, by `modeOk_keptByParts`: a command begins in IDLE mode, and each stage ends with the fault registers 0
or raises with its own PHASE. -/
theorem stepKeepsModeLegal : Obligations.StepKeepsModeLegal :=
  fun _ _ hs hst => modeOk_keptByParts.step hs hst

end Sys2Proof.Machine
end

section
/-! PROOFS. The codebook of every run: 256 fitting records while CB_V = 1 (10_state R38, 42_codebook R173, 44_container
R224 to R227). -/

namespace Sys2Proof.Machine

/-- 256 records, each one fitting its length and clear when it is not valid. -/
def FittingTable (cb : List Code) : Prop := cb.length = nsym ∧ ∀ c ∈ cb, CodeFits c

theorem fittingTable_clearedCb : FittingTable clearedCb := by
  refine ⟨List.length_replicate, fun c hc => ?_⟩
  rw [List.eq_of_mem_replicate hc]
  exact ⟨by decide, fun _ => rfl⟩

theorem FittingTable.set {cb : List Code} (h : FittingTable cb) (v : Nat) {c : Code} (hc : CodeFits c) :
    FittingTable (cb.set v c) := by
  obtain ⟨hlen, hfit⟩ := h
  refine ⟨by simpa using hlen, fun d hd => ?_⟩
  rcases List.mem_or_eq_of_mem_set hd with hd | rfl
  · exact hfit d hd
  · exact hc

/-- A valid record made of a length up to MAXLEN and a value below 2^len holds both without loss. -/
theorem codeFits_of_lt {l v : Nat} (hl : l ≤ maxLen) (hv : v < 2 ^ l) :
    CodeFits ⟨true, BitVec.ofNat 8 l, BitVec.ofNat 255 v⟩ := by
  have hl' : l % 2 ^ 8 = l := Nat.mod_eq_of_lt (Nat.lt_succ_of_le hl)
  have hv' : v < 2 ^ 255 := Nat.lt_of_lt_of_le hv (Nat.pow_le_pow_right (by decide) hl)
  refine ⟨?_, fun h => by cases h⟩
  rw [BitVec.toNat_ofNat, BitVec.toNat_ofNat, hl', Nat.mod_eq_of_lt hv']
  exact hv

/-- The walk keeps the table fitting: level and length of the path add up to MAXLEN + 1, and a path of l bits is a number
below 2^l (42_codebook R172 to R174). -/
theorem walk_fittingTable {s : State} {levels i l v : Nat} {w w' : Walked} (hl : l + levels = maxLen + 1)
    (hv : v < 2 ^ l) (hw : FittingTable w.cb) (h : walk s levels i l v w = some w') : FittingTable w'.cb := by
  induction levels generalizing i l v w w' with
  | zero => cases h
  | succ n ih =>
    have hl₁ : l + 1 + n = maxLen + 1 := by omega
    have hleft : 2 * v < 2 ^ (l + 1) := by rw [Nat.pow_succ]; omega
    have hright : 2 * v + 1 < 2 ^ (l + 1) := by rw [Nat.pow_succ]; omega
    simp only [walk] at h
    split at h
    · split at h
      · cases h
        exact hw.set _ (codeFits_of_lt (by omega) hv)
      · split at h
        · cases h
        · rename_i w₁ h₁
          have hw₁ := ih hl₁ hleft hw h₁
          split at h
          · exact ih hl₁ hright hw₁ h
          · cases h
            exact hw₁
    · cases h

theorem walkTree_fittingTable {s : State} {w : Walked} (h : walkTree s = some w) : FittingTable w.cb := by
  unfold walkTree at h
  split at h
  · cases h
  · rename_i w₁ hw₁
    split at h <;> cases h
    exact walk_fittingTable (by decide) (by decide) fittingTable_clearedCb hw₁

/-- The records of an entry loop, however it ends. -/
def TableRead.records : TableRead → List Code
  | .whole _ cb => cb
  | .short _ cb => cb

/-- The entry loop keeps the table fitting: the bits of a value above its length are dropped (44_container R227). -/
theorem readEntries_fittingTable (cnt : Nat) (c : Cursor) {cb : List Code} (hcb : FittingTable cb) :
    FittingTable (readEntries cnt c cb).records := by
  induction cnt generalizing c cb with
  | zero => exact hcb
  | succ n ih =>
    rw [readEntries]
    split
    · exact hcb
    · split
      · exact hcb
      · rename_i len c₂ h₂
        split
        · exact hcb
        · obtain ⟨hk, hlen, _, _⟩ := Cursor.field_some h₂
          have hone : len.length = 1 := by simp [hlen, hk]
          have hbe := be_lt len
          rw [hone] at hbe
          exact ih _ (hcb.set _ (codeFits_of_lt (Nat.le_of_lt_succ hbe) (Nat.mod_lt _ (Nat.two_pow_pos _))))

/-- A state with a fitting table has a fitting codebook, whatever CB_V is. -/
theorem cbOk_of_fittingTable {s : State} (h : FittingTable s.cb.rows) : s.cbOk :=
  ⟨.inl h.1, fun _ => h.1, h.2⟩

/-- An update that keeps CB and does not set CB_V keeps the codebook fitting. -/
theorem cbOk_congr {s t : State} (hs : s.cbOk) (hcb : t.cb = s.cb)
    (hv : t.status.cbV = true → s.status.cbV = true) : t.cbOk := by
  obtain ⟨hlen, hfull, hfit⟩ := hs
  exact ⟨hcb ▸ hlen, fun h => hcb ▸ hfull (hv h), hcb ▸ hfit⟩

theorem freqBody_keepsCodebook : BodyKeeps State.cbOk State.cbOk freqBody := by
  intro s hs
  rcases freqBody_cases s with ⟨_, h⟩ | ⟨_, _, h⟩ | ⟨_, _, h⟩ <;> rw [h] <;> exact cbOk_congr hs rfl id

theorem buildBody_keepsCodebook : BodyKeeps State.cbOk State.cbOk buildBody := by
  intro s hs
  rcases buildBody_cases s with ⟨_, h⟩ | ⟨_, _, h⟩ | ⟨_, _, f, _, h⟩ | ⟨_, _, rows, _, h⟩ <;> rw [h]
  · exact cbOk_congr hs rfl id
  · exact cbOk_congr hs rfl id
  · trivial
  · exact cbOk_congr hs rfl id

theorem codegenBody_keepsCodebook : BodyKeeps State.cbOk State.cbOk codegenBody := by
  intro s hs
  rcases codegenBody_cases s with ⟨_, h⟩ | ⟨_, _, h⟩ | ⟨_, w, hw, h⟩ <;> rw [h]
  · exact cbOk_congr hs rfl (by simp)
  · trivial
  · exact cbOk_of_fittingTable (walkTree_fittingTable hw)

theorem packBody_keepsCodebook : BodyKeeps State.cbOk State.cbOk packBody := by
  intro s hs
  rcases packBody_cases s with ⟨_, h⟩ | ⟨_, _, h⟩ | ⟨_, _, e, info, w, _, h⟩ | ⟨_, _, w, _, h⟩ <;> rw [h] <;>
    exact cbOk_congr hs rfl id

theorem serializeBody_keepsCodebook : BodyKeeps State.cbOk State.cbOk serializeBody := by
  intro s hs
  rcases serializeBody_cases s with ⟨_, h⟩ | ⟨_, _, _, h⟩ | ⟨_, _, _, h⟩ <;> rw [h] <;> exact cbOk_congr hs rfl id

theorem matchBody_keepsCodebook : BodyKeeps State.cbOk State.cbOk matchBody := by
  intro s hs
  rcases matchBody_cases s with ⟨_, h⟩ | ⟨_, _, _, h⟩ | ⟨_, _, _, wp, raw, _, h⟩ |
    ⟨_, _, _, a, wp, raw, _, ⟨_, h⟩ | ⟨_, h⟩⟩ <;> rw [h] <;> exact cbOk_congr hs rfl id

theorem parseTail_keepsCodebook {s : State} (hs : FittingTable s.cb.rows) (cnt : Nat) (c : Cursor) :
    (parseTail s cnt c).Meets State.cbOk State.cbOk := by
  rcases parseTail_cases s cnt c with ⟨e, info, h⟩ | ⟨pad, nbits, rest, _, _, _, _, h⟩ <;> rw [h] <;>
    exact cbOk_of_fittingTable hs

/-- PARSE sets CB_V only over the table its entry loop has made. -/
theorem parseTable_keepsCodebook {s : State} (hs : s.cbOk) (c : Cursor) :
    (parseTable s c).Meets State.cbOk State.cbOk := by
  rcases parseTable_cases s c with ⟨info, h⟩ | ⟨cnt, c₁, ⟨rp, cb, hr, h⟩ | ⟨c₂, cb, hr, h⟩⟩ <;> rw [h]
  · exact cbOk_congr hs rfl id
  all_goals
    have hcb := readEntries_fittingTable (be cnt) c₁ fittingTable_clearedCb
    rw [hr] at hcb
  · exact cbOk_of_fittingTable hcb
  · exact parseTail_keepsCodebook (s := s.withCodes cb) hcb _ _

theorem parseBody_keepsCodebook : BodyKeeps State.cbOk State.cbOk parseBody := by
  intro s hs
  have hp : s.parsing.cbOk := cbOk_congr hs rfl (by simp)
  rcases parseBody_cases s with ⟨e, info, h⟩ | ⟨len, tag, c, _, ⟨_, h⟩ | ⟨_, h⟩⟩ <;> rw [h]
  · exact cbOk_congr hp rfl id
  · exact cbOk_congr hp rfl id
  · exact parseTable_keepsCodebook (s := s.tagRead len tag) (cbOk_congr hp rfl id) _

theorem cbOk_regWrite {s : State} (hs : s.cbOk) (n : Nat) (v : Word) : (s.regWrite n v).cbOk := by
  rcases regWrite_cases s n v with ⟨_, h⟩ | ⟨_, h⟩ | ⟨_, h⟩ | ⟨_, h⟩ <;> rw [h] <;> exact hs

/-- Every part of a step keeps the codebook fitting; CLR and reset leave no record listed and CB_V = 0. -/
theorem cbOk_keptByParts : KeptByParts State.cbOk State.cbOk where
  host _ _ hs := hs
  begin _ hs _ := hs
  stages :=
    { freq := freqBody_keepsCodebook, build := buildBody_keepsCodebook, codegen := codegenBody_keepsCodebook,
      pack := packBody_keepsCodebook, serialize := serializeBody_keepsCodebook, parse := parseBody_keepsCodebook,
      matchBits := matchBody_keepsCodebook }
  finish _ hs := hs
  illegal _ _ hs := hs
  clear _ _ := by simp [State.cbOk]
  reset _ _ := by simp [State.cbOk, Status.reset]
  reg _ n v hs := cbOk_regWrite hs n v
  mem _ sp _ _ _ _ hs := by cases sp <;> exact hs

/-- Settles O53, by `cbOk_keptByParts`: CODEGEN and PARSE alone write CB, over the cleared codebook, and each record they
write fits. -/
theorem stepKeepsCodebookFitting : Obligations.StepKeepsCodebookFitting :=
  fun _ _ hs hst => cbOk_keptByParts.step hs hst

end Sys2Proof.Machine
end

section
/-! PROOFS. BUILD's tree: the live set is a forest over the leaves at every merge (41_tree_builder R150 to R164), so NODE
ends as one tree of BUILD's two shapes in which every node but the root has one parent (10_state R36, R37). -/

namespace Sys2Proof.Machine

/-! ExtractMin (R152) as a rearrangement of the live set -/

theorem leastOf_mem (x : Live) (ys : List Live) : leastOf x ys ∈ x :: ys := by
  induction ys generalizing x with
  | nil => exact List.mem_singleton_self x
  | cons y ys ih =>
    rw [leastOf]
    rcases List.mem_cons.mp (ih (if Live.before y x then y else x)) with h | h
    · rw [h]
      split <;> simp
    · exact List.mem_cons_of_mem _ (List.mem_cons_of_mem _ h)

theorem extractMin_eq_none {live : List Live} (h : extractMin live = none) : live = [] := by
  cases live with
  | nil => rfl
  | cons x xs => cases h

/-- ExtractMin takes one member of a live set with distinct indices and leaves the others. -/
theorem extractMin_perm {live rest : List Live} {m : Live} (hnd : (live.map Prod.fst).Nodup)
    (h : extractMin live = some (m, rest)) : live.Perm (m :: rest) := by
  cases live with
  | nil => cases h
  | cons x xs =>
    cases h
    have hm := leastOf_mem x xs
    have hrest : (x :: xs).filter (fun y => y.1 != (leastOf x xs).1) = (x :: xs).erase (leastOf x xs) := by
      rw [hnd.of_map.erase_eq_filter]
      refine List.filter_congr fun y hy => ?_
      rw [Bool.eq_iff_iff, bne_iff_ne, bne_iff_ne]
      exact not_congr ⟨fun he => List.inj_on_of_nodup_map hnd hy hm he, fun he => he ▸ rfl⟩
    rw [hrest]
    exact List.perm_cons_erase hm

/-! The merge loop (R150) -/

/-- Induction over the merges: what a merge of the two members extracted keeps holds at the end, with at most one member
left. The fuel of n is enough for n leaves (R159). -/
theorem mergeLoop_induction {P : List Live → List Node → Prop}
    (hnodup : ∀ live rows, P live rows → (live.map Prod.fst).Nodup)
    (hmerge : ∀ live rows a live₁ b rest, P live rows → extractMin live = some (a, live₁) →
      extractMin live₁ = some (b, rest) → live.Perm (a :: b :: rest) → a.2.freq.toNat + b.2.freq.toNat < 2 ^ 32 →
        P (rest ++ [(rows.length, mergeNode a b)]) (rows ++ [mergeNode a b]))
    {fuel : Nat} {live : List Live} {rows rows' : List Node} (hfuel : live.length ≤ fuel + 1) (hP : P live rows)
    (h : mergeLoop fuel live rows = .ok rows') : ∃ live', P live' rows' ∧ live'.length ≤ 1 := by
  induction fuel generalizing live rows with
  | zero => cases h; exact ⟨live, hP, hfuel⟩
  | succ fuel ih =>
    have hnd := hnodup live rows hP
    rw [mergeLoop] at h
    split at h
    · rename_i hnone
      cases h
      exact ⟨live, hP, by simp [extractMin_eq_none hnone]⟩
    · rename_i a live₁ ha
      have hperm := extractMin_perm hnd ha
      split at h
      · rename_i hnone
        cases h
        exact ⟨live, hP, by simp [hperm.length_eq, extractMin_eq_none hnone]⟩
      · rename_i b rest hb
        have hnd₁ : (live₁.map Prod.fst).Nodup := ((hperm.map Prod.fst).nodup_iff.mp hnd).of_cons
        have hperm₂ : live.Perm (a :: b :: rest) := hperm.trans ((extractMin_perm hnd₁ hb).cons a)
        have hlen := hperm₂.length_eq
        split at h
        · rename_i hsum
          refine ih ?_ (hmerge live rows a live₁ b rest hP ha hb hperm₂ hsum) h
          simp only [List.length_cons, List.length_append, List.length_nil] at hlen ⊢
          omega
        · cases h

/-! Trees in a list of records -/

/-- The indices of a record's children (10_state R36). -/
def childrenOf (nd : Node) : List Nat :=
  if nd.leaf then [] else nd.left.toNat :: (if nd.rv then [nd.right.toNat] else [])

theorem State.children_eq (s : State) (i : Nat) : s.children i = childrenOf (s.nodeAt i) := rfl

theorem State.nodeAt_of_rows {s : State} {i : Nat} {nd : Node} (h : s.node.rows[i]? = some nd) : s.nodeAt i = nd := by
  simp [State.nodeAt, h]

/-- The children of the records listed in NODE, record by record. -/
theorem State.children_of_rows (s : State) :
    (List.range s.node.rows.length).flatMap s.children = s.node.rows.flatMap childrenOf := by
  have hrows : (List.range s.node.rows.length).map s.nodeAt = s.node.rows := by
    apply List.ext_getElem (by simp)
    intro i _ hi
    simpa using State.nodeAt_of_rows (List.getElem?_eq_getElem hi)
  conv_rhs => rw [← hrows]
  rw [List.flatMap_map]
  rfl

/-- The records hold the tree below the index. -/
def TreeAt (rows : List Node) : HTree → Nat → Prop
  | .leaf v, i   => ∃ nd, rows[i]? = some nd ∧ nd.leaf = true ∧ nd.sym = v
  | .single h, i => ∃ nd, rows[i]? = some nd ∧ nd.leaf = false ∧ nd.rv = false ∧ TreeAt rows h nd.left.toNat
  | .fork l r, i => ∃ nd, rows[i]? = some nd ∧ nd.leaf = false ∧ nd.rv = true ∧ TreeAt rows l nd.left.toNat
      ∧ TreeAt rows r nd.right.toNat

/-- Records added at the end change no tree. -/
theorem TreeAt.append {rows : List Node} {h : HTree} {i : Nat} (ht : TreeAt rows h i) (more : List Node) :
    TreeAt (rows ++ more) h i := by
  have hget : ∀ {j nd}, rows[j]? = some nd → (rows ++ more)[j]? = some nd := fun hj => by
    obtain ⟨hlt, _⟩ := List.getElem?_eq_some_iff.mp hj
    rw [List.getElem?_append_left hlt, hj]
  induction h generalizing i with
  | leaf v =>
    obtain ⟨nd, hi, hl, hv⟩ := ht
    exact ⟨nd, hget hi, hl, hv⟩
  | single h ih =>
    obtain ⟨nd, hi, hl, hrv, hc⟩ := ht
    exact ⟨nd, hget hi, hl, hrv, ih hc⟩
  | fork l r ihl ihr =>
    obtain ⟨nd, hi, hl, hrv, hcl, hcr⟩ := ht
    exact ⟨nd, hget hi, hl, hrv, ihl hcl, ihr hcr⟩

/-- The number of edges on the longest path. -/
def HTree.depth : HTree → Nat
  | .leaf _   => 0
  | .single h => h.depth + 1
  | .fork l r => max l.depth r.depth + 1

/-- The tree the records hold is the one read from NODE, given levels enough. -/
theorem readTree_of_treeAt {s : State} (hsize : s.node.rows.length ≤ nnode) {h : HTree} {levels i : Nat}
    (hd : h.depth < levels) (ht : TreeAt s.node.rows h i) : readTree s levels i = some h := by
  have hlt : ∀ {j nd}, s.node.rows[j]? = some nd → j < nnode := fun hj =>
    Nat.lt_of_lt_of_le (List.getElem?_eq_some_iff.mp hj).1 hsize
  induction h generalizing levels i with
  | leaf v =>
    obtain ⟨nd, hi, hl, hv⟩ := ht
    obtain ⟨n, rfl⟩ : ∃ n, levels = n + 1 := ⟨levels - 1, by omega⟩
    simp [readTree, hlt hi, State.nodeAt_of_rows hi, hl, hv]
  | single h ih =>
    obtain ⟨nd, hi, hl, hrv, hc⟩ := ht
    obtain ⟨n, rfl⟩ : ∃ n, levels = n + 1 := ⟨levels - 1, by omega⟩
    simp [readTree, hlt hi, State.nodeAt_of_rows hi, hl, hrv, ih (by simpa [HTree.depth] using hd) hc]
  | fork l r ihl ihr =>
    obtain ⟨nd, hi, hl, hrv, hcl, hcr⟩ := ht
    obtain ⟨n, rfl⟩ : ∃ n, levels = n + 1 := ⟨levels - 1, by omega⟩
    simp only [HTree.depth] at hd
    simp [readTree, hlt hi, State.nodeAt_of_rows hi, hl, hrv, ihl (levels := n) (by omega) hcl,
      ihr (levels := n) (by omega) hcr]

/-- A tree whose internal nodes have two children has more leaves than levels below the root (R163). -/
theorem HTree.depth_lt_of_full {h : HTree} (hf : h.full = true) : h.depth < h.symbols.length := by
  induction h with
  | leaf v => simp [HTree.depth, HTree.symbols]
  | single h => cases hf
  | fork l r ihl ihr =>
    simp only [HTree.full, Bool.and_eq_true] at hf
    have hl := ihl hf.1
    have hr := ihr hf.2
    simp only [HTree.depth, HTree.symbols, List.length_append]
    omega

/-- A tree of BUILD's shapes over at most 256 symbols is no deeper than 255 (R163). -/
theorem HTree.depth_lt_of_proper {h : HTree} (hp : h.proper = true) (hs : h.symbols.length ≤ nsym) :
    h.depth < maxLen + 1 := by
  match h with
  | .single (.leaf _) => simp [HTree.depth]
  | .fork l r => exact Nat.lt_of_lt_of_le (HTree.depth_lt_of_full (h := .fork l r) hp) hs

/-- A tree with two children everywhere and at least two leaves is not a leaf. -/
theorem HTree.proper_of_full {h : HTree} (hf : h.full = true) (hs : 2 ≤ h.symbols.length) : h.proper = true := by
  cases h with
  | leaf v => simp [HTree.symbols] at hs
  | single h => cases hf
  | fork l r => exact hf

/-! The forest of the live set -/

/-- The live set and the records during the merges over leaves with the symbols `syms`: every record is live or a child,
once, never both; the live nodes are the roots of full trees that share out the symbols; the last record is live. -/
structure Forest (syms : List Byte) (live : List Live) (rows : List Node) : Prop where
  parents : ∀ j, (rows.flatMap childrenOf).count j + (live.map Prod.fst).count j = if j < rows.length then 1 else 0
  trees   : ∃ ts, List.Forall₂ (fun x h => h.full = true ∧ TreeAt rows h x.1) live ts
    ∧ (ts.flatMap HTree.symbols).Perm syms
  size    : rows.length + live.length = 2 * syms.length
  last    : rows.length - 1 ∈ live.map Prod.fst

section
variable {syms : List Byte} {live : List Live} {rows : List Node}

theorem Forest.nodup (h : Forest syms live rows) : (live.map Prod.fst).Nodup := by
  refine List.nodup_iff_count_le_one.mpr fun j => ?_
  have hj := h.parents j
  split at hj <;> omega

/-- A live index is the index of a record. -/
theorem Forest.lt_length (h : Forest syms live rows) {j : Nat} (hj : j ∈ live.map Prod.fst) : j < rows.length := by
  have hpos := List.count_pos_iff.mpr hj
  have hsum := h.parents j
  split at hsum
  · assumption
  · omega

/-- The children's indices of a merge fit the 9 bits of their fields. -/
theorem Forest.lt_512 (hfew : syms.length ≤ nsym) (h : Forest syms live rows) {j : Nat}
    (hj : j ∈ live.map Prod.fst) : j < 512 := by
  have hsize := h.size
  have hlt := h.lt_length hj
  simp only [nsym] at hfew
  omega

theorem childrenOf_mergeNode {a b : Live} (ha : a.1 < 512) (hb : b.1 < 512) :
    childrenOf (mergeNode a b) = [a.1, b.1] := by
  simp [childrenOf, mergeNode, Nat.mod_eq_of_lt ha, Nat.mod_eq_of_lt hb]

/-- The record of a merge, put behind the others, holds the two trees joined. -/
theorem TreeAt.merge {a b : Live} {ta tb : HTree} (ha : a.1 < 512) (hb : b.1 < 512) (hta : TreeAt rows ta a.1)
    (htb : TreeAt rows tb b.1) : TreeAt (rows ++ [mergeNode a b]) (.fork ta tb) rows.length := by
  refine ⟨mergeNode a b, by simp, rfl, rfl, ?_, ?_⟩
  · simpa [mergeNode, Nat.mod_eq_of_lt ha] using hta.append [mergeNode a b]
  · simpa [mergeNode, Nat.mod_eq_of_lt hb] using htb.append [mergeNode a b]

/-- A merge makes children of two live nodes and makes its own record live (R154). -/
theorem Forest.merge (hfew : syms.length ≤ nsym) (h : Forest syms live rows) {a b : Live} {rest : List Live}
    (hperm : live.Perm (a :: b :: rest)) :
    Forest syms (rest ++ [(rows.length, mergeNode a b)]) (rows ++ [mergeNode a b]) := by
  have hfst := hperm.map Prod.fst
  have ha : a.1 < 512 := h.lt_512 hfew (hfst.mem_iff.mpr (by simp))
  have hb : b.1 < 512 := h.lt_512 hfew (hfst.mem_iff.mpr (by simp))
  refine ⟨fun j => ?_, ?_, ?_, by simp⟩
  · have hj := h.parents j
    rw [hfst.count_eq] at hj
    simp only [List.flatMap_append, List.flatMap_cons, List.flatMap_nil, List.append_nil, childrenOf_mergeNode ha hb,
      List.map_append, List.map_cons, List.map_nil, List.count_append, List.count_cons, List.count_nil,
      List.length_append, List.length_singleton, beq_iff_eq] at hj ⊢
    rcases Nat.lt_trichotomy j rows.length with hlt | rfl | hgt
    · rw [if_pos hlt] at hj
      rw [if_neg (by omega : ¬ rows.length = j), if_pos (by omega : j < rows.length + 1)]
      omega
    · rw [if_neg (by omega : ¬ rows.length < rows.length)] at hj
      rw [if_pos rfl, if_pos (by omega : rows.length < rows.length + 1)]
      omega
    · rw [if_neg (by omega : ¬ j < rows.length)] at hj
      rw [if_neg (by omega : ¬ rows.length = j), if_neg (by omega : ¬ j < rows.length + 1)]
      omega
  · obtain ⟨ts, hts, hsyms⟩ := h.trees
    obtain ⟨ts', hts', hperm'⟩ := List.perm_comp_forall₂ hperm.symm hts
    match ts', hts' with
    | ta :: tb :: us, .cons ⟨hfa, hta⟩ (.cons ⟨hfb, htb⟩ hus) =>
      have hus' := hus.imp fun x t ⟨hf, ht⟩ => And.intro hf (TreeAt.append ht [mergeNode a b])
      have hfork : (HTree.fork ta tb).full = true := by simp [HTree.full, hfa, hfb]
      refine ⟨us ++ [.fork ta tb], List.rel_append hus' (.cons ⟨hfork, TreeAt.merge ha hb hta htb⟩ .nil), ?_⟩
      calc (us ++ [HTree.fork ta tb]).flatMap HTree.symbols
          = us.flatMap HTree.symbols ++ (ta.symbols ++ tb.symbols) := by simp [HTree.symbols]
        List.Perm _ ((ta.symbols ++ tb.symbols) ++ us.flatMap HTree.symbols) := List.perm_append_comm
        _ = (ta :: tb :: us).flatMap HTree.symbols := by simp
        List.Perm _ (ts.flatMap HTree.symbols) := hperm'.flatMap_right _
        List.Perm _ syms := hsyms
  · have hsize := h.size
    have hlen := hperm.length_eq
    simp only [List.length_append, List.length_cons, List.length_nil] at hlen ⊢
    omega

end

/-- Before the first merge every leaf is a tree of its own (R151). -/
theorem forest_liveLeaves {leaves : List Node} (hne : leaves ≠ []) (hleaf : ∀ nd ∈ leaves, nd.leaf = true) :
    Forest (leaves.map Node.sym) (liveLeaves leaves) leaves := by
  have hfst : (liveLeaves leaves).map Prod.fst = List.range leaves.length := List.map_fst_zip (by simp)
  have hlen : 0 < leaves.length := List.length_pos_iff.mpr hne
  refine ⟨fun j => ?_, ⟨leaves.map fun nd => .leaf nd.sym, ?_, ?_⟩, ?_, ?_⟩
  · have hnone : leaves.flatMap childrenOf = [] :=
      List.flatMap_eq_nil_iff.mpr fun nd hnd => by simp [childrenOf, hleaf nd hnd]
    rw [hnone, hfst, List.nodup_range.count]
    simp
  · refine List.forall₂_iff_get.mpr ⟨by simp [liveLeaves], fun i hi _ => ⟨by simp [HTree.full], ?_⟩⟩
    have hi' : i < leaves.length := by simpa [liveLeaves] using hi
    simpa [TreeAt, liveLeaves, hi'] using hleaf _ (List.getElem_mem hi')
  · simp [List.flatMap_map, HTree.symbols, ← List.map_eq_flatMap]
  · simp [liveLeaves]
    omega
  · simp [hfst, hlen]

/-! The finished tree -/

/-- The records are those of a tree of BUILD's two shapes over leaves with the symbols `syms`, its root the last. -/
structure BuiltTree (syms : List Byte) (rows : List Node) : Prop where
  size    : rows.length ≤ nnode
  parents : ∀ j, j < rows.length → j ≠ rows.length - 1 → (rows.flatMap childrenOf).count j = 1
  tree    : ∃ h, TreeAt rows h (rows.length - 1) ∧ h.proper = true ∧ h.symbols.Perm syms

/-- One leaf under the synthetic root (R156). -/
theorem builtTree_syntheticRoot {leaf : Node} (hleaf : leaf.leaf = true) :
    BuiltTree [leaf.sym] [leaf, syntheticRoot leaf] := by
  refine ⟨by simp [nnode], fun j hj hne => ?_, .single (.leaf leaf.sym), ?_, rfl, .refl _⟩
  · obtain rfl : j = 0 := by simp at hj hne; omega
    simp [childrenOf, hleaf, syntheticRoot]
  · exact ⟨syntheticRoot leaf, rfl, rfl, rfl, leaf, rfl, hleaf, rfl⟩

/-- A forest of one tree over at least two leaves is finished. -/
theorem Forest.builtTree {syms : List Byte} {live : List Live} {rows : List Node} (h : Forest syms live rows)
    (hone : live.length ≤ 1) (htwo : 2 ≤ syms.length) (hfew : syms.length ≤ nsym) : BuiltTree syms rows := by
  obtain ⟨hparents, ⟨ts, hts, hsyms⟩, hsize, hlast⟩ := h
  match live, hone with
  | [x], _ =>
    have hx : rows.length - 1 = x.1 := by simpa using hlast
    cases hts with
    | cons ht hnil =>
      cases hnil
      obtain ⟨hfull, ht⟩ := ht
      rw [List.flatMap_singleton] at hsyms
      refine ⟨?_, fun j hj hne => ?_, _, hx ▸ ht, HTree.proper_of_full hfull (hsyms.length_eq ▸ htwo), hsyms⟩
      · simp only [nsym, nnode, List.length_singleton] at *
        omega
      · have hsum := hparents j
        have hxj : ¬ x.1 = j := fun he => hne (by omega)
        rw [if_pos hj] at hsum
        simpa [List.count_cons, hxj] using hsum

/-- BUILD's records over leaves, at most 256 of them, are those of a finished tree (R150 to R156). -/
theorem treeRows_builtTree {leaves rows : List Node} (hne : leaves ≠ []) (hleaf : ∀ nd ∈ leaves, nd.leaf = true)
    (hfew : leaves.length ≤ nsym) (h : treeRows leaves = .ok rows) : BuiltTree (leaves.map Node.sym) rows := by
  unfold treeRows at h
  split at h
  · cases h
    exact builtTree_syntheticRoot (hleaf _ (List.mem_singleton_self _))
  · rename_i hmany
    have htwo : 2 ≤ leaves.length := by
      match leaves, hne, hmany with
      | [nd], _, hmany => exact absurd rfl (hmany nd)
      | _ :: _ :: _, _, _ => simp
    have hfew' : (leaves.map Node.sym).length ≤ nsym := by simpa using hfew
    obtain ⟨live, hforest, hone⟩ := mergeLoop_induction (P := Forest (leaves.map Node.sym))
      (fun _ _ hf => hf.nodup) (fun _ _ _ _ _ _ hf _ _ hperm _ => hf.merge hfew' hperm)
      (by simp [liveLeaves]) (forest_liveLeaves hne hleaf) h
    exact hforest.builtTree hone (by simpa using htwo) hfew'

/-! The leaves (R151) -/

theorem leaf_of_mem_leavesFrom {v : Nat} {cs : List Word} {nd : Node} (h : nd ∈ leavesFrom v cs) : nd.leaf = true := by
  induction cs generalizing v with
  | nil => cases h
  | cons c cs ih =>
    rw [leavesFrom] at h
    split at h
    · exact ih h
    · rcases List.mem_cons.mp h with rfl | h
      · rfl
      · exact ih h

/-- The leaves' symbols are some of the symbols counted, in their order. -/
theorem sym_leavesFrom_sublist (v : Nat) (cs : List Word) :
    ((leavesFrom v cs).map Node.sym).Sublist ((List.range' v cs.length).map (BitVec.ofNat 8)) := by
  induction cs generalizing v with
  | nil => exact .slnil
  | cons c cs ih =>
    rw [leavesFrom, List.length_cons, List.range'_succ, List.map_cons]
    split
    · exact (ih (v + 1)).cons _
    · exact (ih (v + 1)).cons_cons _

/-- The leaves BUILD makes have distinct symbols (R151). -/
theorem nodup_sym_leaves (s : State) : ((leavesFrom 0 s.freqTable).map Node.sym).Nodup := by
  refine (sym_leavesFrom_sublist 0 s.freqTable).nodup (List.Nodup.map_on (fun x hx y hy hxy => ?_) List.nodup_range')
  simp only [State.length_freqTable, nsym, List.mem_range'_1] at hx hy
  have h := congrArg BitVec.toNat hxy
  simp only [BitVec.toNat_ofNat] at h
  omega

theorem length_leaves_le (s : State) : (leavesFrom 0 s.freqTable).length ≤ nsym := by
  simpa using (sym_leavesFrom_sublist 0 s.freqTable).length_le

/-! BUILD -/

/-- What BUILD leaves when it ends: a finished tree in NODE, with ROOT its last record and NODE_CNT the number of
records (10_state R34, 41_tree_builder R150). -/
theorem buildBody_ended {s u : State} (h : buildBody s = .ended u) :
    BuiltTree ((leavesFrom 0 s.freqTable).map Node.sym) u.node.rows
      ∧ u.root.toNat = u.node.rows.length - 1 ∧ u.nodeCnt.toNat = u.node.rows.length ∧ u.status.treeV = true := by
  rcases buildBody_cases s with ⟨_, hb⟩ | ⟨_, _, hb⟩ | ⟨_, _, f, _, hb⟩ | ⟨_, hne, rows, hrows, hb⟩ <;> rw [hb] at h <;>
    cases h
  have hbuilt := treeRows_builtTree hne (fun _ => leaf_of_mem_leavesFrom) (length_leaves_le s) hrows
  have hsize : rows.length ≤ 511 := hbuilt.size
  refine ⟨hbuilt, ?_, ?_, rfl⟩
  · exact Nat.mod_eq_of_lt (by omega)
  · exact Nat.mod_eq_of_lt (by omega)

/-- A fault of BUILD leaves ERR = 1 and TREE_V = 0 (60_exceptions R300, 10_state R25). -/
theorem buildBody_raised {s u : State} (h : buildBody s = .raised u) : u.status.err = true ∧ u.status.treeV = false := by
  rcases buildBody_cases s with ⟨_, hb⟩ | ⟨_, _, hb⟩ | ⟨_, _, f, _, hb⟩ | ⟨_, _, rows, _, hb⟩ <;> rw [hb] at h <;>
    cases h <;> exact ⟨rfl, rfl⟩

/-- Settles O18, by the parents of `BuiltTree`: at every merge each record is live or a child, once, and at the end the
root alone is live. -/
theorem builtNodesHaveOneParent : Obligations.BuiltNodesHaveOneParent := by
  intro s t hm h herr j hj hroot
  rcases issue_next h with ⟨hbusy, _⟩ | ⟨_, u, hu, rfl⟩ | ⟨_, hr⟩
  · exact absurd hm hbusy
  · obtain ⟨hbuilt, hlast, hcnt, _⟩ := buildBody_ended hu
    simp only [State.endCommand_nodeCnt, State.endCommand_root, hlast, hcnt] at hj hroot ⊢
    exact (congrArg (List.count j) u.children_of_rows).trans (hbuilt.parents j hj hroot)
  · rw [(buildBody_raised hr).1] at herr
    cases herr

end Sys2Proof.Machine
end

section
/-! PROOFS. The tree of every run: TREE_V = 1 guards a tree of one of BUILD's two shapes (10_state R37, 41_tree_builder
R155, R156, R163). -/

namespace Sys2Proof.Machine

/-- The tree below an index depends on NODE alone. -/
theorem readTree_congr {s t : State} (h : ∀ i, t.nodeAt i = s.nodeAt i) (levels i : Nat) :
    readTree t levels i = readTree s levels i := by
  induction levels generalizing i with
  | zero => rfl
  | succ n ih => simp only [readTree, h, ih]

/-- The tree of NODE depends on NODE and ROOT alone. -/
theorem tree?_congr {s t : State} (hn : t.node = s.node) (hr : t.root = s.root) : t.tree? = s.tree? := by
  rw [State.tree?, State.tree?, hr]
  exact readTree_congr (State.nodeAt_congr hn) _ _

/-- An update that keeps NODE and ROOT and does not set TREE_V keeps the tree's shape. -/
theorem treeOk_congr {s t : State} (hs : s.treeOk) (hn : t.node = s.node) (hr : t.root = s.root)
    (hv : t.status.treeV = true → s.status.treeV = true) : t.treeOk := fun h => by
  rw [tree?_congr hn hr]
  exact hs (hv h)

/-- A state without TREE_V guards no tree. -/
theorem treeOk_of_flag_clear {s : State} (h : s.status.treeV = false) : s.treeOk := fun hv => by
  rw [h] at hv
  cases hv

/-- A finished tree in NODE, with ROOT its last record, is the tree the invariant asks for. -/
theorem treeOk_of_builtTree {s : State} {syms : List Byte} (h : BuiltTree syms s.node.rows) (hnd : syms.Nodup)
    (hfew : syms.length ≤ nsym) (hr : s.root.toNat = s.node.rows.length - 1) : s.treeOk := fun _ => by
  obtain ⟨hsize, _, t, ht, hproper, hsyms⟩ := h
  have hlen : t.symbols.length ≤ nsym := hsyms.length_eq ▸ hfew
  refine ⟨t, ?_, hproper, hsyms.nodup_iff.mpr hnd, hlen⟩
  rw [State.tree?, hr]
  exact readTree_of_treeAt hsize (HTree.depth_lt_of_proper hproper hlen) ht

theorem freqBody_keepsTree : BodyKeeps State.treeOk State.treeOk freqBody := by
  intro s hs
  rcases freqBody_cases s with ⟨_, h⟩ | ⟨_, _, h⟩ | ⟨_, _, h⟩ <;> rw [h] <;> exact treeOk_congr hs rfl rfl id

/-- BUILD clears TREE_V first and sets it over a finished tree only. -/
theorem buildBody_keepsTree : BodyKeeps State.treeOk State.treeOk buildBody := by
  intro s _
  cases hb : buildBody s with
  | stopped f => trivial
  | ended u =>
    obtain ⟨hbuilt, hroot, _, _⟩ := buildBody_ended hb
    exact treeOk_of_builtTree hbuilt (nodup_sym_leaves s) (by simpa using length_leaves_le s) hroot
  | raised u => exact treeOk_of_flag_clear (buildBody_raised hb).2

theorem codegenBody_keepsTree : BodyKeeps State.treeOk State.treeOk codegenBody := by
  intro s hs
  rcases codegenBody_cases s with ⟨_, h⟩ | ⟨_, _, h⟩ | ⟨_, w, _, h⟩ <;> rw [h]
  · exact treeOk_congr hs rfl rfl id
  · trivial
  · exact treeOk_congr hs rfl rfl id

theorem packBody_keepsTree : BodyKeeps State.treeOk State.treeOk packBody := by
  intro s hs
  rcases packBody_cases s with ⟨_, h⟩ | ⟨_, _, h⟩ | ⟨_, _, e, info, w, _, h⟩ | ⟨_, _, w, _, h⟩ <;> rw [h] <;>
    exact treeOk_congr hs rfl rfl id

theorem serializeBody_keepsTree : BodyKeeps State.treeOk State.treeOk serializeBody := by
  intro s hs
  rcases serializeBody_cases s with ⟨_, h⟩ | ⟨_, _, _, h⟩ | ⟨_, _, _, h⟩ <;> rw [h] <;>
    exact treeOk_congr hs rfl rfl id

theorem matchBody_keepsTree : BodyKeeps State.treeOk State.treeOk matchBody := by
  intro s hs
  rcases matchBody_cases s with ⟨_, h⟩ | ⟨_, _, _, h⟩ | ⟨_, _, _, wp, raw, _, h⟩ |
    ⟨_, _, _, a, wp, raw, _, ⟨_, h⟩ | ⟨_, h⟩⟩ <;> rw [h] <;> exact treeOk_congr hs rfl rfl id

theorem parseTail_keepsTree {s : State} (hs : s.treeOk) (cnt : Nat) (c : Cursor) :
    (parseTail s cnt c).Meets State.treeOk State.treeOk := by
  rcases parseTail_cases s cnt c with ⟨e, info, h⟩ | ⟨pad, nbits, rest, _, _, _, _, h⟩ <;> rw [h] <;>
    exact treeOk_congr hs rfl rfl id

theorem parseTable_keepsTree {s : State} (hs : s.treeOk) (c : Cursor) :
    (parseTable s c).Meets State.treeOk State.treeOk := by
  rcases parseTable_cases s c with ⟨info, h⟩ | ⟨cnt, c₁, ⟨rp, cb, _, h⟩ | ⟨c₂, cb, _, h⟩⟩ <;> rw [h]
  · exact treeOk_congr hs rfl rfl id
  · exact treeOk_congr hs rfl rfl id
  · exact parseTail_keepsTree (s := s.withCodes cb) (treeOk_congr hs rfl rfl id) _ _

theorem parseBody_keepsTree : BodyKeeps State.treeOk State.treeOk parseBody := by
  intro s hs
  rcases parseBody_cases s with ⟨e, info, h⟩ | ⟨len, tag, c, _, ⟨_, h⟩ | ⟨_, h⟩⟩ <;> rw [h]
  · exact treeOk_congr hs rfl rfl id
  · exact treeOk_congr hs rfl rfl id
  · exact parseTable_keepsTree (s := s.tagRead len tag) (treeOk_congr hs rfl rfl id) _

theorem treeOk_regWrite {s : State} (hs : s.treeOk) (n : Nat) (v : Word) : (s.regWrite n v).treeOk := by
  rcases regWrite_cases s n v with ⟨_, h⟩ | ⟨_, h⟩ | ⟨_, h⟩ | ⟨_, h⟩ <;> rw [h] <;> exact treeOk_congr hs rfl rfl id

/-- Every part of a step keeps the tree's shape; CLR and reset clear TREE_V. -/
theorem treeOk_keptByParts : KeptByParts State.treeOk State.treeOk where
  host _ _ hs := treeOk_congr hs rfl rfl id
  begin _ hs _ := treeOk_congr hs rfl rfl id
  stages :=
    { freq := freqBody_keepsTree, build := buildBody_keepsTree, codegen := codegenBody_keepsTree,
      pack := packBody_keepsTree, serialize := serializeBody_keepsTree, parse := parseBody_keepsTree,
      matchBits := matchBody_keepsTree }
  finish _ hs := treeOk_congr hs rfl rfl id
  illegal _ _ hs := treeOk_congr hs rfl rfl id
  clear _ _ := treeOk_of_flag_clear rfl
  reset _ _ := treeOk_of_flag_clear rfl
  reg _ n v hs := treeOk_regWrite hs n v
  mem _ _ _ _ _ _ hs := treeOk_congr hs (by simp) (by simp) (by simp)

/-- Settles O55, by `treeOk_keptByParts`: BUILD alone writes NODE and ROOT, and what it ends with is a `BuiltTree`. -/
theorem stepKeepsTreeShape : Obligations.StepKeepsTreeShape :=
  fun _ _ hs hst => treeOk_keptByParts.step hs hst

end Sys2Proof.Machine
end

section
/-! PROOFS. Faults at the start of a stage, host writes to registers, and the fetch of a command (10_state R21, R22, R30,
60_exceptions R297, R302). -/

namespace Sys2Proof.Machine

/-! What a fault at the start of a stage leaves (60_exceptions R297, R302) -/

/-- The valid flags in `own` cleared, as a stage clears those of its outputs first (10_state R25). -/
def State.clearFlags (s : State) (own : List Flag) : State := own.foldl (fun s f => s.setFlag f false) s

/-- Clearing flags changes STATUS alone. -/
theorem State.clearFlags_eq (s : State) (own : List Flag) :
    s.clearFlags own = { s with status := (s.clearFlags own).status } := by
  induction own generalizing s with
  | nil => rfl
  | cons f own ih =>
    cases f <;> exact ih _

@[simp] theorem State.clearFlags_done (s : State) (own : List Flag) :
    (s.clearFlags own).status.done = s.status.done := by
  induction own generalizing s with
  | nil => rfl
  | cons f own ih => exact (ih (s.setFlag f false)).trans (s.setFlag_done f false)

/-- The flags cleared are 0 and the others are kept. -/
theorem State.flag_clearFlags (s : State) (own : List Flag) (f : Flag) :
    (s.clearFlags own).flag f = if f ∈ own then false else s.flag f := by
  induction own generalizing s with
  | nil => rfl
  | cons g own ih =>
    refine (ih (s.setFlag g false)).trans ?_
    by_cases hg : f = g
    · simp [hg]
    · simp [hg, State.flag_setFlag_other s false hg]

/-- The flags are fields of STATUS alone. -/
theorem State.flag_congr {s t : State} (hft : t.status.ftV = s.status.ftV) (htree : t.status.treeV = s.status.treeV)
    (hcb : t.status.cbV = s.status.cbV) (hpay : t.status.payV = s.status.payV) (f : Flag) : t.flag f = s.flag f := by
  cases f <;> assumption

/-- The state a command of unit `u` raises from at its start: begun, PHASE set, the flags in `own` cleared. -/
abbrev State.atStart (s : State) (u : Position) (own : List Flag) : State :=
  (s.beginCommand.setPhase u).clearFlags own

theorem onlyTheFaultRecorded_atStart (s : State) (u : Position) (own : List Flag) (e : ErrKind) (info : Word) :
    OnlyTheFaultRecorded own s ((s.atStart u own).raise e info) := by
  have hflag : ∀ f, ((s.atStart u own).raise e info).flag f = if f ∈ own then false else s.flag f := fun f =>
    (State.flag_congr rfl rfl rfl rfl f).trans ((State.flag_clearFlags _ own f).trans
      (congrArg _ (State.flag_congr rfl rfl rfl rfl f)))
  rw [State.atStart, State.clearFlags_eq] at hflag ⊢
  refine ⟨fun f hf => (hflag f).trans (if_pos hf), fun f hf => (hflag f).trans (if_neg hf), fun n hn => ?_,
    fun sp _ i => ?_, fun v => rfl, fun i => rfl, fun v => rfl, rfl, rfl⟩
  · induction n using reg_cases
    case h1 | h2 | h3 | h4 => simp at hn
    all_goals rfl
  · exact State.byteAt_congr (by cases sp <;> rfl) i

/-- A command whose body raises at its start records that fault and changes nothing else but its own flags. -/
theorem faultsAtOnce_of_raised {i : Instr} {body : State → Ran} {u : Position} {e : ErrKind} {info : Word}
    {own : List Flag} {s : State} (hi : commandBody i = some body) (hm : s.mode = .idle)
    (hb : body s.beginCommand = .raised ((s.atStart u own).raise e info)) : FaultsAtOnce i u e info own s := by
  refine ⟨(s.atStart u own).raise e info, ?_, ⟨rfl, by simp, rfl, ?_, rfl, rfl⟩,
    onlyTheFaultRecorded_atStart s u own e info⟩
  · rw [exec_of_commandBody hi, issue_idle body hm, hb]
    rfl
  · rw [State.raise_phase, State.atStart, State.clearFlags_eq]
    rfl

/-! Lengths beyond their capacities (10_state R30) -/

section
variable {s : State}

theorem freqBody_of_rawLen_beyond (h : s.params.rawCap.cells < s.rawLen.toNat) :
    freqBody s = .raised (((s.setPhase .fa).setFlag .ft false).raise .capacity s.rawLen) := if_pos h

theorem encodeBody_of_freq_raised {t : State} (h : freqBody s = .raised t) : encodeBody s = .raised t := by
  simp [encodeBody, h]

theorem packBody_of_rawLen_beyond (hcb : s.status.cbV = true) (h : s.params.rawCap.cells < s.rawLen.toNat) :
    packBody s = .raised (((s.setPhase .bp).setFlag .pay false).raise .capacity s.rawLen) := by
  simp [packBody, hcb, h]

theorem parseBody_of_ctrLen_beyond (h : s.params.ctrCap.cells < s.ctrLen.toNat) :
    parseBody s = .raised (s.parsing.raise .capacity s.ctrLen) := if_pos h

theorem decodeBody_of_parse_raised {t : State} (h : parseBody s = .raised t) : decodeBody s = .raised t := by
  simp [decodeBody, h]

end

/-- Settles O12: each of the five bodies raises at its start, so `faultsAtOnce_of_raised` applies. -/
theorem lengthsBeyondCapacityFault : Obligations.LengthsBeyondCapacityFault := by
  intro s hm
  refine ⟨fun hraw => ?_, fun hctr => ?_⟩
  · have hfreq : freqBody s.beginCommand = _ := freqBody_of_rawLen_beyond hraw
    refine ⟨faultsAtOnce_of_raised rfl hm hfreq, faultsAtOnce_of_raised rfl hm (encodeBody_of_freq_raised hfreq),
      fun hcb => faultsAtOnce_of_raised rfl hm (packBody_of_rawLen_beyond hcb hraw)⟩
  · have hparse : parseBody s.beginCommand = _ := parseBody_of_ctrLen_beyond hctr
    exact ⟨faultsAtOnce_of_raised rfl hm hparse, faultsAtOnce_of_raised rfl hm (decodeBody_of_parse_raised hparse)⟩

/-! The host's next action -/

/-- A step with an action pending takes it (log 1). -/
theorem step_of_script {s : State} {a : HostAction} {rest : List HostAction} (h : s.host.script = a :: rest) :
    step s = hostAct a (s.afterTaking rest) := by
  simp [step, hostStep, h]

/-- Settles O4: the action taken is the issue of the word, and the word decodes to the command. -/
theorem stepRunsDecodedCommand : Obligations.StepRunsDecodedCommand := by
  intro s w rest i hscript hw _
  rw [step_of_script hscript]
  simp only [hostAct, hostWriteReg, hostCommand, hw, if_pos]
  rfl

/-- Outside BUSY mode a write to a register other than CMD is the register's write (10_state R21). -/
theorem hostWriteReg_of_not_busy {s : State} {n : Nat} (v : Word) (hn : n ≠ 0) (hm : s.mode ≠ .busy) :
    hostWriteReg n v s = .next (s.regWrite n v) := by
  rw [hostWriteReg, if_neg hn, if_neg hm]

/-- In BUSY mode it is dropped (70_reset R340). -/
theorem hostWriteReg_of_busy {s : State} {n : Nat} (v : Word) (hn : n ≠ 0) (hm : s.mode = .busy) :
    hostWriteReg n v s = .next s := by
  rw [hostWriteReg, if_neg hn, if_pos hm]

theorem regRead_regWrite_other (s : State) {n m : Nat} (v : Word) (h : m ≠ n) :
    (s.regWrite n v).regRead m = s.regRead m := by
  rcases regWrite_cases s n v with ⟨rfl, hw⟩ | ⟨rfl, hw⟩ | ⟨rfl, hw⟩ | ⟨_, hw⟩ <;> rw [hw]
  · induction m using reg_cases
    case h5 => exact absurd rfl h
    all_goals rfl
  · induction m using reg_cases
    case h6 => exact absurd rfl h
    all_goals rfl
  · induction m using reg_cases
    case h7 => exact absurd rfl h
    all_goals rfl

/-- A register write changes no other register, no byte, no table and not the host's side (10_state R21). -/
theorem regWrite_frame (s : State) (n : Nat) (v : Word) :
    KeepsRegs [n] s (s.regWrite n v) ∧ KeepsBytes [] s (s.regWrite n v) ∧ KeepsFreqs s (s.regWrite n v)
      ∧ KeepsNodes s (s.regWrite n v) ∧ KeepsCodes s (s.regWrite n v) ∧ (s.regWrite n v).host = s.host := by
  refine ⟨fun m hm => regRead_regWrite_other s v (by simpa using hm), ?_⟩
  rcases regWrite_cases s n v with ⟨_, hw⟩ | ⟨_, hw⟩ | ⟨_, hw⟩ | ⟨_, hw⟩ <;> rw [hw] <;>
    exact ⟨fun sp _ i => State.byteAt_congr (by cases sp <;> rfl) i, fun _ => rfl, fun _ => rfl, fun _ => rfl, rfl⟩

/-- Settles O47: the write is dropped in BUSY mode, and otherwise `regWrite_cases` and `regWrite_frame` say what it
does. -/
theorem hostWritesRegisters : Obligations.HostWritesRegisters := by
  intro s n v rest hscript hn
  rw [step_of_script hscript, hostAct]
  by_cases hm : s.mode = .busy
  · rw [hostWriteReg_of_busy (s := s.afterTaking rest) v hn hm]
    exact ⟨_, rfl, rfl, fun _ _ => rfl, fun _ _ _ => rfl, fun _ => rfl, fun _ => rfl, fun _ => rfl, fun _ => rfl,
      fun h => absurd hm h⟩
  · rw [hostWriteReg_of_not_busy (s := s.afterTaking rest) v hn hm]
    obtain ⟨hregs, hbytes, hft, hnode, hcb, hhost⟩ := regWrite_frame (s.afterTaking rest) n v
    refine ⟨_, rfl, by rw [hhost]; rfl, hregs, hbytes, hft, hnode, hcb, fun h => ?_, fun _ => ⟨?_, ?_, ?_⟩⟩
    · rcases regWrite_cases (s.afterTaking rest) n v with ⟨rfl, _⟩ | ⟨rfl, _⟩ | ⟨rfl, _⟩ | ⟨_, hw⟩
      case inr.inr.inr => rw [hw]; rfl
      all_goals exact absurd h (by simp [hm])
    · rintro rfl; rfl
    · rintro rfl; exact BitVec.toNat_setWidth 8 v
    · rintro rfl; rfl

end Sys2Proof.Machine
end

section
/-! PROOFS. The four memories of every run are canonical and within their capacities (20_memory R79, 10_state R40). -/

namespace Sys2Proof.Machine

/-! Writes within a capacity -/

theorem Memory.within_unknown (stamp cap : Nat) : (Memory.unknown stamp).within cap :=
  ⟨Memory.unknown_wf stamp, fun _ hc => nomatch hc⟩

theorem Memory.within_set {m : Memory} {a cap : Nat} (b : Byte) (ha : a < cap) (hm : m.within cap) :
    (m.set a b).within cap :=
  ⟨Memory.set_wf a b hm.1, Memory.set_below b ha hm.2⟩

theorem Memory.within_write {m : Memory} {cap : Nat} {bs : List Byte} (hbs : bs.length ≤ cap) (hm : m.within cap) :
    (m.write 0 bs).within cap :=
  ⟨Memory.write_wf 0 bs hm.1, Memory.write_below bs (by omega) hm.2⟩

/-! The packer checks WP < PAY_CAP before each byte (43_bit_packer R195) -/

section
variable {cap : Nat} {w : PackWork}

theorem PackWork.emit_within (info v : Nat) (hw : w.pay.within cap) : (w.emit cap info v).work.pay.within cap := by
  unfold PackWork.emit
  split
  · exact Memory.within_set _ ‹_› hw
  · exact hw

theorem PackWork.push_within (info : Nat) (b : Bool) (hw : w.pay.within cap) :
    (w.push cap info b).work.pay.within cap := by
  unfold PackWork.push
  simp only
  split
  · have hemit := PackWork.emit_within (w := { w with baccN := w.baccN + 1, baccV := 2 * w.baccV + bitNat b }) info
      (2 * w.baccV + bitNat b) hw
    split
    · rename_i w₁ h₁
      rw [h₁] at hemit
      exact hemit
    · exact hemit
  · exact hw

theorem pushBits_within (info : Nat) (bs : List Bool) (hw : w.pay.within cap) :
    (pushBits cap info bs w).work.pay.within cap := by
  induction bs generalizing w with
  | nil => exact hw
  | cons b bs ih =>
    have hpush := PackWork.push_within info b hw
    rw [pushBits]
    split
    · rename_i w₁ h₁
      rw [h₁] at hpush
      exact ih hpush
    · exact hpush

theorem packBytes_within (cb : List Code) (rp : Nat) (xs : List Byte) (hw : w.pay.within cap) :
    (packBytes cb cap rp xs w).work.pay.within cap := by
  induction xs generalizing rp w with
  | nil => exact hw
  | cons x xs ih =>
    rw [packBytes]
    simp only
    split
    · split
      · exact hw
      · have hbits := pushBits_within (w := { w with bits := w.bits + (cb.getD x.toNat Code.clear).len.toNat }) rp
          (codeBits (cb.getD x.toNat Code.clear)) hw
        split
        · rename_i w₁ h₁
          rw [h₁] at hbits
          exact ih _ hbits
        · exact hbits
    · exact hw

theorem padLast_within (info : Nat) (hw : w.pay.within cap) : (padLast cap info w).work.pay.within cap := by
  unfold padLast
  split
  · exact PackWork.emit_within _ _ hw
  · exact hw

end

theorem packAll_within {cap : Nat} {pay : Memory} (cb : List Code) (bytes : List Byte) (hpay : pay.within cap) :
    (packAll cb cap bytes pay).work.pay.within cap := by
  have hbytes := packBytes_within (w := ⟨0, 0, 0, 0, pay⟩) cb 0 bytes hpay
  unfold packAll
  split
  · rename_i w h
    rw [h] at hbytes
    exact padLast_within _ hbytes
  · exact hbytes

/-! MATCH checks WP < RAW_CAP before each symbol (45_decoder R240) -/

/-- RAW when the loop of MATCH ends. -/
def Matched.memory : Matched → Memory
  | .spent _ _ raw => raw
  | .full _ raw    => raw

theorem matchLoop_within {cap : Nat} (cb : List Code) (bs : List Bool) (a : Acc) (wp : Nat) {raw : Memory}
    (hraw : raw.within cap) : (matchLoop cb cap bs a wp raw).memory.within cap := by
  induction bs generalizing a wp raw with
  | nil => exact hraw
  | cons b bs ih =>
    rw [matchLoop]
    split
    · exact ih _ _ hraw
    · split
      · exact ih _ _ (Memory.within_set _ ‹_› hraw)
      · exact hraw

/-! The stages -/

/-- A field of one byte, such as the tag's length, is a number up to TAG_CAP (30_encoding R110, 44_container R223). -/
theorem be_field_one_le_tagCap {c c' : Cursor} {bs : List Byte} (h : c.field 1 = some (bs, c')) : be bs ≤ tagCap := by
  obtain ⟨hk, hbs, _, _⟩ := Cursor.field_some h
  have hone : bs.length = 1 := by simp [hbs, hk]
  have hlt := be_lt bs
  rw [hone] at hlt
  exact Nat.le_of_lt_succ hlt

theorem freqBody_keepsMemory : BodyKeeps State.memOk State.memOk freqBody := by
  intro s hs
  rcases freqBody_cases s with ⟨_, h⟩ | ⟨_, _, h⟩ | ⟨_, _, h⟩ <;> rw [h] <;> exact hs

theorem buildBody_keepsMemory : BodyKeeps State.memOk State.memOk buildBody := by
  intro s hs
  rcases buildBody_cases s with ⟨_, h⟩ | ⟨_, _, h⟩ | ⟨_, _, f, _, h⟩ | ⟨_, _, rows, _, h⟩ <;> rw [h]
  case inr.inr.inl => trivial
  all_goals exact hs

theorem codegenBody_keepsMemory : BodyKeeps State.memOk State.memOk codegenBody := by
  intro s hs
  rcases codegenBody_cases s with ⟨_, h⟩ | ⟨_, _, h⟩ | ⟨_, w, _, h⟩ <;> rw [h]
  · exact hs
  · trivial
  · exact hs

theorem packBody_keepsMemory : BodyKeeps State.memOk State.memOk packBody := by
  intro s hs
  obtain ⟨hraw, htag, hctr, hpay⟩ := hs
  have hpacked := packAll_within s.codebook (s.readBytes .raw s.rawLen.toNat) hpay
  rcases packBody_cases s with ⟨_, h⟩ | ⟨_, _, h⟩ | ⟨_, _, e, info, w, hw, h⟩ | ⟨_, _, w, hw, h⟩ <;> rw [h]
  · exact ⟨hraw, htag, hctr, hpay⟩
  · exact ⟨hraw, htag, hctr, hpay⟩
  all_goals
    rw [Params.capOf, hw] at hpacked
    exact ⟨hraw, htag, hctr, hpacked⟩

theorem serializeBody_keepsMemory : BodyKeeps State.memOk State.memOk serializeBody := by
  intro s hs
  rcases serializeBody_cases s with ⟨_, h⟩ | ⟨_, _, _, h⟩ | ⟨_, _, hsize, h⟩ <;> rw [h]
  · exact hs
  · exact hs
  · obtain ⟨hraw, htag, hctr, hpay⟩ := hs
    exact ⟨hraw, htag, Memory.within_write (length_frameBytes s ▸ hsize) hctr, hpay⟩

theorem matchBody_keepsMemory : BodyKeeps State.memOk State.memOk matchBody := by
  intro s hs
  obtain ⟨hraw, htag, hctr, hpay⟩ := hs
  have hmatched := matchLoop_within s.codebook (s.payBits s.bitLen.toNat) Acc.empty 0 hraw
  rcases matchBody_cases s with ⟨_, h⟩ | ⟨_, _, _, h⟩ | ⟨_, _, _, wp, raw, hm, h⟩ |
    ⟨_, _, _, a, wp, raw, hm, ⟨_, h⟩ | ⟨_, h⟩⟩ <;> rw [h]
  · exact ⟨hraw, htag, hctr, hpay⟩
  · exact ⟨hraw, htag, hctr, hpay⟩
  all_goals
    rw [Params.capOf, hm] at hmatched
    exact ⟨hmatched, htag, hctr, hpay⟩

/-- PARSE writes PAY only after its check against PAY_CAP (44_container R228, R229). -/
theorem parseTail_keepsMemory {s : State} (hs : s.memOk) (cnt : Nat) (c : Cursor) :
    (parseTail s cnt c).Meets State.memOk State.memOk := by
  rcases parseTail_cases s cnt c with ⟨e, info, h⟩ | ⟨pad, nbits, rest, _, hrest, _, _, h⟩ <;> rw [h]
  · exact hs
  · obtain ⟨hraw, htag, hctr, hpay⟩ := hs
    exact ⟨hraw, htag, hctr, Memory.within_write hrest hpay⟩

theorem parseTable_keepsMemory {s : State} (hs : s.memOk) (c : Cursor) :
    (parseTable s c).Meets State.memOk State.memOk := by
  rcases parseTable_cases s c with ⟨info, h⟩ | ⟨cnt, c₁, ⟨rp, cb, _, h⟩ | ⟨c₂, cb, _, h⟩⟩ <;> rw [h]
  · exact hs
  · exact hs
  · exact parseTail_keepsMemory (s := s.withCodes cb) hs _ _

/-- A tag that the length field's one byte can announce fits TAG. `parseBody_cases` does not say that the field is one
byte, so the branches are followed here. -/
theorem parseBody_keepsMemory : BodyKeeps State.memOk State.memOk parseBody := by
  intro s hs
  unfold parseBody
  simp only
  split
  · exact hs
  · split
    · exact hs
    · split
      · exact hs
      · rename_i len c₁ h₁ _ tag c₂ h₂
        have hread : (s.tagRead len tag).memOk := by
          obtain ⟨hraw, htag, hctr, hpay⟩ := hs
          obtain ⟨hk, htake, _, _⟩ := Cursor.field_some h₂
          have hlen : tag.length = be len := by simp [htake, hk]
          exact ⟨hraw, Memory.within_write (hlen ▸ be_field_one_le_tagCap h₁) htag, hctr, hpay⟩
        split
        · exact parseTable_keepsMemory hread c₂
        · exact hread

/-! Every step -/

theorem memOk_regWrite {s : State} (hs : s.memOk) (n : Nat) (v : Word) : (s.regWrite n v).memOk := by
  rcases regWrite_cases s n v with ⟨_, h⟩ | ⟨_, h⟩ | ⟨_, h⟩ | ⟨_, h⟩ <;> rw [h] <;> exact hs

/-- The invariant speaks of the four spaces alike. -/
theorem memOk_iff (s : State) : s.memOk ↔ ∀ sp, (s.mem sp).within (s.params.capOf sp) := by
  refine ⟨fun ⟨hraw, htag, hctr, hpay⟩ sp => ?_, fun h => ⟨h .raw, h .tag, h .ctr, h .pay⟩⟩
  cases sp <;> assumption

/-- Replacing one memory by one within its capacity. -/
theorem memOk_setMem {s : State} {sp : Space} {m : Memory} (hs : s.memOk) (hm : m.within (s.params.capOf sp)) :
    (s.setMem sp m).memOk := by
  rw [memOk_iff] at hs ⊢
  intro sq
  rw [State.setMem_params]
  by_cases hsq : sq = sp
  · subst hsq
    rwa [State.mem_setMem_same]
  · rw [State.mem_setMem_other s m hsq]
    exact hs sq

/-- Every part of a step keeps the memories within their capacities; reset lists no cell, and CLR none of PAY. -/
theorem memOk_keptByParts : KeptByParts State.memOk State.memOk where
  host _ _ hs := hs
  begin _ hs _ := hs
  stages :=
    { freq := freqBody_keepsMemory, build := buildBody_keepsMemory, codegen := codegenBody_keepsMemory,
      pack := packBody_keepsMemory, serialize := serializeBody_keepsMemory, parse := parseBody_keepsMemory,
      matchBits := matchBody_keepsMemory }
  finish _ hs := hs
  illegal _ _ hs := hs
  clear s hs := by
    obtain ⟨hraw, htag, hctr, _⟩ := hs
    exact ⟨hraw, htag, hctr, Memory.within_unknown s.fresh _⟩
  reset s _ := (memOk_iff _).mpr fun sp => by cases sp <;> exact Memory.within_unknown s.fresh _
  reg _ n v hs := memOk_regWrite hs n v
  mem s sp _ b _ hi hs := memOk_setMem hs (Memory.within_set b hi ((memOk_iff s).mp hs sp))

/-- Settles O51, by `memOk_keptByParts`: each writer checks its capacity first, and a tag is at most 255 bytes long. -/
theorem stepKeepsMemoryWithinCapacity : Obligations.StepKeepsMemoryWithinCapacity :=
  fun _ _ hs hst => memOk_keptByParts.step hs hst

end Sys2Proof.Machine
end

section
/-! PROOFS. The host's reads, and its writes to memory (20_memory R81, R85, 10_state R40, 70_reset R340). -/

namespace Sys2Proof.Machine

/-! What a host read returns -/

theorem hostReadReg_eq {s : State} {n : Nat} (h : s.mode ≠ .busy ∨ n = 1) : hostReadReg n s = s.regRead n :=
  if_neg fun ⟨hbusy, hn⟩ => h.elim (· hbusy) hn

theorem hostReadMem_eq {s : State} {sp : Space} {i : Nat} (hm : s.mode ≠ .busy) (hi : i < s.params.capOf sp) :
    hostReadMem sp i s = s.byteAt sp i :=
  if_neg fun h => h.elim hm (Nat.not_le_of_lt hi)

theorem hostReadFreq_eq {s : State} (v : BitVec 8) (hm : s.mode ≠ .busy) : hostReadFreq v s = s.ftAt v.toNat :=
  if_neg hm

theorem hostReadNode_eq {s : State} {i : BitVec 9} (hm : s.mode ≠ .busy) (hi : i.toNat < nnode) :
    hostReadNode i s = s.nodeAt i.toNat :=
  if_neg fun h => h.elim hm (Nat.not_le_of_lt hi)

theorem hostReadCode_eq {s : State} (v : BitVec 8) (hm : s.mode ≠ .busy) : hostReadCode v s = s.cbAt v.toNat :=
  if_neg hm

/-- Settles O46: each of the five reads steps to `State.hostSees` of what it returns, which differs on the host's side
alone. -/
theorem hostReadsHaveNoSideEffect : Obligations.HostReadsHaveNoSideEffect := by
  intro s rest
  refine ⟨fun n h => ?_, fun sp i h => ?_, fun v h => ?_, fun i h => ?_, fun v h => ?_⟩
  · exact ⟨_, _, step_of_script h, rfl, rfl, rfl, hostReadReg_eq (s := s.afterTaking rest)⟩
  · exact ⟨_, _, step_of_script h, rfl, rfl, rfl, hostReadMem_eq (s := s.afterTaking rest)⟩
  · exact ⟨_, _, step_of_script h, rfl, rfl, rfl, hostReadFreq_eq (s := s.afterTaking rest) v⟩
  · exact ⟨_, _, step_of_script h, rfl, rfl, rfl, hostReadNode_eq (s := s.afterTaking rest)⟩
  · exact ⟨_, _, step_of_script h, rfl, rfl, rfl, hostReadCode_eq (s := s.afterTaking rest) v⟩

/-! Host writes to memory -/

/-- A host write to memory sets one cell, or is dropped. -/
theorem hostWriteMem_cases (sp : Space) (i : Nat) (b : Byte) (s : State) :
    (s.mode ≠ .busy ∧ sp ≠ .pay ∧ i < s.params.capOf sp
        ∧ hostWriteMem sp i b s = s.setMem sp ((s.mem sp).set i b))
      ∨ ((s.mode = .busy ∨ sp = .pay ∨ s.params.capOf sp ≤ i) ∧ hostWriteMem sp i b s = s) := by
  unfold hostWriteMem
  split
  · exact .inr ⟨.inl ‹_›, rfl⟩
  · split
    · exact .inr ⟨.inr (.inl ‹_›), rfl⟩
    · split
      · exact .inl ⟨‹_›, ‹_›, ‹_›, rfl⟩
      · exact .inr ⟨.inr (.inr (Nat.le_of_not_lt ‹_›)), rfl⟩

/-- Replacing a memory changes no register, no byte of another memory and no table. -/
theorem setMem_frame (s : State) (sp : Space) (m : Memory) :
    KeepsRegs [] s (s.setMem sp m) ∧ KeepsBytes [sp] s (s.setMem sp m) ∧ KeepsFreqs s (s.setMem sp m)
      ∧ KeepsNodes s (s.setMem sp m) ∧ KeepsCodes s (s.setMem sp m) :=
  ⟨fun n _ => by cases sp <;> rfl,
    fun _ hsq i => State.byteAt_congr (State.mem_setMem_other s m (by simpa using hsq)) i,
    State.ftAt_congr (s.setMem_ft sp m), State.nodeAt_congr (s.setMem_node sp m), State.cbAt_congr (s.setMem_cb sp m)⟩

/-- A byte written to a memory is the byte read there. -/
theorem byteAt_setMem_set_same (s : State) (sp : Space) (i : Nat) (b : Byte) :
    (s.setMem sp ((s.mem sp).set i b)).byteAt sp i = b :=
  State.byteAt_of_get? (by simp)

/-- Every other byte of that memory is kept. -/
theorem byteAt_setMem_set_other (s : State) (sp : Space) (b : Byte) {i j : Nat} (h : j ≠ i) :
    (s.setMem sp ((s.mem sp).set i b)).byteAt sp j = s.byteAt sp j :=
  State.byteAt_eq_of (by simp) (by simp [Memory.get?_set_other _ b h])

/-- Settles O48: a write that is not dropped sets the one cell, and `setMem_frame` says what it keeps. -/
theorem hostWritesMemory : Obligations.HostWritesMemory := by
  intro s sp i b rest hscript
  rw [step_of_script hscript, hostAct]
  have hclash : (s.mode ≠ .busy ∧ sp ≠ .pay ∧ i < s.params.capOf sp) →
      ¬ (s.mode = .busy ∨ sp = .pay ∨ s.params.capOf sp ≤ i) := fun ⟨hm, hsp, hi⟩ => by simp [hm, hsp, hi]
  rcases hostWriteMem_cases sp i b (s.afterTaking rest) with ⟨hm, hsp, hi, hw⟩ | ⟨hdrop, hw⟩ <;> rw [hw]
  · obtain ⟨hregs, hbytes, hft, hnode, hcb⟩ := setMem_frame (s.afterTaking rest) sp ((s.mem sp).set i b)
    exact ⟨_, rfl, by simp, hregs, hbytes, fun _ hj => byteAt_setMem_set_other (s.afterTaking rest) sp b hj, hft, hnode,
      hcb, fun _ => byteAt_setMem_set_same _ sp i b, fun hdrop => absurd hdrop (hclash ⟨hm, hsp, hi⟩)⟩
  · exact ⟨_, rfl, rfl, fun _ _ => rfl, fun _ _ _ => rfl, fun _ _ => rfl, fun _ => rfl, fun _ => rfl, fun _ => rfl,
      fun hwrite => absurd hdrop (hclash hwrite), fun _ => rfl⟩

end Sys2Proof.Machine
end

