-- ==== Sys2Proof/Proofs/CommandWords.lean ====
section
/-! PROOFS. The command word: its two fields determine it, and decoding reads it through them (30_encoding R100 to
R102). -/

namespace Sys2Proof

/-! The two fields of a word -/

/-- Bits 31:8 as a number. -/
theorem zeroField_toNat (w : Word) : (zeroField w).toNat = w.toNat / 256 := by
  have hlt := w.isLt
  simp only [zeroField, BitVec.extractLsb'_toNat, Nat.shiftRight_eq_div_pow]
  omega

/-- Bits 7:0 as a number. -/
theorem opField_toNat (w : Word) : (opField w).toNat = w.toNat % 256 := by
  simp [opField, BitVec.extractLsb'_toNat]

/-- A word is the zero field followed by the op field. -/
theorem zeroField_append_opField (w : Word) : zeroField w ++ opField w = w :=
  (BitVec.extractLsb'_append_extractLsb'_eq_extractLsb' rfl).trans BitVec.extractLsb'_eq_self

/-- A command's word is the one word with a zero upper field and the command's op in its low byte. -/
theorem eq_encode_iff (w : Word) (i : Instr) : w = encode i ↔ zeroField w = 0 ∧ opField w = i.op := by
  constructor
  · rintro rfl
    cases i <;> decide
  · rintro ⟨hzero, hop⟩
    rw [encode, ← hzero, ← hop, zeroField_append_opField]

/-! Decoding, field by field -/

/-- The decoder's table names each command by its own op, and no other op. -/
theorem decodeOp_eq_some_iff (op : BitVec 8) (i : Instr) : decodeOp op = some i ↔ op = i.op := by
  constructor
  · unfold decodeOp
    split <;> rintro ⟨⟩ <;> rfl
  · rintro rfl
    cases i <;> rfl

/-- The two checks of a legal word (R101), with the command it names. -/
theorem decode_eq_some_iff (w : Word) (i : Instr) : decode w = some i ↔ zeroField w = 0 ∧ opField w = i.op := by
  have hdecode : decode w = if zeroField w = 0 then decodeOp (opField w) else none := by
    unfold decode decodeWord
    split_ifs
    · cases decodeOp (opField w) <;> rfl
    · rfl
  simp [hdecode, decodeOp_eq_some_iff]

/-- The ten commands, in the order of their ops (R102). -/
def Instr.all : List Instr :=
  [.freq, .build, .codegen, .pack, .serialize, .parse, .matchBits, .encode, .decode, .clr]

theorem Instr.mem_all (i : Instr) : i ∈ Instr.all := by
  cases i <;> decide

/-- The ops of the commands are the ten values of the table (R102). -/
theorem exists_eq_op_iff (op : BitVec 8) :
    (∃ i : Instr, op = i.op)
      ↔ op.toNat ∈ [0x01, 0x02, 0x03, 0x04, 0x05, 0x06, 0x07, 0x10, 0x11, 0x1F] := by
  have hops : Instr.all.map (·.op.toNat) = [0x01, 0x02, 0x03, 0x04, 0x05, 0x06, 0x07, 0x10, 0x11, 0x1F] := rfl
  simp [← hops, Instr.mem_all, BitVec.toNat_inj, eq_comm]

/-- Settles O2: both sides say that the upper field is 0 and the low byte is the command's op. -/
theorem decodeIsInverseOfEncode : Obligations.DecodeIsInverseOfEncode := by
  intro w i
  rw [decode_eq_some_iff, eq_encode_iff]

/-- Settles O3: the two checks of `decode_eq_some_iff`, each field read as a number. -/
theorem decodeAcceptsExactlyLegalWords : Obligations.DecodeAcceptsExactlyLegalWords := by
  intro w
  calc (∃ i, decode w = some i)
      ↔ zeroField w = 0 ∧ ∃ i : Instr, opField w = i.op := by simp [decode_eq_some_iff]
    _ ↔ _ := by rw [exists_eq_op_iff, ← BitVec.toNat_inj, zeroField_toNat, opField_toNat]; rfl

/-- Settles O1: each of the ten words is the encoding of its command, and each of the six fails a check of R101. -/
theorem tableWordsDecode : Obligations.TableWordsDecode := by
  have hlegal (i : Instr) : decode (encode i) = some i := (decodeIsInverseOfEncode _ i).2 rfl
  exact ⟨hlegal .freq, hlegal .build, hlegal .codegen, hlegal .pack, hlegal .serialize, hlegal .parse,
    hlegal .matchBits, hlegal .encode, hlegal .decode, hlegal .clr, by decide⟩

end Sys2Proof
end

