-- ==== Sys2Proof/Proofs/Frequency.lean ====
section
/-! PROOFS. FREQ: what its histogram counts, how it ends, and that every run keeps the guarded counts bounded
(40_frequency R140 to R144). -/

namespace Sys2Proof.Machine

/-! The histogram -/

/-- A histogram has an entry for each symbol. -/
@[simp] theorem length_histogram (bytes : List Byte) : (histogram bytes).length = nsym := by simp [histogram]

/-- The entry of a symbol is its number of occurrences. -/
theorem getElem?_histogram (bytes : List Byte) (v : Byte) :
    (histogram bytes)[v.toNat]? = some (BitVec.ofNat 32 (bytes.count v)) := by
  simp [histogram, List.getElem?_range v.isLt]

/-- No count of a byte string shorter than 2^32 wraps (40_frequency R142). -/
theorem toNat_count {bytes : List Byte} (h : bytes.length < 2 ^ 32) (v : Byte) :
    (BitVec.ofNat 32 (bytes.count v)).toNat = bytes.count v := by
  rw [BitVec.toNat_ofNat, Nat.mod_eq_of_lt (Nat.lt_of_le_of_lt List.count_le_length h)]

/-- The counts of the 256 symbols in a byte string sum to its length. -/
theorem sum_count_symbols (bytes : List Byte) :
    ((List.range nsym).map fun v => bytes.count (BitVec.ofNat 8 v)).sum = bytes.length := by
  have hcount : ∀ v ∈ List.range nsym,
      bytes.count (BitVec.ofNat 8 v) = (bytes.map BitVec.toNat : Multiset Nat).count v := by
    intro v hv
    have hlt : v < 2 ^ 8 := List.mem_range.mp hv
    rw [Multiset.coe_count, ← List.count_map_of_injective bytes BitVec.toNat BitVec.toNat_injective, BitVec.toNat_ofNat,
      Nat.mod_eq_of_lt hlt]
  have hsymbols : ∀ v ∈ (bytes.map BitVec.toNat : Multiset Nat), v ∈ Finset.range nsym := by
    simpa using fun b _ => BitVec.isLt b
  calc ((List.range nsym).map fun v => bytes.count (BitVec.ofNat 8 v)).sum
      = ∑ v ∈ Finset.range nsym, (bytes.map BitVec.toNat : Multiset Nat).count v :=
        congrArg List.sum (List.map_congr_left hcount)
    _ = bytes.length := by rw [Multiset.sum_count_eq_card hsymbols]; simp

/-- The entries of the histogram of a byte string shorter than 2^32 sum to its length (40_frequency R142). -/
theorem sum_histogram {bytes : List Byte} (h : bytes.length < 2 ^ 32) :
    ((histogram bytes).map BitVec.toNat).sum = bytes.length := by
  rw [← sum_count_symbols bytes, histogram, List.map_map]
  exact congrArg List.sum (List.map_congr_left fun v _ => toNat_count h (BitVec.ofNat 8 v))

/-! How FREQ ends -/

/-- The state a completed FREQ answers: FT holds the histogram of the RAW_LEN bytes of RAW. -/
abbrev State.counting (s : State) : State :=
  { s with
    phase := 0
    status := { s.status with busy := false, done := true, ftV := true }
    ft := ⟨histogram (s.readBytes .raw s.rawLen.toNat), s.ft.stamp⟩ }

/-- FREQ completes on RAW_LEN from 1 to RAW_CAP. -/
theorem exec_freq_completes {s : State} (hm : s.mode = .idle) (h0 : s.rawLen ≠ 0)
    (hcap : s.rawLen.toNat ≤ s.params.rawCap.cells) : exec .freq s = .next s.counting := by
  rw [exec_of_commandBody rfl, issue_idle _ hm]
  rcases freqBody_cases s.beginCommand with ⟨hlt, _⟩ | ⟨_, h, _⟩ | ⟨_, _, h⟩
  · exact absurd hcap (Nat.not_le_of_lt hlt)
  · exact absurd h h0
  · rw [h]; rfl

/-- Everything FREQ can do: its word is dropped, it completes, or it raises at its start. -/
theorem exec_freq_cases {s t : State} (h : exec .freq s = .next t) :
    t = s ∨ (s.mode = .idle ∧ t = s.counting) ∨ ∃ e info, t = (s.atStart .fa [.ft]).raise e info := by
  rw [exec_of_commandBody rfl] at h
  by_cases hm : s.mode = .idle
  · rw [issue_idle _ hm] at h
    rcases freqBody_cases s.beginCommand with ⟨_, hb⟩ | ⟨_, _, hb⟩ | ⟨_, _, hb⟩ <;> rw [hb] at h <;> cases h
    · exact .inr (.inr ⟨_, _, rfl⟩)
    · exact .inr (.inr ⟨_, _, rfl⟩)
    · exact .inr (.inl ⟨hm, rfl⟩)
  · rw [issue_dropped _ hm] at h
    cases h
    exact .inl rfl

/-- Settles O14: the entry of v is the count of v among the bytes read, which no wrap changes. -/
theorem freqCountsBytes : Obligations.FreqCountsBytes := by
  intro s hm h0 hcap
  obtain ⟨_, herr⟩ := s.mode_idle_iff.mp hm
  refine ⟨s.counting, exec_freq_completes hm h0 hcap, ⟨rfl, rfl, herr, rfl, rfl, rfl⟩, rfl, fun v => ?_⟩
  have hft : s.counting.ftAt v.toNat = BitVec.ofNat 32 ((s.readBytes .raw s.rawLen.toNat).count v) := by
    simp [State.ftAt, getElem?_histogram]
  rw [hft, toNat_count (by simpa using s.rawLen.isLt), State.readBytes, List.count_eq_length_filter, List.filter_map,
    List.length_map]
  congr

/-- Settles O15, by the cases of `exec_freq_cases`: a completed FREQ writes FT, FT_V and the registers of its ending; a
raise is the one of `onlyTheFaultRecorded_atStart`. -/
theorem freqFrame : Obligations.FreqFrame := by
  intro s t h
  rcases exec_freq_cases h with rfl | ⟨hm, rfl⟩ | ⟨e, info, rfl⟩
  · exact ⟨fun _ _ => rfl, fun _ _ => rfl, fun _ _ _ => rfl, fun _ => rfl, fun _ => rfl, ⟨rfl, rfl⟩, fun _ _ => rfl⟩
  · refine ⟨fun n hn => ?_, fun f hf => ?_, fun sp _ i => ?_, fun _ => rfl, fun _ => rfl, ⟨rfl, rfl⟩, fun herr => ?_⟩
    · induction n using reg_cases
      case h1 | h2 | h3 | h4 => simp at hn
      all_goals rfl
    · cases f
      case ft => simp at hf
      all_goals rfl
    · exact State.byteAt_congr (by cases sp <;> rfl) i
    · obtain ⟨_, hclear⟩ := s.mode_idle_iff.mp hm
      exact absurd herr (by simp [hclear])
  · obtain ⟨_, hflags, hregs, hbytes, hfreqs, hnodes, hcodes, houtside⟩ :=
      onlyTheFaultRecorded_atStart s .fa [.ft] e info
    exact ⟨hregs, hflags, hbytes, hnodes, hcodes, houtside, fun _ => hfreqs⟩

/-! The counts of every run -/

/-- FT, its valid flag and the parameters are as before. -/
def SameCounts (s t : State) : Prop := t.ft = s.ft ∧ t.status.ftV = s.status.ftV ∧ t.params = s.params

/-- The invariant of the counts depends on FT, FT_V and the parameters alone. -/
theorem SameCounts.ftOk {s t : State} (h : SameCounts s t) (hs : s.ftOk) : t.ftOk := by
  obtain ⟨hft, hv, hp⟩ := h
  have hsum : t.freqSum = s.freqSum := by rw [State.freqSum, State.freqTable, funext (State.ftAt_congr hft)]; rfl
  rwa [State.ftOk, hft, hv, hp, hsum]

/-- A state without FT_V guards no counts. -/
theorem ftOk_of_flag_clear {s : State} (h : s.status.ftV = false) : s.ftOk := fun hv => by
  rw [h] at hv
  cases hv

/-- FT with the histogram of 1 to RAW_CAP bytes is as the invariant asks (40_frequency R142, R143). -/
theorem ftOk_of_histogram {s : State} {bytes : List Byte} (hrows : s.ft.rows = histogram bytes) (h0 : 1 ≤ bytes.length)
    (hcap : bytes.length ≤ s.params.rawCap.cells) (hlt : bytes.length < 2 ^ 32) : s.ftOk := fun _ => by
  have hlen : s.ft.rows.length = nsym := by rw [hrows, length_histogram]
  have hsum : s.freqSum = bytes.length := by rw [State.freqSum, State.freqTable_of_rows hlen, hrows, sum_histogram hlt]
  exact ⟨hlen, hsum ▸ h0, hsum ▸ hcap⟩

/-- However the body ends, FT, FT_V and the parameters are as it found them. -/
def BodyKeepsCounts (body : State → Ran) : Prop := ∀ s, (body s).Meets (SameCounts s) (SameCounts s)

theorem BodyKeepsCounts.ftOk {body : State → Ran} (h : BodyKeepsCounts body) :
    BodyKeeps State.ftOk State.ftOk body := by
  intro s hs
  have hmeets := h s
  cases hb : body s with
  | ended t => rw [hb] at hmeets; exact SameCounts.ftOk hmeets hs
  | raised t => rw [hb] at hmeets; exact SameCounts.ftOk hmeets hs
  | stopped f => trivial

/-- FREQ clears FT_V first and sets it over the histogram of 1 to RAW_CAP bytes only. -/
theorem freqBody_keepsFtOk : BodyKeeps State.ftOk State.ftOk freqBody := by
  intro s _
  rcases freqBody_cases s with ⟨_, h⟩ | ⟨_, _, h⟩ | ⟨hcap, h0, h⟩ <;> rw [h]
  · exact ftOk_of_flag_clear rfl
  · exact ftOk_of_flag_clear rfl
  · have hpos : 1 ≤ s.rawLen.toNat := Nat.one_le_iff_ne_zero.mpr fun hz => h0 (BitVec.eq_of_toNat_eq hz)
    exact ftOk_of_histogram rfl (by simpa using hpos) (by simpa using hcap) (by simpa using s.rawLen.isLt)

theorem buildBody_keepsCounts : BodyKeepsCounts buildBody := by
  intro s
  rcases buildBody_cases s with ⟨_, h⟩ | ⟨_, _, h⟩ | ⟨_, _, f, _, h⟩ | ⟨_, _, rows, _, h⟩ <;> rw [h]
  case inr.inr.inl => trivial
  all_goals exact ⟨rfl, rfl, rfl⟩

theorem codegenBody_keepsCounts : BodyKeepsCounts codegenBody := by
  intro s
  rcases codegenBody_cases s with ⟨_, h⟩ | ⟨_, _, h⟩ | ⟨_, w, _, h⟩ <;> rw [h]
  case inr.inl => trivial
  all_goals exact ⟨rfl, rfl, rfl⟩

theorem packBody_keepsCounts : BodyKeepsCounts packBody := by
  intro s
  rcases packBody_cases s with ⟨_, h⟩ | ⟨_, _, h⟩ | ⟨_, _, e, info, w, _, h⟩ | ⟨_, _, w, _, h⟩ <;> rw [h] <;>
    exact ⟨rfl, rfl, rfl⟩

theorem serializeBody_keepsCounts : BodyKeepsCounts serializeBody := by
  intro s
  rcases serializeBody_cases s with ⟨_, h⟩ | ⟨_, _, _, h⟩ | ⟨_, _, _, h⟩ <;> rw [h] <;> exact ⟨rfl, rfl, rfl⟩

theorem matchBody_keepsCounts : BodyKeepsCounts matchBody := by
  intro s
  rcases matchBody_cases s with ⟨_, h⟩ | ⟨_, _, _, h⟩ | ⟨_, _, _, wp, raw, _, h⟩ |
    ⟨_, _, _, a, wp, raw, _, ⟨_, h⟩ | ⟨_, h⟩⟩ <;> rw [h] <;> exact ⟨rfl, rfl, rfl⟩

theorem parseTail_keepsCounts (s : State) (cnt : Nat) (c : Cursor) :
    (parseTail s cnt c).Meets (SameCounts s) (SameCounts s) := by
  rcases parseTail_cases s cnt c with ⟨e, info, h⟩ | ⟨pad, nbits, rest, _, _, _, _, h⟩ <;> rw [h] <;>
    exact ⟨rfl, rfl, rfl⟩

theorem parseTable_keepsCounts (s : State) (c : Cursor) :
    (parseTable s c).Meets (SameCounts s) (SameCounts s) := by
  rcases parseTable_cases s c with ⟨info, h⟩ | ⟨cnt, c₁, ⟨rp, cb, _, h⟩ | ⟨c₂, cb, _, h⟩⟩ <;> rw [h]
  · exact ⟨rfl, rfl, rfl⟩
  · exact ⟨rfl, rfl, rfl⟩
  · exact parseTail_keepsCounts (s.withCodes cb) _ _

theorem parseBody_keepsCounts : BodyKeepsCounts parseBody := by
  intro s
  rcases parseBody_cases s with ⟨e, info, h⟩ | ⟨len, tag, c, _, ⟨_, h⟩ | ⟨_, h⟩⟩ <;> rw [h]
  · exact ⟨rfl, rfl, rfl⟩
  · exact ⟨rfl, rfl, rfl⟩
  · exact parseTable_keepsCounts (s.tagRead len tag) _

theorem sameCounts_regWrite (s : State) (n : Nat) (v : Word) : SameCounts s (s.regWrite n v) := by
  rcases regWrite_cases s n v with ⟨_, h⟩ | ⟨_, h⟩ | ⟨_, h⟩ | ⟨_, h⟩ <;> rw [h] <;> exact ⟨rfl, rfl, rfl⟩

/-- Every part of a step keeps the counts bounded; CLR and reset clear FT_V. -/
theorem ftOk_keptByParts : KeptByParts State.ftOk State.ftOk where
  host _ _ hs := hs
  begin _ hs _ := hs
  stages :=
    { freq := freqBody_keepsFtOk, build := buildBody_keepsCounts.ftOk, codegen := codegenBody_keepsCounts.ftOk,
      pack := packBody_keepsCounts.ftOk, serialize := serializeBody_keepsCounts.ftOk,
      parse := parseBody_keepsCounts.ftOk, matchBits := matchBody_keepsCounts.ftOk }
  finish _ hs := hs
  illegal _ _ hs := hs
  clear _ _ := ftOk_of_flag_clear rfl
  reset _ _ := ftOk_of_flag_clear rfl
  reg s n v hs := (sameCounts_regWrite s n v).ftOk hs
  mem s sp i b _ _ hs := by
    have hsame : SameCounts s (s.setMem sp ((s.mem sp).set i b)) := ⟨by simp, by simp, by simp⟩
    exact hsame.ftOk hs

/-- Settles O54, by `ftOk_keptByParts`: FREQ alone sets FT_V, over a histogram whose entries sum to RAW_LEN. -/
theorem stepKeepsCountsBounded : Obligations.StepKeepsCountsBounded :=
  fun _ _ hs hst => ftOk_keptByParts.step hs hst

end Sys2Proof.Machine
end

