-- ==== Sys2Proof/Proofs/TreeBuilder.lean ====
section
/-! PROOFS. BUILD's order: ExtractMin takes the least live node, so each merge takes the two least; the sums never wrap
and BUILD completes; what BUILD leaves unchanged (41_tree_builder R150 to R158). -/

namespace Sys2Proof.Machine

/-! ExtractMin takes the least (R152, R153) -/

theorem Live.before_iff {a b : Live} :
    Live.before a b = true ↔ a.2.freq.toNat < b.2.freq.toNat ∨ (a.2.freq = b.2.freq ∧ a.1 < b.1) := by
  simp [Live.before, BitVec.toNat_inj]

/-- The priority order is total on nodes with different indices. -/
theorem Live.before_total {a b : Live} (hne : a.1 ≠ b.1) (h : ¬ Live.before b a = true) : Live.before a b = true := by
  simp only [Live.before_iff, ← BitVec.toNat_inj] at h ⊢
  omega

/-- No member of the list comes before the one taken. -/
theorem not_before_leastOf (x : Live) (ys : List Live) : ∀ y ∈ x :: ys, ¬ Live.before y (leastOf x ys) = true := by
  induction ys generalizing x with
  | nil => simp [leastOf, Live.before_iff]
  | cons z zs ih =>
    intro y hy
    rw [leastOf]
    have hle := ih (if Live.before z x then z else x)
    by_cases hyz : y ∈ zs
    · exact hle y (List.mem_cons_of_mem _ hyz)
    · have hyxz : y = x ∨ y = z := by simpa [hyz] using hy
      have hleast := hle _ List.mem_cons_self
      generalize leastOf _ zs = m at hleast
      split at hleast <;> rename_i hzx <;> rcases hyxz with rfl | rfl <;>
        simp only [Live.before_iff, ← BitVec.toNat_inj] at hzx hleast ⊢ <;> omega

/-- Every other member comes after the one ExtractMin takes from a live set with distinct indices. -/
theorem extractMin_before {live rest : List Live} {m : Live} (hnd : (live.map Prod.fst).Nodup)
    (h : extractMin live = some (m, rest)) {y : Live} (hy : y ∈ rest) : Live.before m y = true := by
  have hperm := extractMin_perm hnd h
  have hne : m.1 ≠ y.1 := by
    have hnd' := (hperm.map Prod.fst).nodup_iff.mp hnd
    exact fun he => (List.nodup_cons.mp hnd').1 (he ▸ List.mem_map_of_mem hy)
  cases live with
  | nil => cases h
  | cons x xs =>
    cases h
    exact Live.before_total hne (not_before_leastOf x xs y (hperm.mem_iff.mpr (List.mem_cons_of_mem _ hy)))

/-- Settles O16: ExtractMin rearranges the live set into the member taken, which comes before the others, and the
rest. -/
theorem extractMinTakesLeast : Obligations.ExtractMinTakesLeast := by
  intro live hne hnd
  obtain ⟨⟨m, rest⟩, h⟩ := Option.ne_none_iff_exists'.mp fun hnone => hne (extractMin_eq_none hnone)
  have hperm := extractMin_perm hnd h
  have hm : m ∉ rest := (List.nodup_cons.mp (hperm.nodup_iff.mp hnd.of_map)).1
  refine ⟨m, rest, h, hperm.mem_iff.mpr List.mem_cons_self, fun y hy => ?_, fun y => ?_⟩
  · rcases List.mem_cons.mp (hperm.mem_iff.mp hy) with rfl | hy
    · exact .inl rfl
    · exact .inr (Live.before_iff.mp (extractMin_before hnd h hy))
  · rw [hperm.mem_iff, List.mem_cons]
    exact ⟨fun hy => ⟨.inr hy, fun he => hm (he ▸ hy)⟩, fun ⟨hy, hne⟩ => hy.resolve_left hne⟩

/-! The sums of the merges (R158) -/

/-- The frequency of a live node as a number. -/
abbrev Live.count (x : Live) : Nat := x.2.freq.toNat

/-- The frequencies of the member taken and of the rest are among those of the live set. -/
theorem extractMin_sum_le {live rest : List Live} {m : Live} (h : extractMin live = some (m, rest)) :
    m.count + (rest.map Live.count).sum ≤ (live.map Live.count).sum := by
  cases live with
  | nil => cases h
  | cons x xs =>
    cases h
    obtain ⟨l, hperm, hsub⟩ := List.cons_subperm_of_not_mem_of_mem (by simp) (leastOf_mem x xs)
      (List.filter_sublist (p := fun y : Live => y.1 != (leastOf x xs).1)).subperm
    calc _ = (l.map Live.count).sum := (hperm.map Live.count).sum_eq.symm
      _ ≤ _ := (hsub.map Live.count).sum_le_sum fun _ _ => Nat.zero_le _

/-- The frequency of a merge is the sum of the two, which fits (R154). -/
theorem freq_mergeNode {a b : Live} (h : a.count + b.count < 2 ^ 32) :
    (mergeNode a b).freq.toNat = a.count + b.count := by
  rw [mergeNode, BitVec.toNat_ofNat, Nat.mod_eq_of_lt h]

/-- The merges end without a stop when the frequencies of the live set sum to a word (R158). -/
theorem mergeLoop_ok {fuel : Nat} {live : List Live} (rows : List Node) (hsum : (live.map Live.count).sum < 2 ^ 32) :
    ∃ rows', mergeLoop fuel live rows = .ok rows' := by
  induction fuel generalizing live rows with
  | zero => exact ⟨rows, rfl⟩
  | succ fuel ih =>
    rw [mergeLoop]
    split
    · exact ⟨rows, rfl⟩
    · rename_i a live₁ ha
      split
      · exact ⟨rows, rfl⟩
      · rename_i b rest hb
        have hle := extractMin_sum_le ha
        have hle₁ := extractMin_sum_le hb
        have hab : a.count + b.count < 2 ^ 32 := by omega
        rw [if_pos hab]
        refine ih _ ?_
        rw [List.map_append, List.sum_append, List.map_singleton, List.sum_singleton, Live.count, freq_mergeNode hab]
        omega

theorem map_count_liveLeaves (leaves : List Node) :
    (liveLeaves leaves).map Live.count = leaves.map fun nd => nd.freq.toNat := by
  have hsnd : (liveLeaves leaves).map Prod.snd = leaves := List.map_snd_zip (by simp)
  conv_rhs => rw [← hsnd, List.map_map]
  rfl

/-- BUILD's records exist when the counts of the leaves sum to a word. -/
theorem treeRows_ok {leaves : List Node} (hsum : (leaves.map fun nd => nd.freq.toNat).sum < 2 ^ 32) :
    ∃ rows, treeRows leaves = .ok rows := by
  unfold treeRows
  split
  · exact ⟨_, rfl⟩
  · exact mergeLoop_ok leaves (by rwa [map_count_liveLeaves])

/-! Each merge takes the two least of the live set (R152 to R154) -/

/-- A record in the beginning of NODE is the one NODE holds at its index. -/
theorem State.nodeAt_of_prefix {t : State} {rows : List Node} {i : Nat} {nd : Node} (ht : rows <+: t.node.rows)
    (h : rows[i]? = some nd) : t.nodeAt i = nd := by
  obtain ⟨more, he⟩ := ht
  obtain ⟨hlt, _⟩ := List.getElem?_eq_some_iff.mp h
  exact State.nodeAt_of_rows (by rw [← he, List.getElem?_append_left hlt, h])

/-- The children of the records in the beginning of NODE, record by record. -/
theorem State.children_of_prefix {t : State} {rows : List Node} (ht : rows <+: t.node.rows) :
    (List.range rows.length).flatMap t.children = rows.flatMap childrenOf := by
  refine Eq.trans (List.flatMap_congr fun i hi => ?_) (State.children_of_rows { t with node := ⟨rows, t.node.stamp⟩ })
  have hget := List.getElem?_eq_getElem (List.mem_range.mp hi)
  rw [State.children_eq, State.children_eq, State.nodeAt_of_prefix ht hget, State.nodeAt_of_rows hget]

/-- The live set of the merges is the one read from NODE: the records below that no record below has as a child. -/
theorem Forest.mem_liveBelow_iff {syms : List Byte} {live : List Live} {rows : List Node} (h : Forest syms live rows)
    {t : State} (ht : rows <+: t.node.rows) {j : Nat} : j ∈ t.liveBelow rows.length ↔ j ∈ live.map Prod.fst := by
  have hj := h.parents j
  rw [State.liveBelow, List.mem_filter, State.children_of_prefix ht, List.mem_range, decide_eq_true_iff,
    ← List.count_eq_zero, ← List.count_pos_iff]
  split at hj <;> omega

/-- The live set and the records during the merges over the leaves: the forest of their symbols; each live node stands
at its index; the leaves stand first; the frequencies sum to the counts; each record behind the leaves is the merge of the
two least, in every NODE memory that begins with these records. -/
structure Merging (leaves : List Node) (live : List Live) (rows : List Node) : Prop where
  forest : Forest (leaves.map Node.sym) live rows
  stored : ∀ x ∈ live, rows[x.1]? = some x.2
  leavesFirst : leaves <+: rows
  sum : (live.map Live.count).sum = (leaves.map fun nd => nd.freq.toNat).sum
  least : ∀ t : State, rows <+: t.node.rows → ∀ i, leaves.length ≤ i → i < rows.length → t.mergesLeastAt i

/-- Before the first merge. -/
theorem merging_liveLeaves {leaves : List Node} (hne : leaves ≠ []) (hleaf : ∀ nd ∈ leaves, nd.leaf = true) :
    Merging leaves (liveLeaves leaves) leaves where
  forest := forest_liveLeaves hne hleaf
  stored x hx := by
    obtain ⟨i, hi, rfl⟩ := List.mem_iff_getElem.mp hx
    simp [liveLeaves] at hi ⊢
  leavesFirst := List.prefix_rfl
  sum := by rw [map_count_liveLeaves]
  least t _ i hle hlt := absurd hlt (Nat.not_lt_of_le hle)

section
variable {leaves : List Node} {live live₁ rest : List Live} {rows : List Node} {a b : Live}

/-- A live node is the record NODE holds at its index. -/
theorem Merging.nodeAt (h : Merging leaves live rows) {t : State} (ht : rows <+: t.node.rows) {x : Live}
    (hx : x ∈ live) : t.nodeAt x.1 = x.2 :=
  State.nodeAt_of_prefix ht (h.stored x hx)

/-- Among live nodes the priority order is the one read from NODE. -/
theorem Merging.nodeBefore (h : Merging leaves live rows) {t : State} (ht : rows <+: t.node.rows) {x y : Live}
    (hx : x ∈ live) (hy : y ∈ live) (hxy : Live.before x y = true) : t.nodeBefore x.1 y.1 := by
  rw [State.nodeBefore, h.nodeAt ht hx, h.nodeAt ht hy]
  exact Live.before_iff.mp hxy

/-- The record put behind the others by a merge is the merge of the two least. -/
theorem Merging.mergesLeastAt_length (h : Merging leaves live rows) (ha : extractMin live = some (a, live₁))
    (hb : extractMin live₁ = some (b, rest)) (hsum : a.count + b.count < 2 ^ 32) {t : State}
    (ht : rows ++ [mergeNode a b] <+: t.node.rows) : t.mergesLeastAt rows.length := by
  have hnd := h.forest.nodup
  have hperm := extractMin_perm hnd ha
  have hnd₁ : (live₁.map Prod.fst).Nodup := ((hperm.map Prod.fst).nodup_iff.mp hnd).of_cons
  have hperm₁ := extractMin_perm hnd₁ hb
  have hb₁ : b ∈ live₁ := hperm₁.mem_iff.mpr List.mem_cons_self
  have hmem {y : Live} (hy : y ∈ live₁) : y ∈ live := hperm.mem_iff.mpr (List.mem_cons_of_mem _ hy)
  have hal : a ∈ live := hperm.mem_iff.mpr List.mem_cons_self
  have hbl : b ∈ live := hmem hb₁
  have ht' : rows <+: t.node.rows := (List.prefix_append _ _).trans ht
  have hlive {x : Live} (hx : x ∈ live) : x.1 ∈ t.liveBelow rows.length :=
    (h.forest.mem_liveBelow_iff ht').mpr (List.mem_map_of_mem hx)
  refine ⟨a.1, hlive hal, b.1, hlive hbl, h.nodeBefore ht' hal hbl (extractMin_before hnd ha hb₁),
    fun j hj => ?_, ?_, ?_⟩
  · obtain ⟨x, hx, rfl⟩ := List.mem_map.mp ((h.forest.mem_liveBelow_iff ht').mp hj)
    rcases List.mem_cons.mp (hperm.mem_iff.mp hx) with rfl | hx₁
    · exact .inl rfl
    · rcases List.mem_cons.mp (hperm₁.mem_iff.mp hx₁) with rfl | hx₂
      · exact .inr (.inl rfl)
      · exact .inr (.inr (h.nodeBefore ht' hbl hx (extractMin_before hnd₁ hb hx₂)))
  · rwa [h.nodeAt ht' hal, h.nodeAt ht' hbl]
  · have hnew : t.nodeAt rows.length = mergeNode a b := State.nodeAt_of_prefix ht (by simp)
    simp [hnew, h.nodeAt ht' hal, h.nodeAt ht' hbl, mergeNode, BitVec.ofNat_add]

/-- A merge of the two members extracted keeps all of it. -/
theorem Merging.merge (hfew : leaves.length ≤ nsym) (h : Merging leaves live rows)
    (ha : extractMin live = some (a, live₁)) (hb : extractMin live₁ = some (b, rest))
    (hperm : live.Perm (a :: b :: rest)) (hsum : a.count + b.count < 2 ^ 32) :
    Merging leaves (rest ++ [(rows.length, mergeNode a b)]) (rows ++ [mergeNode a b]) where
  forest := h.forest.merge (by simpa using hfew) hperm
  stored x hx := by
    rcases List.mem_append.mp hx with hx | hx
    · have hget := h.stored x (hperm.mem_iff.mpr (by simp [hx]))
      rwa [List.getElem?_append_left (List.getElem?_eq_some_iff.mp hget).1]
    · obtain rfl := List.mem_singleton.mp hx
      simp
  leavesFirst := h.leavesFirst.trans (List.prefix_append _ _)
  sum := by
    rw [← h.sum, (hperm.map Live.count).sum_eq]
    simp only [List.map_append, List.map_cons, List.map_nil, List.sum_append, List.sum_cons, List.sum_nil,
      Live.count, freq_mergeNode hsum]
    omega
  least t ht i hle hlt := by
    rcases Nat.lt_succ_iff_lt_or_eq.mp (by simpa using hlt : i < rows.length + 1) with hlt | rfl
    · exact h.least t ((List.prefix_append _ _).trans ht) i hle hlt
    · exact h.mergesLeastAt_length ha hb hsum ht

end

/-- Over two leaves or more BUILD's records end with one node live. -/
theorem treeRows_merging {leaves rows : List Node} (htwo : 2 ≤ leaves.length) (hleaf : ∀ nd ∈ leaves, nd.leaf = true)
    (hfew : leaves.length ≤ nsym) (h : treeRows leaves = .ok rows) : ∃ root, Merging leaves [root] rows := by
  unfold treeRows at h
  split at h
  · simp at htwo
  · obtain ⟨live, hm, hone⟩ := mergeLoop_induction (P := Merging leaves) (fun _ _ hm => hm.forest.nodup)
      (fun _ _ _ _ _ _ hm ha hb hperm hsum => hm.merge hfew ha hb hperm hsum) (by simp [liveLeaves])
      (merging_liveLeaves (List.ne_nil_of_length_pos (by omega)) hleaf) h
    have hpos : 0 < live.length := by simpa using List.length_pos_of_mem hm.forest.last
    obtain ⟨root, rfl⟩ := List.length_eq_one_iff.mp (by omega : live.length = 1)
    exact ⟨root, hm⟩

/-- The one node left is the last of 2n - 1 records and carries the sum of the counts (R155, R158). -/
theorem Merging.root {leaves rows : List Node} {root : Live} (h : Merging leaves [root] rows) :
    rows.length = 2 * leaves.length - 1 ∧ root.1 = rows.length - 1
      ∧ root.count = (leaves.map fun nd => nd.freq.toNat).sum := by
  have hsize := h.forest.size
  have hlast := h.forest.last
  have hsum := h.sum
  simp only [List.length_map, List.length_singleton, List.map_singleton, List.mem_singleton,
    List.sum_singleton] at hsize hlast hsum
  exact ⟨by omega, hlast.symm, hsum⟩

/-! The leaves of the counts (R151) -/

theorem leavesFrom_append (v : Nat) (cs ds : List Word) :
    leavesFrom v (cs ++ ds) = leavesFrom v cs ++ leavesFrom (v + cs.length) ds := by
  induction cs generalizing v with
  | nil => rfl
  | cons c cs ih =>
    simp only [List.cons_append, leavesFrom, ih, List.length_cons, Nat.add_right_comm v 1, ← Nat.add_assoc]
    split <;> rfl

/-- There is a leaf for each count that is not 0. -/
theorem length_leavesFrom (v : Nat) (cs : List Word) : (leavesFrom v cs).length = (cs.filter (· ≠ 0)).length := by
  induction cs generalizing v with
  | nil => rfl
  | cons c cs ih =>
    rw [leavesFrom]
    split <;> rename_i hc
    · simpa [hc] using ih (v + 1)
    · rw [List.filter_cons_of_pos (by simpa using hc), List.length_cons, List.length_cons, ih]

/-- The frequencies of the leaves sum to the counts. -/
theorem sum_leavesFrom (v : Nat) (cs : List Word) :
    ((leavesFrom v cs).map fun nd => nd.freq.toNat).sum = (cs.map BitVec.toNat).sum := by
  induction cs generalizing v with
  | nil => rfl
  | cons c cs ih =>
    rw [leavesFrom]
    split <;> rename_i hc
    · simpa [hc] using ih (v + 1)
    · simpa [leafNode] using ih (v + 1)

/-- The leaf of a count that is not 0 stands at the number of such counts before it. -/
theorem getElem?_leavesFrom (v : Nat) {cs : List Word} {k : Nat} {c : Word} (hk : cs[k]? = some c) (hc : c ≠ 0) :
    (leavesFrom v cs)[((cs.take k).filter (· ≠ 0)).length]? = some (leafNode (v + k) c) := by
  obtain ⟨hlt, rfl⟩ := List.getElem?_eq_some_iff.mp hk
  have hsplit : leavesFrom v cs = leavesFrom v (cs.take k)
      ++ leafNode (v + k) cs[k] :: leavesFrom (v + k + 1) (cs.drop (k + 1)) := by
    conv_lhs => rw [← List.take_append_drop k cs, List.drop_eq_getElem_cons hlt, leavesFrom_append, leavesFrom,
      if_neg hc, List.length_take_of_le hlt.le]
  rw [hsplit, ← length_leavesFrom v, List.getElem?_append_right (Nat.le_refl _), Nat.sub_self, List.getElem?_cons_zero]

/-! How BUILD ends -/

/-- The state a completed BUILD answers: NODE holds the records of the tree, the last of them the root. -/
abbrev State.building (s : State) (rows : List Node) : State :=
  { s with
    phase := 0
    status := { s.status with busy := false, done := true, treeV := true }
    node := ⟨rows, s.fresh⟩
    fresh := s.fresh + 1
    root := BitVec.ofNat 9 (rows.length - 1)
    nodeCnt := BitVec.ofNat 10 rows.length }

/-- BUILD completes over the leaves of a counted table when no sum of the merges wraps. -/
theorem exec_build_completes {s : State} (hm : s.mode = .idle) (hft : s.flag .ft = true)
    (hne : leavesFrom 0 s.freqTable ≠ []) {rows : List Node} (hrows : treeRows (leavesFrom 0 s.freqTable) = .ok rows) :
    exec .build s = .next (s.building rows) := by
  rw [exec_of_commandBody rfl, issue_idle _ hm]
  rcases buildBody_cases s.beginCommand with ⟨h, _⟩ | ⟨_, h, _⟩ | ⟨_, _, f, h, _⟩ | ⟨_, _, rows', h, hb⟩
  · exact absurd (hft.symm.trans h) (by decide)
  · exact absurd h hne
  · cases hrows.symm.trans h
  · cases hrows.symm.trans h
    rw [hb]
    rfl

/-- Everything BUILD can do when it answers a next state: its word is dropped, it completes, or it raises at its
start. -/
theorem exec_build_cases {s t : State} (h : exec .build s = .next t) :
    t = s ∨ (s.mode = .idle ∧ ∃ rows, t = s.building rows)
      ∨ ∃ e info, t = (s.atStart .tb [.tree]).raise e info := by
  rw [exec_of_commandBody rfl] at h
  by_cases hm : s.mode = .idle
  · rw [issue_idle _ hm] at h
    rcases buildBody_cases s.beginCommand with ⟨_, hb⟩ | ⟨_, _, hb⟩ | ⟨_, _, f, _, hb⟩ | ⟨_, _, rows, _, hb⟩ <;>
      rw [hb] at h <;> cases h
    · exact .inr (.inr ⟨_, _, rfl⟩)
    · exact .inr (.inr ⟨_, _, rfl⟩)
    · exact .inr (.inl ⟨hm, rows, rfl⟩)
  · rw [issue_dropped _ hm] at h
    cases h
    exact .inl rfl

/-- Settles O19, by the cases of `exec_build_cases`: a completed BUILD writes NODE, its two registers, TREE_V and the
registers of its ending; a raise is the one of `onlyTheFaultRecorded_atStart`. -/
theorem buildFrame : Obligations.BuildFrame := by
  intro s t h
  rcases exec_build_cases h with rfl | ⟨hm, rows, rfl⟩ | ⟨e, info, rfl⟩
  · exact ⟨fun _ _ => rfl, fun _ _ => rfl, fun _ _ _ => rfl, fun _ => rfl, fun _ => rfl, ⟨rfl, rfl⟩,
      fun _ => ⟨fun _ _ => rfl, fun _ => rfl⟩⟩
  · refine ⟨fun n hn => ?_, fun f hf => ?_, fun sp _ i => ?_, fun _ => rfl, fun _ => rfl, ⟨rfl, rfl⟩, fun herr => ?_⟩
    · induction n using reg_cases
      case h1 | h2 | h3 | h4 | h12 | h13 => simp at hn
      all_goals rfl
    · cases f
      case tree => simp at hf
      all_goals rfl
    · exact State.byteAt_congr (by cases sp <;> rfl) i
    · obtain ⟨_, hclear⟩ := s.mode_idle_iff.mp hm
      exact absurd herr (by simp [hclear])
  · obtain ⟨_, hflags, hregs, hbytes, hfreqs, hnodes, hcodes, houtside⟩ :=
      onlyTheFaultRecorded_atStart s .tb [.tree] e info
    exact ⟨fun n hn => hregs n fun h => hn (List.mem_append_left [12, 13] h), hflags, hbytes, hfreqs, hcodes,
      houtside, fun _ => ⟨hregs, hnodes⟩⟩

/-- NODE after a completed BUILD holds the leaf of each symbol counted at the number of such symbols below it. -/
theorem State.building_leaf (s : State) {rows : List Node} (hfirst : leavesFrom 0 s.freqTable <+: rows) (v : Byte)
    (hv : s.ftAt v.toNat ≠ 0) :
    (s.building rows).nodeAt ((s.freqTable.take v.toNat).filter (· ≠ 0)).length
      = ⟨true, v, s.ftAt v.toNat, 0, 0, false⟩ := by
  have hcount : s.freqTable[v.toNat]? = some (s.ftAt v.toNat) := by
    simp [State.freqTable, List.getElem?_range v.isLt]
  rw [State.nodeAt_of_prefix hfirst (getElem?_leavesFrom 0 hcount hv)]
  simp [leafNode]

/-- Settles O17: the counts sum to a word, so the merges end (`treeRows_ok`); for n = 1 with the synthetic root, for n
from 2 with what `Merging` says of the one node left. -/
theorem buildMakesTree : Obligations.BuildMakesTree := by
  intro s hm hft hsum hpos n
  obtain ⟨_, herr⟩ := s.mode_idle_iff.mp hm
  have hn : (leavesFrom 0 s.freqTable).length = n := length_leavesFrom 0 _
  have hleafSum := sum_leavesFrom 0 s.freqTable
  have hfew : (leavesFrom 0 s.freqTable).length ≤ 256 := length_leaves_le s
  obtain ⟨rows, hrows⟩ := treeRows_ok (hleafSum.trans_lt hsum)
  have hne : leavesFrom 0 s.freqTable ≠ [] := List.ne_nil_of_length_pos (by omega)
  refine ⟨s.building rows, exec_build_completes hm hft hne hrows, ⟨rfl, rfl, herr, rfl, rfl, rfl⟩, rfl, ?_⟩
  rcases Nat.lt_or_ge n 2 with hlt | htwo
  · obtain ⟨leaf, hone⟩ := List.length_eq_one_iff.mp (by omega : (leavesFrom 0 s.freqTable).length = 1)
    rw [hone] at hrows
    cases hrows
    exact ⟨s.building_leaf (hone ▸ List.prefix_append _ _), fun _ => ⟨rfl, rfl, rfl⟩, fun h => by omega⟩
  · obtain ⟨root, hmerging⟩ := treeRows_merging (hn ▸ htwo) (fun _ => leaf_of_mem_leavesFrom) hfew hrows
    obtain ⟨hlen, hroot, hcount⟩ := hmerging.root
    rw [hn] at hlen hfew
    have hrootReg : (s.building rows).root.toNat = root.1 := by
      rw [hroot]
      exact Nat.mod_eq_of_lt (by omega)
    refine ⟨s.building_leaf hmerging.leavesFirst, fun h => by omega, fun _ => ⟨?_, by omega, ?_, fun i hle hlt => ?_⟩⟩
    · exact (Nat.mod_eq_of_lt (by omega)).trans hlen
    · rw [hrootReg, hmerging.nodeAt List.prefix_rfl List.mem_cons_self]
      exact hcount.trans hleafSum
    · exact hmerging.least _ List.prefix_rfl i (hn ▸ hle) (hlen ▸ hlt)

end Sys2Proof.Machine
end

section
/-! PROOFS. CODEGEN: the walk writes for each leaf of the tree its path as codeword, so in the codebook of a built tree
no codeword begins another (42_codebook R170 to R177, 10_state R39). -/

namespace Sys2Proof.Machine

/-! Codewords of bit strings (00_scope R13) -/

/-- The number whose binary digits are the bits, first bit first. -/
def bitsVal (bits : List Bool) : Nat := bits.foldl (fun v b => Nat.bit b v) 0

theorem bitsVal_append_bit (bits : List Bool) (b : Bool) : bitsVal (bits ++ [b]) = Nat.bit b (bitsVal bits) :=
  List.foldl_append

/-- The digits of the number from the lowest on are the bits from the last back. -/
theorem testBit_bitsVal (bits : List Bool) (j : Nat) : (bitsVal bits).testBit j = bits.reverse.getD j false := by
  induction bits using List.reverseRecOn generalizing j with
  | nil => simp [bitsVal]
  | append_singleton bits b ih =>
    rw [bitsVal_append_bit, List.reverse_append]
    cases j with
    | zero => exact Nat.testBit_bit_zero b _
    | succ j => exact (Nat.testBit_bit_succ j b _).trans (ih j)

/-- The record CODEGEN writes for a leaf with this path (R173). -/
def pathCode (bits : List Bool) : Code := ⟨true, BitVec.ofNat 8 bits.length, BitVec.ofNat 255 (bitsVal bits)⟩

theorem len_pathCode {bits : List Bool} (h : bits.length ≤ maxLen) : (pathCode bits).len.toNat = bits.length :=
  Nat.mod_eq_of_lt (Nat.lt_succ_of_le h)

/-- The codeword of the record is the path, when the path is no longer than MAXLEN. -/
theorem codeBits_pathCode {bits : List Bool} (h : bits.length ≤ maxLen) : codeBits (pathCode bits) = bits := by
  have hlen := len_pathCode h
  refine List.ext_getElem ((length_codeBits _).trans hlen) fun k _ hk => ?_
  have hdigit : bits.length - 1 - k < 255 := by omega
  have hrev : bits.reverse[bits.length - 1 - k]? = some bits[k] := by
    rw [List.getElem?_reverse (by omega), ← List.getElem?_eq_getElem hk]
    congr 1
    omega
  simp only [codeBits, List.getElem_map, List.getElem_range, hlen]
  simp only [pathCode, BitVec.getLsbD_ofNat, testBit_bitsVal, hdigit, List.getD, hrev]
  rfl

/-! The paths of a tree (R172) -/

/-- The leaves of the paths are those of the tree. -/
theorem HTree.map_fst_paths (h : HTree) : h.paths.map Prod.fst = h.symbols := by
  induction h with
  | leaf v => rfl
  | single h ih => simpa [HTree.paths, HTree.symbols, Function.comp_def] using ih
  | fork l r ihl ihr => simp [HTree.paths, HTree.symbols, ← ihl, ← ihr, Function.comp_def]

/-- A path of a node with two children goes left or right first. -/
theorem HTree.mem_paths_fork {l r : HTree} {p : Byte × List Bool} (hp : p ∈ (HTree.fork l r).paths) :
    (∃ q ∈ l.paths, (q.1, false :: q.2) = p) ∨ ∃ q ∈ r.paths, (q.1, true :: q.2) = p :=
  (List.mem_append.mp hp).imp List.mem_map.mp List.mem_map.mp

/-- No leaf lies below another: a path that begins another is the same leaf's (R177). -/
theorem HTree.eq_of_path_prefix {h : HTree} {p q : Byte × List Bool} (hp : p ∈ h.paths) (hq : q ∈ h.paths)
    (hpq : p.2 <+: q.2) : p = q := by
  induction h generalizing p q with
  | leaf v => exact (List.mem_singleton.mp hp).trans (List.mem_singleton.mp hq).symm
  | single h ih =>
    obtain ⟨p', hp', rfl⟩ := List.mem_map.mp hp
    obtain ⟨q', hq', rfl⟩ := List.mem_map.mp hq
    rw [ih hp' hq' (List.cons_prefix_cons.mp hpq).2]
  | fork l r ihl ihr =>
    rcases mem_paths_fork hp with ⟨p', hp', rfl⟩ | ⟨p', hp', rfl⟩ <;>
      rcases mem_paths_fork hq with ⟨q', hq', rfl⟩ | ⟨q', hq', rfl⟩ <;>
      obtain ⟨hbit, htail⟩ := List.cons_prefix_cons.mp hpq
    · rw [ihl hp' hq' htail]
    · cases hbit
    · cases hbit
    · rw [ihr hp' hq' htail]

/-- In a tree of BUILD's shapes the root is no leaf, so no path is empty (R175, R177). -/
theorem HTree.path_length_pos {h : HTree} (hp : h.proper = true) {p : Byte × List Bool} (hmem : p ∈ h.paths) :
    1 ≤ p.2.length := by
  cases h with
  | leaf v => cases hp
  | single h =>
    obtain ⟨q, _, rfl⟩ := List.mem_map.mp hmem
    simp
  | fork l r =>
    rcases mem_paths_fork hmem with ⟨q, _, rfl⟩ | ⟨q, _, rfl⟩ <;> simp

/-- The paths, each behind the path `pre` to the tree's own root. -/
def HTree.pathsFrom (pre : List Bool) (h : HTree) : List (Byte × List Bool) := h.paths.map fun p => (p.1, pre ++ p.2)

theorem HTree.pathsFrom_leaf (pre : List Bool) (v : Byte) : (HTree.leaf v).pathsFrom pre = [(v, pre)] := by
  simp [HTree.pathsFrom, HTree.paths]

theorem HTree.pathsFrom_single (pre : List Bool) (h : HTree) :
    (HTree.single h).pathsFrom pre = h.pathsFrom (pre ++ [false]) := by
  simp [HTree.pathsFrom, HTree.paths]

theorem HTree.pathsFrom_fork (pre : List Bool) (l r : HTree) :
    (HTree.fork l r).pathsFrom pre = l.pathsFrom (pre ++ [false]) ++ r.pathsFrom (pre ++ [true]) := by
  simp [HTree.pathsFrom, HTree.paths, Function.comp_def]

theorem HTree.pathsFrom_nil (h : HTree) : h.pathsFrom [] = h.paths := List.map_id' _

/-! The records written for a list of paths -/

/-- The codebook once the record of each path has been written over `cb`, in order. -/
def writePaths (ps : List (Byte × List Bool)) (cb : List Code) : List Code :=
  ps.foldl (fun cb p => cb.set p.1.toNat (pathCode p.2)) cb

theorem writePaths_append (ps qs : List (Byte × List Bool)) (cb : List Code) :
    writePaths (ps ++ qs) cb = writePaths qs (writePaths ps cb) := List.foldl_append

/-- The record of a symbol without a path stays. -/
theorem getElem?_writePaths_of_notMem {ps : List (Byte × List Bool)} {v : Byte} (hv : v ∉ ps.map Prod.fst)
    (cb : List Code) : (writePaths ps cb)[v.toNat]? = cb[v.toNat]? := by
  induction ps generalizing cb with
  | nil => rfl
  | cons p ps ih =>
    obtain ⟨hp, hps⟩ := List.ne_and_not_mem_of_not_mem_cons hv
    exact (ih hps _).trans (List.getElem?_set_ne fun h => hp (BitVec.eq_of_toNat_eq h).symm)

/-- With distinct symbols, the record of a symbol with a path is that of its path. -/
theorem getElem?_writePaths_of_mem {ps : List (Byte × List Bool)} (hnd : (ps.map Prod.fst).Nodup)
    {p : Byte × List Bool} (hp : p ∈ ps) {cb : List Code} (hcb : cb.length = nsym) :
    (writePaths ps cb)[p.1.toNat]? = some (pathCode p.2) := by
  induction ps generalizing cb with
  | nil => cases hp
  | cons q ps ih =>
    obtain ⟨hq, hps⟩ := List.nodup_cons.mp hnd
    rcases List.mem_cons.mp hp with rfl | hp
    · exact (getElem?_writePaths_of_notMem hq _).trans (List.getElem?_set_self (hcb ▸ p.1.isLt))
    · exact ih hps hp ((List.length_set ..).trans hcb)

/-! The walk (R170 to R174) -/

/-- A tree of NODE is read by its first record: a leaf, or the trees below the children. -/
theorem readTree_cases {s : State} {n i : Nat} {h : HTree} (hr : readTree s (n + 1) i = some h) :
    i < nnode ∧
      (((s.nodeAt i).leaf = true ∧ h = .leaf (s.nodeAt i).sym)
        ∨ ((s.nodeAt i).leaf = false ∧ ∃ l, readTree s n (s.nodeAt i).left.toNat = some l
          ∧ (((s.nodeAt i).rv = false ∧ h = .single l)
            ∨ ((s.nodeAt i).rv = true ∧ ∃ r, readTree s n (s.nodeAt i).right.toNat = some r ∧ h = .fork l r)))) := by
  simp only [readTree] at hr
  split at hr
  · refine ⟨‹_›, ?_⟩
    split at hr
    · cases hr
      exact .inl ⟨‹_›, rfl⟩
    · refine .inr ⟨Bool.eq_false_of_not_eq_true ‹_›, ?_⟩
      split at hr
      · cases hr
      · refine ⟨_, ‹_›, ?_⟩
        split at hr
        · obtain ⟨r, hright, rfl⟩ := Option.map_eq_some_iff.mp hr
          exact .inr ⟨‹_›, r, hright, rfl⟩
        · cases hr
          exact .inl ⟨Bool.eq_false_of_not_eq_true ‹_›, rfl⟩
  · cases hr

/-- A tree read within `levels` levels has no path of that many bits (41_tree_builder R163). -/
theorem path_length_lt_of_readTree {s : State} {levels i : Nat} {h : HTree} (hr : readTree s levels i = some h)
    {p : Byte × List Bool} (hp : p ∈ h.paths) : p.2.length < levels := by
  induction levels generalizing i h p with
  | zero => cases hr
  | succ n ih =>
    obtain ⟨_, ⟨_, rfl⟩ | ⟨_, l, hl, ⟨_, rfl⟩ | ⟨_, r, hright, rfl⟩⟩⟩ := readTree_cases hr
    · obtain rfl := List.mem_singleton.mp hp
      exact Nat.succ_pos n
    · obtain ⟨q, hq, rfl⟩ := List.mem_map.mp hp
      exact Nat.succ_lt_succ (ih hl hq)
    · rcases HTree.mem_paths_fork hp with ⟨q, hq, rfl⟩ | ⟨q, hq, rfl⟩
      · exact Nat.succ_lt_succ (ih hl hq)
      · exact Nat.succ_lt_succ (ih hright hq)

/-- The walk below a tree of NODE writes the record of each path and counts the leaves; its arguments l and v are the
length and the number of the path so far (R172, R173). -/
theorem walk_of_readTree {s : State} {levels i : Nat} {h : HTree} (hr : readTree s levels i = some h)
    (pre : List Bool) (w : Walked) :
    walk s levels i pre.length (bitsVal pre) w
      = some ⟨writePaths (h.pathsFrom pre) w.cb, w.cnt + h.symbols.length⟩ := by
  induction levels generalizing i h pre w with
  | zero => cases hr
  | succ n ih =>
    have hbelow (b : Bool) {j : Nat} {c : HTree} (hc : readTree s n j = some c) (w : Walked) :
        walk s n j (pre.length + 1) (Nat.bit b (bitsVal pre)) w
          = some ⟨writePaths (c.pathsFrom (pre ++ [b])) w.cb, w.cnt + c.symbols.length⟩ := by
      rw [← ih hc, bitsVal_append_bit, List.length_append, List.length_singleton]
    obtain ⟨hi, ⟨hleaf, rfl⟩ | ⟨hleaf, l, hl, hchildren⟩⟩ := readTree_cases hr
    · simp [walk, hi, hleaf, HTree.pathsFrom_leaf, writePaths, pathCode, HTree.symbols]
    · have hleft := hbelow false hl w
      rw [Nat.bit_false_apply] at hleft
      rcases hchildren with ⟨hrv, rfl⟩ | ⟨hrv, r, hright, rfl⟩
      · simp [walk, hi, hleaf, hleft, hrv, HTree.pathsFrom_single, HTree.symbols]
      · have hright := hbelow true hright ⟨writePaths (l.pathsFrom (pre ++ [false])) w.cb, w.cnt + l.symbols.length⟩
        rw [Nat.bit_true_apply] at hright
        simp [walk, hi, hleaf, hleft, hrv, hright, HTree.pathsFrom_fork, writePaths_append, HTree.symbols, Nat.add_assoc]

/-- The whole walk over a tree of at most 256 leaves. -/
theorem walkTree_of_tree {s : State} {h : HTree} (ht : s.tree? = some h) (hfew : h.symbols.length ≤ nsym) :
    walkTree s = some ⟨writePaths h.paths clearedCb, h.symbols.length⟩ := by
  have hwalk : walk s (maxLen + 1) s.root.toNat 0 0 ⟨clearedCb, 0⟩
      = some ⟨writePaths (h.pathsFrom []) clearedCb, 0 + h.symbols.length⟩ := walk_of_readTree ht [] _
  rw [h.pathsFrom_nil, Nat.zero_add] at hwalk
  rw [walkTree, hwalk]
  exact if_pos hfew

/-! How CODEGEN ends -/

/-- The state a completed CODEGEN answers: CB and SYM_CNT hold what the walk has written. -/
abbrev State.coding (s : State) (w : Walked) : State :=
  { s with
    phase := 0
    status := { s.status with busy := false, done := true, cbV := true }
    cb := ⟨w.cb, s.cb.stamp⟩
    symCnt := BitVec.ofNat 32 w.cnt }

/-- The walk of the begun command is that of the state it was issued at. -/
theorem State.walkTree_begun (s : State) :
    walkTree ((s.beginCommand.setPhase .cg).setFlag .cb false) = walkTree s :=
  walkTree_congr (State.nodeAt_congr rfl) rfl

/-- CODEGEN completes when the walk does. -/
theorem exec_codegen_completes {s : State} (hm : s.mode = .idle) (htree : s.flag .tree = true) {w : Walked}
    (hw : walkTree s = some w) : exec .codegen s = .next (s.coding w) := by
  have hwalk := s.walkTree_begun.trans hw
  rw [exec_of_commandBody rfl, issue_idle _ hm]
  rcases codegenBody_cases s.beginCommand with ⟨h, _⟩ | ⟨_, h, _⟩ | ⟨_, w', h, hb⟩
  · exact absurd (htree.symm.trans h) (by decide)
  · cases hwalk.symm.trans h
  · cases hwalk.symm.trans h
    rw [hb]
    rfl

/-- Everything CODEGEN can do when it answers a next state: its word is dropped, it completes, or it raises at its
start. -/
theorem exec_codegen_cases {s t : State} (h : exec .codegen s = .next t) :
    t = s ∨ (s.mode = .idle ∧ ∃ w, t = s.coding w) ∨ ∃ e info, t = (s.atStart .cg [.cb]).raise e info := by
  rw [exec_of_commandBody rfl] at h
  by_cases hm : s.mode = .idle
  · rw [issue_idle _ hm] at h
    rcases codegenBody_cases s.beginCommand with ⟨_, hb⟩ | ⟨_, _, hb⟩ | ⟨_, w, _, hb⟩ <;> rw [hb] at h <;> cases h
    · exact .inr (.inr ⟨_, _, rfl⟩)
    · exact .inr (.inl ⟨hm, w, rfl⟩)
  · rw [issue_dropped _ hm] at h
    cases h
    exact .inl rfl

/-- A record of CB the walk has listed is the one read. -/
theorem State.coding_cbAt {s : State} {w : Walked} {v : Nat} {c : Code} (h : w.cb[v]? = some c) :
    (s.coding w).cbAt v = c := by
  simp [State.cbAt, h]

/-- Settles O20: the walk over the tree completes (`walkTree_of_tree`), and of the records it has written over the
cleared codebook each leaf's is that of its path. -/
theorem codegenRecordsPaths : Obligations.CodegenRecordsPaths := by
  intro s h hm htree ht hnd hfew
  obtain ⟨_, herr⟩ := s.mode_idle_iff.mp hm
  have hsyms := h.map_fst_paths
  refine ⟨_, exec_codegen_completes hm htree (walkTree_of_tree ht hfew), ⟨rfl, rfl, herr, rfl, rfl, rfl⟩, rfl, ?_,
    fun p hp => ?_, fun v hv => ?_⟩
  · exact Nat.mod_eq_of_lt (Nat.lt_of_le_of_lt hfew (by decide))
  · have hlen : p.2.length ≤ maxLen := Nat.le_of_lt_succ (path_length_lt_of_readTree ht hp)
    rw [State.coding_cbAt (getElem?_writePaths_of_mem (hsyms ▸ hnd) hp List.length_replicate)]
    exact ⟨rfl, len_pathCode hlen, codeBits_pathCode hlen⟩
  · rw [← hsyms] at hv
    exact State.coding_cbAt ((getElem?_writePaths_of_notMem hv _).trans
      (List.getElem?_replicate.trans (if_pos v.isLt)))

/-! The codebook as a set of records -/

/-- A codebook is `PrefixFree` when no valid codeword of a symbol begins that of another symbol. -/
theorem State.prefixFree_codebook {s : State}
    (h : ∀ x y : Byte, (s.cbAt x.toNat).valid = true → (s.cbAt y.toNat).valid = true →
      codeBits (s.cbAt x.toNat) <+: codeBits (s.cbAt y.toNat) → x = y) : PrefixFree s.codebook := by
  rw [PrefixFree, List.pairwise_map, List.pairwise_filter, State.codebook, List.pairwise_map]
  refine List.pairwise_lt_range.imp_of_mem fun {i j} hi hj hlt hvi hvj => ?_
  obtain ⟨x, rfl⟩ : ∃ x : Byte, x.toNat = i := ⟨BitVec.ofNat 8 i, Nat.mod_eq_of_lt (List.mem_range.mp hi)⟩
  obtain ⟨y, rfl⟩ : ∃ y : Byte, y.toNat = j := ⟨BitVec.ofNat 8 j, Nat.mod_eq_of_lt (List.mem_range.mp hj)⟩
  exact ⟨fun hxy => hlt.ne (h x y hvi hvj hxy ▸ rfl), fun hyx => hlt.ne (h y x hvj hvi hyx ▸ rfl)⟩

theorem State.exists_of_mem_codebook {s : State} {c : Code} (hc : c ∈ s.codebook) : ∃ x : Byte, s.cbAt x.toNat = c := by
  obtain ⟨v, hv, rfl⟩ := List.mem_map.mp hc
  exact ⟨BitVec.ofNat 8 v, congrArg _ (Nat.mod_eq_of_lt (List.mem_range.mp hv))⟩

/-- Settles O22: by O20 the valid codewords are the paths of the tree, of which none begins another and, in BUILD's
shapes, none is empty. -/
theorem codegenIsPrefixFree : Obligations.CodegenIsPrefixFree := by
  intro s t hm htree htreeOk hexec
  obtain ⟨h, ht, hproper, hnd, hfew⟩ := htreeOk htree
  obtain ⟨t', hexec', _, _, _, hpaths, hclear⟩ := codegenRecordsPaths s h hm htree ht hnd hfew
  obtain rfl : t = t' := by cases hexec.symm.trans hexec'; rfl
  have hpath (x : Byte) (hx : (t.cbAt x.toNat).valid = true) : ∃ bits, (x, bits) ∈ h.paths := by
    have hmem : x ∈ h.paths.map Prod.fst := by
      by_contra hno
      rw [hclear x (h.map_fst_paths ▸ hno)] at hx
      cases hx
    obtain ⟨⟨_, bits⟩, hp, rfl⟩ := List.mem_map.mp hmem
    exact ⟨bits, hp⟩
  constructor
  · refine State.prefixFree_codebook fun x y hx hy hxy => ?_
    obtain ⟨xs, hxs⟩ := hpath x hx
    obtain ⟨ys, hys⟩ := hpath y hy
    obtain ⟨_, _, hxbits⟩ := hpaths _ hxs
    obtain ⟨_, _, hybits⟩ := hpaths _ hys
    rw [hxbits, hybits] at hxy
    exact congrArg Prod.fst (HTree.eq_of_path_prefix hxs hys hxy)
  · intro c hc hvalid
    obtain ⟨x, rfl⟩ := State.exists_of_mem_codebook hc
    obtain ⟨bits, hp⟩ := hpath x hvalid
    obtain ⟨_, hlen, _⟩ := hpaths _ hp
    exact hlen ▸ HTree.path_length_pos hproper hp

/-- Settles O23, by the cases of `exec_codegen_cases`: a completed CODEGEN writes CB, SYM_CNT, CB_V and the registers of
its ending; a raise is the one of `onlyTheFaultRecorded_atStart`. -/
theorem codegenFrame : Obligations.CodegenFrame := by
  intro s t h
  rcases exec_codegen_cases h with rfl | ⟨hm, w, rfl⟩ | ⟨e, info, rfl⟩
  · exact ⟨fun _ _ => rfl, fun _ _ => rfl, fun _ _ _ => rfl, fun _ => rfl, fun _ => rfl, ⟨rfl, rfl⟩,
      fun _ => ⟨fun _ _ => rfl, fun _ => rfl⟩⟩
  · refine ⟨fun n hn => ?_, fun f hf => ?_, fun sp _ i => ?_, fun _ => rfl, fun _ => rfl, ⟨rfl, rfl⟩, fun herr => ?_⟩
    · induction n using reg_cases
      case h1 | h2 | h3 | h4 | h8 => simp at hn
      all_goals rfl
    · cases f
      case cb => simp at hf
      all_goals rfl
    · exact State.byteAt_congr (by cases sp <;> rfl) i
    · obtain ⟨_, hclear⟩ := s.mode_idle_iff.mp hm
      exact absurd herr (by simp [hclear])
  · obtain ⟨_, hflags, hregs, hbytes, hfreqs, hnodes, hcodes, houtside⟩ :=
      onlyTheFaultRecorded_atStart s .cg [.cb] e info
    exact ⟨fun n hn => hregs n fun h => hn (List.mem_append_left [8] h), hflags, hbytes, hfreqs, hnodes, houtside,
      fun _ => ⟨hregs, hcodes⟩⟩

end Sys2Proof.Machine
end

section
/-! PROOFS. PACK: the packer's working state is a function of the bits it has taken in, so the packing comes to the
codewords joined, padded and cut into bytes, or raises where they stop fitting (43_bit_packer R190 to R198). -/

namespace Sys2Proof.Machine

/-! Bits, numbers and bytes (00_scope R13, 20_memory R72) -/

theorem two_mul_add_bitNat (v : Nat) (b : Bool) : 2 * v + bitNat b = Nat.bit b v := by
  cases b <;> simp [bitNat, Nat.bit]

/-- Zero bits at the end shift the number. -/
theorem bitsVal_append_zeros (bits : List Bool) (n : Nat) :
    bitsVal (bits ++ List.replicate n false) = bitsVal bits * 2 ^ n := by
  induction n with
  | zero => simp
  | succ n ih =>
    rw [List.replicate_succ', ← List.append_assoc, bitsVal_append_bit, ih, Nat.bit_false_apply, Nat.pow_succ]
    ring

/-- Two runs of consecutive bytes, the second right after the first, are one. -/
theorem Memory.write_append (m : Memory) (a : Nat) (bs cs : List Byte) :
    m.write a (bs ++ cs) = (m.write a bs).write (a + bs.length) cs := by
  induction bs generalizing m a with
  | nil => rfl
  | cons b bs ih =>
    rw [List.cons_append, Memory.write, ih, List.length_cons, Nat.add_comm bs.length, ← Nat.add_assoc]
    rfl

/-- The bits after the last whole byte, at most seven. -/
def pendingBits (bits : List Bool) : List Bool := bits.drop (8 * (bits.length / 8))

/-- The byte whose bits are the eight given, the most significant first. -/
def byteOf (bits : List Bool) : Byte := BitVec.ofNat 8 (bitsVal bits)

/-- The whole bytes of a bit string. -/
def wholeBytes (bits : List Bool) : List Byte :=
  (List.range (bits.length / 8)).map fun k => byteOf ((bits.drop (8 * k)).take 8)

@[simp] theorem length_wholeBytes (bits : List Bool) : (wholeBytes bits).length = bits.length / 8 := by
  simp [wholeBytes]

@[simp] theorem length_pendingBits (bits : List Bool) : (pendingBits bits).length = bits.length % 8 := by
  simp only [pendingBits, List.length_drop]
  omega

/-- Bits added at the end change none of the whole bytes. -/
theorem map_chunks_append (bits more : List Bool) :
    ((List.range (bits.length / 8)).map fun k => byteOf (((bits ++ more).drop (8 * k)).take 8)) = wholeBytes bits := by
  refine List.map_congr_left fun k hk => ?_
  have hlt := List.mem_range.mp hk
  rw [List.drop_append_of_le_length (by omega), List.take_append_of_le_length (by simp; omega)]

theorem wholeBytes_append_of_lt {bits more : List Bool} (h : bits.length % 8 + more.length < 8) :
    wholeBytes (bits ++ more) = wholeBytes bits := by
  have hlen : (bits ++ more).length / 8 = bits.length / 8 := by rw [List.length_append]; omega
  rw [wholeBytes, hlen, map_chunks_append]

/-- Bits that fill the last byte make one byte more. -/
theorem wholeBytes_append_of_eq {bits more : List Bool} (h : bits.length % 8 + more.length = 8) :
    wholeBytes (bits ++ more) = wholeBytes bits ++ [byteOf (pendingBits bits ++ more)] := by
  have hlen : (bits ++ more).length / 8 = bits.length / 8 + 1 := by rw [List.length_append]; omega
  rw [wholeBytes, hlen, List.range_succ, List.map_append, map_chunks_append, List.map_singleton,
    List.drop_append_of_le_length (by omega), List.take_of_length_le (by simp; omega), pendingBits]

theorem pendingBits_append_of_lt {bits more : List Bool} (h : bits.length % 8 + more.length < 8) :
    pendingBits (bits ++ more) = pendingBits bits ++ more := by
  have hlen : (bits ++ more).length / 8 = bits.length / 8 := by rw [List.length_append]; omega
  rw [pendingBits, hlen, List.drop_append_of_le_length (by omega), pendingBits]

theorem pendingBits_eq_nil {bits : List Bool} (h : bits.length % 8 = 0) : pendingBits bits = [] :=
  List.eq_nil_of_length_eq_zero (by simp [h])

theorem getLsbD_byteOf {bits : List Bool} (h : bits.length = 8) {m : Nat} (hm : m < 8) :
    (byteOf bits).getLsbD (7 - m) = bits.getD m false := by
  have hrev : bits.reverse[7 - m]? = bits[m]? := by
    rw [List.getElem?_reverse (by omega)]
    congr 1
    omega
  rw [byteOf, BitVec.getLsbD_ofNat, testBit_bitsVal, List.getD, hrev, List.getD]
  simp; omega

theorem getElem?_wholeBytes {bits : List Bool} {k : Nat} (hk : k < bits.length / 8) :
    (wholeBytes bits)[k]? = some (byteOf ((bits.drop (8 * k)).take 8)) := by
  simp [wholeBytes, hk]

/-- Bit j of PAY is bit j of the bit string whose whole byte is there (20_memory R72). -/
theorem State.bitAt_of_wholeBytes {t : State} {bits : List Bool} {j : Nat} (hj : j < 8 * (bits.length / 8))
    (hpay : t.pay.get? (j / 8) = (wholeBytes bits)[j / 8]?) : t.bitAt .pay j = bits.getD j false := by
  have hbyte : t.byteAt .pay (j / 8) = byteOf ((bits.drop (8 * (j / 8))).take 8) :=
    State.byteAt_of_get? (hpay.trans (getElem?_wholeBytes (by omega)))
  have hmod := Nat.mod_lt j (show 0 < 8 by decide)
  rw [State.bitAt, hbyte, getLsbD_byteOf (by simp; omega) hmod]
  simp [List.getD, hmod, Nat.div_add_mod]

/-! One bit (R190, R195, R198) -/

theorem PackWork.emit_of_lt {cap : Nat} {w : PackWork} (info v : Nat) (h : w.wp < cap) :
    w.emit cap info v = .on { w with pay := w.pay.set w.wp (BitVec.ofNat 8 v), wp := w.wp + 1 } := if_pos h

theorem PackWork.emit_of_le {cap : Nat} {w : PackWork} (info v : Nat) (h : cap ≤ w.wp) :
    w.emit cap info v = .raised .capacity info w := if_neg (Nat.not_lt_of_le h)

section
variable {cap : Nat} {w : PackWork} (info : Nat) (b : Bool)

/-- A bit that does not fill its byte is pending. -/
theorem PackWork.push_pending (h : w.baccN + 1 ≠ 8) :
    w.push cap info b = .on { w with baccN := w.baccN + 1, baccV := Nat.bit b w.baccV } := by
  rw [PackWork.push, two_mul_add_bitNat]
  exact if_neg h

/-- A bit that fills its byte has it written at WP. -/
theorem PackWork.push_whole (h : w.baccN + 1 = 8) (hroom : w.wp < cap) :
    w.push cap info b = .on { w with
      baccN := 0
      baccV := 0
      wp := w.wp + 1
      pay := w.pay.set w.wp (BitVec.ofNat 8 (Nat.bit b w.baccV)) } := by
  simp only [PackWork.push, two_mul_add_bitNat, h, if_true, PackWork.emit, hroom]

/-- A bit that fills its byte while PAY is full raises CapacityError (R195). -/
theorem PackWork.push_full (h : w.baccN + 1 = 8) (hfull : cap ≤ w.wp) :
    w.push cap info b = .raised .capacity info { w with baccN := 8, baccV := Nat.bit b w.baccV } := by
  simp only [PackWork.push, two_mul_add_bitNat, h, if_true, PackWork.emit, Nat.not_lt_of_le hfull, if_false]

end

/-- The packer's working state over PAY once it has taken in the bits, for any bit total: a codeword is counted in the
total before its bits are taken in (R190, R198). -/
def PackWork.after (pay : Memory) (bits : List Bool) (total : Nat) : PackWork :=
  ⟨bits.length % 8, bitsVal (pendingBits bits), total, bits.length / 8, pay.write 0 (wholeBytes bits)⟩

theorem PackWork.after_nil (pay : Memory) : PackWork.after pay [] 0 = ⟨0, 0, 0, 0, pay⟩ := rfl

/-- The pending bits and the bits that fill their byte make the byte written at WP. -/
theorem set_after_wholeBytes (pay : Memory) {bits more : List Bool} (h : bits.length % 8 + more.length = 8) :
    (pay.write 0 (wholeBytes bits)).set (bits.length / 8) (byteOf (pendingBits bits ++ more))
      = pay.write 0 (wholeBytes (bits ++ more)) := by
  rw [wholeBytes_append_of_eq h, Memory.write_append, Nat.zero_add, length_wholeBytes]
  rfl

section
variable {cap : Nat} (info : Nat) (pay : Memory) (total : Nat) {bits : List Bool}

/-- A bit is taken in where the whole bytes with it fit. -/
theorem PackWork.push_after (b : Bool) (h : (bits.length + 1) / 8 ≤ cap) :
    (PackWork.after pay bits total).push cap info b = .on (PackWork.after pay (bits ++ [b]) total) := by
  have hlen : (bits ++ [b]).length = bits.length + 1 := List.length_append
  by_cases hlast : bits.length % 8 + 1 = 8
  · have hbyte := set_after_wholeBytes pay (more := [b]) hlast
    rw [byteOf, bitsVal_append_bit] at hbyte
    have hmod : (bits.length + 1) % 8 = 0 := by omega
    have hdiv : (bits.length + 1) / 8 = bits.length / 8 + 1 := by omega
    have hroom : bits.length / 8 < cap := by omega
    have hnone : pendingBits (bits ++ [b]) = [] := pendingBits_eq_nil (by rw [hlen, hmod])
    rw [PackWork.push_whole info b hlast hroom, PackWork.after, PackWork.after, hlen, hmod, hdiv, hbyte, hnone]
    rfl
  · have hshort : bits.length % 8 + [b].length < 8 := by simp; omega
    have hmod : (bits.length + 1) % 8 = bits.length % 8 + 1 := by omega
    have hdiv : (bits.length + 1) / 8 = bits.length / 8 := by omega
    rw [PackWork.push_pending info b hlast, PackWork.after, PackWork.after, hlen, hmod, hdiv,
      wholeBytes_append_of_lt hshort, pendingBits_append_of_lt hshort, bitsVal_append_bit]

/-- A codeword is taken in where the whole bytes with it fit. -/
theorem pushBits_after (bs : List Bool) (h : (bits ++ bs).length / 8 ≤ cap) :
    pushBits cap info bs (PackWork.after pay bits total) = .on (PackWork.after pay (bits ++ bs) total) := by
  induction bs generalizing bits with
  | nil => rw [List.append_nil, pushBits]
  | cons b bs ih =>
    rw [List.append_cons] at h ⊢
    rw [pushBits, PackWork.push_after info pay total b (by simp at h; omega)]
    exact ih h

/-- A codeword whose whole bytes do not fit raises CapacityError (R195). -/
theorem pushBits_after_full (bs : List Bool) (hroom : bits.length / 8 ≤ cap) (h : cap < (bits ++ bs).length / 8) :
    ∃ w, pushBits cap info bs (PackWork.after pay bits total) = .raised .capacity info w := by
  induction bs generalizing bits with
  | nil => rw [List.append_nil] at h; omega
  | cons b bs ih =>
    rw [pushBits]
    rcases Nat.lt_or_ge cap ((bits.length + 1) / 8) with hfull | hnext
    · rw [PackWork.push_full info b (show bits.length % 8 + 1 = 8 by omega)
        (show cap ≤ bits.length / 8 by omega)]
      exact ⟨_, rfl⟩
    · rw [PackWork.push_after info pay total b hnext]
      exact ih (by simpa using hnext) (by rwa [List.append_cons] at h)

end

/-! The packer writes at WP and upwards alone -/

/-- From `w` to `w'` the packer has written consecutive bytes from the WP of `w` up to that of `w'`. -/
def PackWork.Appends (w w' : PackWork) : Prop := ∃ bs, w'.wp = w.wp + bs.length ∧ w'.pay = w.pay.write w.wp bs

theorem PackWork.Appends.refl (w : PackWork) : w.Appends w := ⟨[], rfl, rfl⟩

theorem PackWork.Appends.trans {w₁ w₂ w₃ : PackWork} (h₁ : w₁.Appends w₂) (h₂ : w₂.Appends w₃) : w₁.Appends w₃ := by
  obtain ⟨bs, hwp, hpay⟩ := h₁
  obtain ⟨cs, hwp', hpay'⟩ := h₂
  refine ⟨bs ++ cs, ?_, ?_⟩
  · rw [hwp', hwp, List.length_append, Nat.add_assoc]
  · rw [hpay', hpay, hwp, Memory.write_append]

section
variable (cap info : Nat) (w : PackWork)

theorem PackWork.emit_appends (v : Nat) : w.Appends (w.emit cap info v).work := by
  rw [PackWork.emit]
  split
  · exact ⟨[BitVec.ofNat 8 v], rfl, rfl⟩
  · exact .refl w

theorem PackWork.push_appends (b : Bool) : w.Appends (w.push cap info b).work := by
  by_cases hlast : w.baccN + 1 = 8
  · rcases Nat.lt_or_ge w.wp cap with hroom | hfull
    · rw [PackWork.push_whole info b hlast hroom]
      exact ⟨[_], rfl, rfl⟩
    · rw [PackWork.push_full info b hlast hfull]
      exact .refl w
  · rw [PackWork.push_pending info b hlast]
    exact .refl w

theorem pushBits_appends (bs : List Bool) : w.Appends (pushBits cap info bs w).work := by
  induction bs generalizing w with
  | nil => exact .refl w
  | cons b bs ih =>
    have hpush := w.push_appends cap info b
    rw [pushBits]
    split
    · rename_i w₁ h₁
      rw [h₁] at hpush
      exact hpush.trans (ih w₁)
    · exact hpush

theorem padLast_appends : w.Appends (padLast cap info w).work := by
  rw [padLast]
  split
  · exact w.emit_appends cap info _
  · exact .refl w

theorem packBytes_appends (cb : List Code) (rp : Nat) (xs : List Byte) :
    w.Appends (packBytes cb cap rp xs w).work := by
  induction xs generalizing rp w with
  | nil => exact .refl w
  | cons x xs ih =>
    rw [packBytes]
    simp only
    split
    · split
      · exact .refl w
      · have hbits := pushBits_appends cap rp { w with bits := w.bits + (cb.getD x.toNat Code.clear).len.toNat }
          (codeBits (cb.getD x.toNat Code.clear))
        split
        · rename_i w₁ h₁
          rw [h₁] at hbits
          exact hbits.trans (ih w₁ _)
        · exact hbits
    · exact .refl w

end

theorem packAll_appends (cb : List Code) (cap : Nat) (bytes : List Byte) (pay : Memory) :
    (PackWork.mk 0 0 0 0 pay).Appends (packAll cb cap bytes pay).work := by
  have hbytes := packBytes_appends cap ⟨0, 0, 0, 0, pay⟩ cb 0 bytes
  rw [packAll]
  split
  · rename_i w h
    rw [h] at hbytes
    exact hbytes.trans (padLast_appends cap _ w)
  · exact hbytes

/-- The whole bytes of the bits taken in stay in PAY. -/
theorem PackWork.Appends.get?_written {pay : Memory} {bits : List Bool} {total : Nat} {w : PackWork}
    (h : (PackWork.after pay bits total).Appends w) {k : Nat} (hk : k < bits.length / 8) :
    w.pay.get? k = (wholeBytes bits)[k]? := by
  obtain ⟨bs, _, hpay⟩ := h
  rw [hpay, Memory.get?_write, if_neg (fun h => Nat.not_lt_of_le h.1 hk), PackWork.after, Memory.get?_write,
    if_pos (by simpa using hk), Nat.sub_zero]

/-! One byte of RAW (R190, R193, R194) -/

section
variable {s : State} {cap rp : Nat} {x : Byte} {xs : List Byte} {w : PackWork}

theorem packBytes_of_missing (hx : (s.cbAt x.toNat).valid = false) :
    packBytes s.codebook cap rp (x :: xs) w = .raised .missingCode rp w := by
  simp only [packBytes, State.codebook_getD s x.isLt, hx, Bool.false_eq_true, if_false]

theorem packBytes_of_total (hx : (s.cbAt x.toNat).valid = true) (h : 2 ^ 32 ≤ w.bits + (s.cbAt x.toNat).len.toNat) :
    packBytes s.codebook cap rp (x :: xs) w
      = .raised .capacity rp { w with bits := w.bits + (s.cbAt x.toNat).len.toNat } := by
  simp only [packBytes, State.codebook_getD s x.isLt, hx, if_true]
  exact if_pos (by omega)

theorem packBytes_of_on (hx : (s.cbAt x.toNat).valid = true) (h : w.bits + (s.cbAt x.toNat).len.toNat < 2 ^ 32)
    {w₁ : PackWork} (hbits : pushBits cap rp (codeBits (s.cbAt x.toNat))
      { w with bits := w.bits + (s.cbAt x.toNat).len.toNat } = .on w₁) :
    packBytes s.codebook cap rp (x :: xs) w = packBytes s.codebook cap (rp + 1) xs w₁ := by
  have hlt : ¬ 2 ^ 32 - 1 < w.bits + (s.cbAt x.toNat).len.toNat := by omega
  simp only [packBytes, State.codebook_getD s x.isLt, hx, if_true, if_neg hlt, hbits]

theorem packBytes_of_raised (hx : (s.cbAt x.toNat).valid = true) (h : w.bits + (s.cbAt x.toNat).len.toNat < 2 ^ 32)
    {e : ErrKind} {info : Nat} {w₁ : PackWork} (hbits : pushBits cap rp (codeBits (s.cbAt x.toNat))
      { w with bits := w.bits + (s.cbAt x.toNat).len.toNat } = .raised e info w₁) :
    packBytes s.codebook cap rp (x :: xs) w = .raised e info w₁ := by
  have hlt : ¬ 2 ^ 32 - 1 < w.bits + (s.cbAt x.toNat).len.toNat := by omega
  simp only [packBytes, State.codebook_getD s x.isLt, hx, if_true, if_neg hlt, hbits]

variable (pay : Memory)

/-- Bytes with codewords that fit are packed before what follows them (R192). -/
theorem packBytes_after {bits : List Bool} (ys : List Byte) (hxs : ∀ y ∈ xs, (s.cbAt y.toNat).valid = true)
    (htotal : (bits ++ s.bitString xs).length < 2 ^ 32) (hroom : (bits ++ s.bitString xs).length / 8 ≤ cap) :
    packBytes s.codebook cap rp (xs ++ ys) (PackWork.after pay bits bits.length)
      = packBytes s.codebook cap (rp + xs.length) ys
          (PackWork.after pay (bits ++ s.bitString xs) (bits ++ s.bitString xs).length) := by
  induction xs generalizing rp bits with
  | nil => simp [State.bitString]
  | cons x xs ih =>
    obtain ⟨hx, hxs⟩ := List.forall_mem_cons.mp hxs
    have hjoin : bits ++ s.bitString (x :: xs) = bits ++ codeBits (s.cbAt x.toNat) ++ s.bitString xs := by
      rw [State.bitString, List.flatMap_cons, ← List.append_assoc]
      rfl
    rw [hjoin] at htotal hroom ⊢
    have hpush := pushBits_after rp pay (bits.length + (s.cbAt x.toNat).len.toNat) (cap := cap) (bits := bits)
      (codeBits (s.cbAt x.toNat)) (by simp at hroom ⊢; omega)
    have hfits : bits.length + (s.cbAt x.toNat).len.toNat < 2 ^ 32 := by simp at htotal; omega
    rw [List.cons_append, packBytes_of_on hx hfits hpush, ← length_codeBits, ← List.length_append,
      ih hxs htotal hroom, List.length_cons, Nat.add_right_comm, Nat.add_assoc]

/-- A codeword that passes the bit total or the capacity raises and leaves what was packed before it (R194, R195). -/
theorem packBytes_runsOut {bits : List Bool} (hx : (s.cbAt x.toNat).valid = true) (hroom : bits.length / 8 ≤ cap)
    (h : 2 ^ 32 ≤ (bits ++ codeBits (s.cbAt x.toNat)).length ∨ cap < (bits ++ codeBits (s.cbAt x.toNat)).length / 8) :
    ∃ w, packBytes s.codebook cap rp (x :: xs) (PackWork.after pay bits bits.length) = .raised .capacity rp w
      ∧ (PackWork.after pay bits bits.length).Appends w := by
  rcases Nat.lt_or_ge (bits.length + (s.cbAt x.toNat).len.toNat) (2 ^ 32) with hlt | hge
  · have hfull : cap < (bits ++ codeBits (s.cbAt x.toNat)).length / 8 :=
      h.resolve_left (by simp; omega)
    obtain ⟨w, hpush⟩ := pushBits_after_full rp pay (bits.length + (s.cbAt x.toNat).len.toNat) _ hroom hfull
    have happends := pushBits_appends cap rp (PackWork.after pay bits (bits.length + (s.cbAt x.toNat).len.toNat))
      (codeBits (s.cbAt x.toNat))
    rw [hpush] at happends
    exact ⟨w, packBytes_of_raised hx hlt hpush, happends⟩
  · exact ⟨_, packBytes_of_total hx hge, .refl _⟩

end

/-! The last, partial byte (R190) -/

theorem padOf_lt (n : Nat) : padOf n < 8 := Nat.mod_lt _ (by decide)

theorem eight_mul_ceil8 (n : Nat) : 8 * ceil8 n = n + padOf n := by
  unfold ceil8 padOf
  omega

/-- The bit string with the zero bits that fill its last byte. -/
def padded (bits : List Bool) : List Bool := bits ++ List.replicate (padOf bits.length) false

theorem length_padded (bits : List Bool) : (padded bits).length = 8 * ceil8 bits.length := by
  rw [padded, List.length_append, List.length_replicate, eight_mul_ceil8]

theorem getD_padded (bits : List Bool) (j : Nat) : (padded bits).getD j false = bits.getD j false := by
  rcases Nat.lt_or_ge j bits.length with hlt | hge
  · exact List.getD_append _ _ _ _ hlt
  · rw [padded, List.getD_append_right _ _ _ _ hge, List.getD_eq_default _ _ hge]
    exact List.getElem?_getD_replicate_default_eq _ _ _

/-- The padding completes the bytes of the padded bit string, where they fit (R192). -/
theorem padLast_after {cap : Nat} (info : Nat) (pay : Memory) {bits : List Bool} (h : ceil8 bits.length ≤ cap) :
    ∃ w, padLast cap info (PackWork.after pay bits bits.length) = .on w ∧ w.bits = bits.length
      ∧ w.wp = ceil8 bits.length ∧ w.pay = pay.write 0 (wholeBytes (padded bits)) := by
  have hfill := eight_mul_ceil8 bits.length
  have hpad := padOf_lt bits.length
  rcases Nat.eq_zero_or_pos (padOf bits.length) with hnone | hsome
  · refine ⟨_, if_neg (Nat.not_lt_of_le hnone.le), rfl, ?_, ?_⟩
    · change bits.length / 8 = _
      omega
    · rw [padded, hnone, List.replicate_zero, List.append_nil, PackWork.after]
  · have hbyte := set_after_wholeBytes pay (bits := bits) (more := List.replicate (padOf bits.length) false)
      (by rw [List.length_replicate]; omega)
    rw [byteOf, bitsVal_append_zeros] at hbyte
    have hroom : bits.length / 8 < cap := by omega
    refine ⟨_, (if_pos hsome).trans (PackWork.emit_of_lt info _ hroom), rfl, ?_, hbyte⟩
    change bits.length / 8 + 1 = _
    omega

/-- A last, partial byte that does not fit raises CapacityError (R195). -/
theorem padLast_after_full {cap : Nat} (info : Nat) (pay : Memory) {bits : List Bool} (hroom : bits.length / 8 ≤ cap)
    (h : cap < ceil8 bits.length) :
    padLast cap info (PackWork.after pay bits bits.length)
      = .raised .capacity info (PackWork.after pay bits bits.length) := by
  have hfill := eight_mul_ceil8 bits.length
  have hpad := padOf_lt bits.length
  have hfull : cap ≤ bits.length / 8 := by omega
  exact (if_pos (show 0 < padOf bits.length by omega)).trans (PackWork.emit_of_le info _ hfull)

/-! The bytes of RAW in order -/

theorem State.readBytes_succ (s : State) (sp : Space) (n : Nat) :
    s.readBytes sp (n + 1) = s.readBytes sp n ++ [s.byteAt sp n] := by
  simp [State.readBytes, List.range_succ]

theorem State.readBytes_eq_append_cons (s : State) (sp : Space) {r n : Nat} (h : r < n) :
    ∃ rest, s.readBytes sp n = s.readBytes sp r ++ s.byteAt sp r :: rest := by
  refine ⟨(s.readBytes sp n).drop (r + 1), ?_⟩
  have htake : (s.readBytes sp n).take (r + 1) = s.readBytes sp (r + 1) := by
    rw [State.readBytes, ← List.map_take, List.take_range, Nat.min_eq_left h, State.readBytes]
  conv_lhs => rw [← List.take_append_drop (r + 1) (s.readBytes sp n), htake, s.readBytes_succ, List.append_assoc]
  rfl

/-- The bit string of the first n bytes of RAW. -/
abbrev State.rawBits (s : State) (n : Nat) : List Bool := s.bitString (s.readBytes .raw n)

theorem State.rawBits_succ (s : State) (n : Nat) :
    s.rawBits (n + 1) = s.rawBits n ++ codeBits (s.cbAt (s.byteAt .raw n).toNat) := by
  simp [State.bitString, s.readBytes_succ]

/-- What the packing of RAW over PAY comes to. -/
abbrev State.packs (s : State) : Packed :=
  packAll s.codebook s.params.payCap.cells (s.readBytes .raw s.rawLen.toNat) s.pay

/-- The bytes of RAW before index r have codewords, whose bits pass neither the bit total nor, in whole bytes,
PAY_CAP. -/
structure State.PacksTo (s : State) (r : Nat) : Prop where
  coded : ∀ i, i < r → (s.cbAt (s.byteAt .raw i).toNat).valid = true
  total : (s.rawBits r).length < 2 ^ 32
  room  : (s.rawBits r).length / 8 ≤ s.params.payCap.cells

section
variable {s : State} {r : Nat}

/-- The packer reaches byte r. -/
theorem packBytes_of_packsTo (h : s.PacksTo r) (rest : List Byte) :
    packBytes s.codebook s.params.payCap.cells 0 (s.readBytes .raw r ++ rest) ⟨0, 0, 0, 0, s.pay⟩
      = packBytes s.codebook s.params.payCap.cells r rest
          (PackWork.after s.pay (s.rawBits r) (s.rawBits r).length) := by
  have hcoded : ∀ y ∈ s.readBytes .raw r, (s.cbAt y.toNat).valid = true := by
    simpa [State.readBytes] using h.coded
  have happend := packBytes_after (rp := 0) (bits := []) s.pay rest hcoded h.total h.room
  rw [← PackWork.after_nil]
  rwa [Nat.zero_add, State.length_readBytes] at happend

/-- A raise at byte r is that of the whole packing. -/
theorem State.packs_raised (h : s.PacksTo r) (hr : r < s.rawLen.toNat) :
    ∃ rest, ∀ {e : ErrKind} {info : Nat} {w : PackWork},
      packBytes s.codebook s.params.payCap.cells r (s.byteAt .raw r :: rest)
        (PackWork.after s.pay (s.rawBits r) (s.rawBits r).length) = .raised e info w → s.packs = .raised e info w := by
  obtain ⟨rest, hsplit⟩ := s.readBytes_eq_append_cons .raw hr
  refine ⟨rest, fun hraise => ?_⟩
  rw [State.packs, packAll, hsplit, packBytes_of_packsTo h, hraise]

/-- After the bytes of RAW the last, partial byte is left. -/
theorem State.packs_of_all (h : s.PacksTo s.rawLen.toNat) :
    s.packs = padLast s.params.payCap.cells s.rawLen.toNat
      (PackWork.after s.pay (s.rawBits s.rawLen.toNat) (s.rawBits s.rawLen.toNat).length) := by
  have hbytes := packBytes_of_packsTo h []
  rw [List.append_nil, packBytes] at hbytes
  rw [State.packs, packAll, hbytes, State.length_readBytes]

end

/-! How PACK ends -/

/-- The state a completed PACK answers. -/
abbrev State.packing (s : State) (w : PackWork) : State :=
  { s with
    phase := 0
    status := { s.status with busy := false, done := true, payV := true }
    pay := w.pay
    padLen := BitVec.ofNat 8 (padOf w.bits)
    bitLen := BitVec.ofNat 32 w.bits
    payLen := BitVec.ofNat 32 w.wp }

/-- The state PACK raises into: PAY holds what was written before the raise (60_exceptions R302). -/
abbrev State.packFault (s : State) (e : ErrKind) (info : Word) (pay : Memory) : State :=
  ((s.atStart .bp [.pay]).raise e info).setMem .pay pay

/-- PACK completes when the packing of RAW does. -/
theorem exec_pack_completes {s : State} (hm : s.mode = .idle) (hcb : s.flag .cb = true)
    (hraw : s.rawLen.toNat ≤ s.params.rawCap.cells) {w : PackWork} (hw : s.packs = .on w) :
    exec .pack s = .next (s.packing w) := by
  rw [exec_of_commandBody rfl, issue_idle _ hm]
  rcases packBody_cases s.beginCommand with ⟨h, _⟩ | ⟨_, h, _⟩ | ⟨_, _, e, info, w', h, _⟩ | ⟨_, _, w', h, hb⟩
  · exact absurd (hcb.symm.trans h) (by decide)
  · exact absurd hraw (Nat.not_le_of_lt h)
  · cases hw.symm.trans h
  · cases hw.symm.trans h
    rw [hb]
    rfl

/-- PACK raises what the packing of RAW does. -/
theorem exec_pack_raises {s : State} (hm : s.mode = .idle) (hcb : s.flag .cb = true)
    (hraw : s.rawLen.toNat ≤ s.params.rawCap.cells) {e : ErrKind} {info : Nat} {w : PackWork}
    (hw : s.packs = .raised e info w) : exec .pack s = .next (s.packFault e (BitVec.ofNat 32 info) w.pay) := by
  rw [exec_of_commandBody rfl, issue_idle _ hm]
  rcases packBody_cases s.beginCommand with ⟨h, _⟩ | ⟨_, h, _⟩ | ⟨_, _, e', info', w', h, hb⟩ | ⟨_, _, w', h, _⟩
  · exact absurd (hcb.symm.trans h) (by decide)
  · exact absurd hraw (Nat.not_le_of_lt h)
  · cases hw.symm.trans h
    rw [hb]
    rfl
  · cases hw.symm.trans h

/-- Everything PACK can do when it answers a next state: its word is dropped, it completes, or it raises, at its start
or in the packing. -/
theorem exec_pack_cases {s t : State} (h : exec .pack s = .next t) :
    t = s ∨ (s.mode = .idle ∧ t = s.packing s.packs.work)
      ∨ ∃ e info pay, t = s.packFault e info pay ∧ (pay = s.pay ∨ pay = s.packs.work.pay) := by
  rw [exec_of_commandBody rfl] at h
  by_cases hm : s.mode = .idle
  · rw [issue_idle _ hm] at h
    rcases packBody_cases s.beginCommand with
      ⟨_, hb⟩ | ⟨_, _, hb⟩ | ⟨_, _, e, info, w, hw, hb⟩ | ⟨_, _, w, hw, hb⟩ <;> rw [hb] at h <;> cases h
    · exact .inr (.inr ⟨.sequence, 0x04, s.pay, rfl, .inl rfl⟩)
    · exact .inr (.inr ⟨.capacity, s.rawLen, s.pay, rfl, .inl rfl⟩)
    · have hpacks : s.packs = .raised e info w := hw
      exact .inr (.inr ⟨_, _, w.pay, rfl, .inr (hpacks ▸ rfl)⟩)
    · have hpacks : s.packs = .on w := hw
      exact .inr (.inl ⟨hm, hpacks ▸ rfl⟩)
  · rw [issue_dropped _ hm] at h
    cases h
    exact .inl rfl

theorem State.packFault_keepsRegs (s : State) (e : ErrKind) (info : Word) (pay : Memory) :
    KeepsRegs [1, 2, 3, 4] s (s.packFault e info pay) := by
  obtain ⟨_, _, hregs, _⟩ := onlyTheFaultRecorded_atStart s .bp [.pay] e info
  exact hregs

/-- Settles O24: with all of RAW packed (`State.packs_of_all`) the padding fits, and PAY holds the whole bytes of the
padded bit string. -/
theorem packJoinsCodewords : Obligations.PackJoinsCodewords := by
  intro s hm hcb hraw hcoded htotal hceil b
  change b.length < 2 ^ 32 at htotal
  change ceil8 b.length ≤ _ at hceil
  obtain ⟨_, herr⟩ := s.mode_idle_iff.mp hm
  have hfill := eight_mul_ceil8 b.length
  have hpad7 := padOf_lt b.length
  have hroom : b.length / 8 ≤ s.params.payCap.cells := by omega
  obtain ⟨w, hpad, hbits, hwp, hpay⟩ := padLast_after s.rawLen.toNat s.pay hceil
  have hpacks : s.packs = .on w := (State.packs_of_all ⟨hcoded, htotal, hroom⟩).trans hpad
  have hbitLen : (s.packing w).bitLen.toNat = b.length := by
    rw [BitVec.toNat_ofNat, hbits, Nat.mod_eq_of_lt htotal]
  have hpadLen : (s.packing w).padLen.toNat = padOf b.length := by
    rw [BitVec.toNat_ofNat, hbits, Nat.mod_eq_of_lt (by omega)]
  have hpayLen : (s.packing w).payLen.toNat = ceil8 b.length := by
    rw [BitVec.toNat_ofNat, hwp, Nat.mod_eq_of_lt (by omega)]
  refine ⟨s.packing w, exec_pack_completes hm hcb hraw hpacks, ⟨rfl, rfl, herr, rfl, rfl, rfl⟩, rfl, hbitLen, hpadLen,
    hpayLen, ?_, ?_, ?_, fun j hj => ?_⟩
  · rw [hpayLen, hpadLen, hfill]
  · rw [← BitVec.toNat_inj, hpadLen]
    change padOf b.length = 0 ↔ _
    omega
  · rw [hpadLen]
    omega
  · rw [hpayLen] at hj
    have hbytes : (padded b).length / 8 = ceil8 b.length := by rw [length_padded]; omega
    rw [← getD_padded]
    refine State.bitAt_of_wholeBytes (hbytes ▸ hj) ?_
    rw [show (s.packing w).pay = _ from hpay, Memory.get?_write, length_wholeBytes, hbytes, if_pos (by omega),
      Nat.sub_zero]

/-- Settles O25: the packer reaches byte r (`State.packs_raised`) and raises there. -/
theorem packReportsMissingCode : Obligations.PackReportsMissingCode := by
  intro s r hm hcb hraw hr hcoded hmissing htotal hroom
  obtain ⟨rest, hraise⟩ := State.packs_raised ⟨hcoded, htotal, hroom⟩ hr
  have hpacks := hraise (packBytes_of_missing hmissing)
  exact ⟨_, exec_pack_raises hm hcb hraw hpacks, ⟨rfl, rfl, rfl, rfl, rfl, rfl⟩, rfl, s.packFault_keepsRegs _ _ _⟩

/-- PACK runs out where the packing does, with the whole bytes of the bits taken in. -/
theorem packRunsOut_of_raised {s : State} (hm : s.mode = .idle) (hcb : s.flag .cb = true)
    (hraw : s.rawLen.toNat ≤ s.params.rawCap.cells) {info total : Nat} {bits : List Bool} {w : PackWork}
    (hw : s.packs = .raised .capacity info w) (happends : (PackWork.after s.pay bits total).Appends w) :
    PackRunsOut info (bits.length / 8) bits s :=
  ⟨_, exec_pack_raises hm hcb hraw hw, ⟨rfl, rfl, rfl, rfl, rfl, rfl⟩, rfl, s.packFault_keepsRegs _ _ _,
    fun _ hj => State.bitAt_of_wholeBytes hj (happends.get?_written (by omega))⟩

/-- Settles O58: byte r runs out of bits or of room (`packBytes_runsOut`), or the last, partial byte does
(`padLast_after_full`); the whole bytes before it stay in PAY. -/
theorem packReportsCapacity : Obligations.PackReportsCapacity := by
  intro s hm hcb hraw bits cap
  constructor
  · intro r hr hcoded htotal hroom hover
    obtain ⟨rest, hraise⟩ := State.packs_raised ⟨fun i hi => hcoded i hi.le, htotal, hroom⟩ hr
    rw [show bits (r + 1) = _ from s.rawBits_succ r] at hover
    obtain ⟨w, hfull, happends⟩ := packBytes_runsOut s.pay (hcoded r le_rfl) hroom hover
    exact packRunsOut_of_raised hm hcb hraw (hraise hfull) happends
  · intro hcoded htotal hroom hceil
    have hpacks := (State.packs_of_all ⟨hcoded, htotal, hroom⟩).trans (padLast_after_full _ _ hroom hceil)
    have hfill := eight_mul_ceil8 (bits s.rawLen.toNat).length
    have hpad7 := padOf_lt (bits s.rawLen.toNat).length
    have hcap : cap = (bits s.rawLen.toNat).length / 8 := by omega
    rw [hcap]
    exact packRunsOut_of_raised hm hcb hraw hpacks (.refl _)

/-- Settles O26, by the cases of `exec_pack_cases`: a completed PACK writes its three registers, PAY_V and the registers
of its ending; a raise is the one of `onlyTheFaultRecorded_atStart` but for PAY, which is written below WP alone. -/
theorem packFrame : Obligations.PackFrame := by
  intro s t h
  obtain ⟨bs, hwp, hpay⟩ := packAll_appends s.codebook s.params.payCap.cells (s.readBytes .raw s.rawLen.toNat) s.pay
  rcases exec_pack_cases h with rfl | ⟨hm, rfl⟩ | ⟨e, info, pay, rfl, hfault⟩
  · exact ⟨fun _ _ => rfl, fun _ _ => rfl, fun _ _ _ => rfl, fun _ _ => rfl, fun _ => rfl, fun _ => rfl, fun _ => rfl,
      ⟨rfl, rfl⟩, fun _ _ _ => rfl⟩
  · refine ⟨fun n hn => ?_, fun f hf => ?_, fun sp hsp i => ?_, fun i hi => ?_, fun _ => rfl, fun _ => rfl,
      fun _ => rfl, ⟨rfl, rfl⟩, fun herr => ?_⟩
    · induction n using reg_cases
      case h1 | h2 | h3 | h4 | h9 | h10 | h11 => simp at hn
      all_goals rfl
    · cases f
      case pay => simp at hf
      all_goals rfl
    · cases sp
      case pay => simp at hsp
      all_goals rfl
    · exact State.byteAt_beyond_write hpay (by omega)
    · obtain ⟨_, hclear⟩ := s.mode_idle_iff.mp hm
      exact absurd herr (by simp [hclear])
  · obtain ⟨_, hflags, hregs, hbytes, hfreqs, hnodes, hcodes, houtside⟩ :=
      onlyTheFaultRecorded_atStart s .bp [.pay] e info
    refine ⟨fun n hn => hregs n fun h => hn (List.mem_append_left [9, 10, 11] h), hflags, fun sp hsp i => ?_,
      fun i hi => ?_, hfreqs, hnodes, hcodes, houtside, fun _ => hregs⟩
    · exact (State.byteAt_congr (State.mem_setMem_other _ _ (by simpa using hsp)) i).trans (hbytes sp (by simp) i)
    · rcases hfault with rfl | rfl
      · exact State.byteAt_congr rfl i
      · exact State.byteAt_beyond_write hpay (by omega)

end Sys2Proof.Machine
end

section
/-! PROOFS. SERIALIZE: the frame it writes, and that nothing is written when it faults (44_container R205 to R208). -/

namespace Sys2Proof.Machine

/-- A capacity is a 32-bit number (00_scope R8). -/
theorem cells_lt_two_pow (c : Cap) : c.cells < 2 ^ 32 := by
  have hlt := c.lessOne.isLt
  unfold Cap.cells
  omega

/-- A length that fits a capacity fits its register. -/
theorem toNat_ofNat_of_le_cells {c : Cap} {n : Nat} (h : n ≤ c.cells) : (BitVec.ofNat 32 n).toNat = n :=
  Nat.mod_eq_of_lt (h.trans_lt (cells_lt_two_pow c))

/-! How SERIALIZE ends -/

/-- The state a completed SERIALIZE answers: CTR holds the frame and CTR_LEN its length. -/
abbrev State.serialized (s : State) : State :=
  { s with
    phase := 0
    status := { s.status with busy := false, done := true }
    ctr := s.ctr.write 0 (frameBytes s)
    ctrLen := BitVec.ofNat 32 (frameSize s) }

/-- SERIALIZE completes over valid CB and PAY when the frame fits CTR. -/
theorem exec_serialize_completes {s : State} (hm : s.mode = .idle) (hcb : s.flag .cb = true) (hpay : s.flag .pay = true)
    (hsize : frameSize s ≤ s.params.ctrCap.cells) : exec .serialize s = .next s.serialized := by
  rw [exec_of_commandBody rfl, issue_idle _ hm]
  rcases serializeBody_cases s.beginCommand with ⟨h | h, _⟩ | ⟨_, _, h, _⟩ | ⟨_, _, _, hb⟩
  · exact absurd (hcb.symm.trans h) (by decide)
  · exact absurd (hpay.symm.trans h) (by decide)
  · exact absurd hsize (Nat.not_le_of_lt h)
  · rw [hb]
    rfl

/-- Everything SERIALIZE can do: its word is dropped, it completes, or it raises at its start. -/
theorem exec_serialize_cases {s t : State} (h : exec .serialize s = .next t) :
    (s.mode ≠ .idle ∧ t = s)
      ∨ (s.mode = .idle ∧ s.flag .cb = true ∧ s.flag .pay = true ∧ frameSize s ≤ s.params.ctrCap.cells
        ∧ t = s.serialized)
      ∨ ∃ e info, t = (s.atStart .fs []).raise e info := by
  rw [exec_of_commandBody rfl] at h
  by_cases hm : s.mode = .idle
  · rw [issue_idle _ hm] at h
    rcases serializeBody_cases s.beginCommand with ⟨_, hb⟩ | ⟨_, _, _, hb⟩ | ⟨hcb, hpay, hsize, hb⟩ <;>
      rw [hb] at h <;> cases h
    · exact .inr (.inr ⟨_, _, rfl⟩)
    · exact .inr (.inr ⟨_, _, rfl⟩)
    · exact .inr (.inl ⟨hm, hcb, hpay, hsize, rfl⟩)
  · rw [issue_dropped _ hm] at h
    cases h
    exact .inl ⟨hm, rfl⟩

/-- A SERIALIZE that ends without a fault from IDLE mode completed. -/
theorem exec_serialize_ok {s t : State} (hm : s.mode = .idle) (h : exec .serialize s = .next t)
    (hok : t.status.err = false) : s.flag .cb = true ∧ s.flag .pay = true ∧ frameSize s ≤ s.params.ctrCap.cells
      ∧ t = s.serialized := by
  rcases exec_serialize_cases h with ⟨hbusy, _⟩ | ⟨_, hdone⟩ | ⟨e, info, rfl⟩
  · exact absurd hm hbusy
  · exact hdone
  · cases hok

/-- CTR up to CTR_LEN is the frame after SERIALIZE. -/
theorem State.serialized_readBytes {s : State} (hsize : frameSize s ≤ s.params.ctrCap.cells) :
    s.serialized.ctrLen.toNat = frameSize s
      ∧ s.serialized.readBytes .ctr s.serialized.ctrLen.toNat = frameBytes s := by
  have hlen : s.serialized.ctrLen.toNat = frameSize s := toNat_ofNat_of_le_cells hsize
  have hread : s.serialized.readBytes .ctr (frameBytes s).length = frameBytes s := State.readBytes_of_write rfl
  exact ⟨hlen, by rw [hlen, ← length_frameBytes, hread]⟩

/-- The valid records with their symbols, from the list of the symbols (R206). -/
theorem validEntries_eq (s : State) :
    validEntries s = ((List.range nsym).filter fun v => (s.cbAt v).valid).map fun v => (v, s.cbAt v) :=
  List.filter_map

/-- Settles O27: the frame in CTR is `frameBytes`, whose entries stand in the order of the symbols. -/
theorem serializeWritesFrame : Obligations.SerializeWritesFrame := by
  intro s hm hcb hpay vs total hcap
  obtain ⟨_, herr⟩ := s.mode_idle_iff.mp hm
  have hentries : validEntries s = vs.map fun v => (v, s.cbAt v) := validEntries_eq s
  have hsize : frameSize s = total := by
    rw [frameSize, hentries, List.map_map]
    rfl
  obtain ⟨hlen, hread⟩ := State.serialized_readBytes (hsize ▸ hcap)
  refine ⟨s.serialized, exec_serialize_completes hm hcb hpay (hsize ▸ hcap), ⟨rfl, rfl, herr, rfl, rfl, rfl⟩,
    hlen.trans hsize, ?_⟩
  rw [← hsize, ← hlen, hread, frameBytes, hentries, List.length_map, List.flatMap_map]
  rfl

/-- Settles O28: the frame's length is checked before anything is written, so a raise is at the start. -/
theorem serializeNeverPartlyWrites : Obligations.SerializeNeverPartlyWrites := by
  refine ⟨fun s hm hcb hpay hsize => ?_, fun s t h herr => ?_⟩
  · rcases serializeBody_cases s.beginCommand with ⟨h | h, _⟩ | ⟨_, _, _, hb⟩ | ⟨_, _, h, _⟩
    · exact absurd (hcb.symm.trans h) (by decide)
    · exact absurd (hpay.symm.trans h) (by decide)
    · exact faultsAtOnce_of_raised rfl hm hb
    · exact absurd hsize (Nat.not_lt_of_le h)
  · rcases exec_serialize_cases h with ⟨_, rfl⟩ | ⟨hm, _, _, _, rfl⟩ | ⟨e, info, rfl⟩
    · exact ⟨fun _ _ _ => rfl, rfl⟩
    · obtain ⟨_, hclear⟩ := s.mode_idle_iff.mp hm
      exact absurd herr (by simp [hclear])
    · obtain ⟨_, _, hregs, hbytes, _⟩ := onlyTheFaultRecorded_atStart s .fs [] e info
      exact ⟨hbytes, hregs 7 (by decide)⟩

/-- Settles O29, by the cases of `exec_serialize_cases`: a completed SERIALIZE writes CTR below the frame's length,
CTR_LEN and the registers of its ending; a raise is the one of `onlyTheFaultRecorded_atStart`. -/
theorem serializeFrame : Obligations.SerializeFrame := by
  intro s t h
  rcases exec_serialize_cases h with ⟨_, rfl⟩ | ⟨_, _, _, _, rfl⟩ | ⟨e, info, rfl⟩
  · exact ⟨fun _ _ => rfl, fun _ _ => rfl, fun _ _ _ => rfl, fun _ _ => rfl, fun _ => rfl, fun _ => rfl, fun _ => rfl,
      rfl, rfl⟩
  · refine ⟨fun n hn => ?_, fun f _ => State.flag_congr rfl rfl rfl rfl f, fun sp hsp i => ?_, fun i hi => ?_,
      fun _ => rfl, fun _ => rfl, fun _ => rfl, rfl, rfl⟩
    · induction n using reg_cases
      case h1 | h2 | h3 | h4 | h7 => simp at hn
      all_goals rfl
    · cases sp
      case ctr => simp at hsp
      all_goals rfl
    · exact State.byteAt_beyond_write rfl (length_frameBytes s ▸ hi)
  · obtain ⟨_, hflags, hregs, hbytes, hfreqs, hnodes, hcodes, houtside⟩ :=
      onlyTheFaultRecorded_atStart s .fs [] e info
    exact ⟨fun n hn => hregs n fun h => hn (List.mem_append_left [7] h), hflags, fun sp _ => hbytes sp (by simp),
      fun i _ => hbytes .ctr (by simp) i, hfreqs, hnodes, hcodes, houtside⟩

end Sys2Proof.Machine
end

section
/-! PROOFS. PARSE: the fields of the container read one after the other, where each reading ends, and what PARSE leaves
of the state (44_container R220 to R229). -/

namespace Sys2Proof.Machine

section
variable {s : State} {tag cnt nbits payload rest : List Byte} {es : List TableEntry}

/-! Fields at the cursor -/

/-- A field of one byte. -/
theorem Cursor.field_one (rp : Nat) (b : Byte) (rest : List Byte) :
    (Cursor.mk rp (b :: rest)).field 1 = some ([b], ⟨rp + 1, rest⟩) :=
  Cursor.field_append rp [b] rest

/-- A field of k known bytes. -/
theorem Cursor.field_of_length (rp : Nat) {k : Nat} {bs : List Byte} (h : bs.length = k) (rest : List Byte) :
    (Cursor.mk rp (bs ++ rest)).field k = some (bs, ⟨rp + k, rest⟩) :=
  h ▸ Cursor.field_append rp bs rest

/-! The bytes of CTR -/

/-- The bytes of a non-empty memory begin with its first. -/
theorem State.readBytes_eq_cons (s : State) (sp : Space) {n : Nat} (h : 1 ≤ n) :
    s.readBytes sp n = s.byteAt sp 0 :: (s.readBytes sp n).drop 1 := by
  obtain ⟨rest, hread⟩ := s.readBytes_eq_append_cons sp h
  rw [hread]
  rfl

/-- The bytes of CTR that PARSE reads. -/
abbrev State.container (s : State) : List Byte := s.readBytes .ctr s.ctrLen.toNat

/-- CTR begins with a whole tag, its length before it, and `rest` follows (30_encoding R110). -/
abbrev State.TagThen (s : State) (tag rest : List Byte) : Prop :=
  tag.length ≤ 255 ∧ s.container = [BitVec.ofNat 8 tag.length] ++ tag ++ rest

theorem toNat_ofNat_length (h : tag.length ≤ 255) : (BitVec.ofNat 8 tag.length).toNat = tag.length :=
  Nat.mod_eq_of_lt (Nat.lt_succ_of_le h)

/-- When as many bytes follow the first as it says, they are a whole tag. -/
theorem State.tagThen_of_length (h : 1 + (s.byteAt .ctr 0).toNat ≤ s.ctrLen.toNat) :
    ∃ tag rest, tag.length = (s.byteAt .ctr 0).toNat ∧ tag = (s.container.drop 1).take (s.byteAt .ctr 0).toNat
      ∧ s.TagThen tag rest ∧ s.ctrLen.toNat = 1 + tag.length + rest.length := by
  have hlen : (s.container.drop 1).length = s.ctrLen.toNat - 1 := by simp
  have htag : ((s.container.drop 1).take (s.byteAt .ctr 0).toNat).length = (s.byteAt .ctr 0).toNat := by
    rw [List.length_take, hlen]
    omega
  refine ⟨_, (s.container.drop 1).drop (s.byteAt .ctr 0).toNat, htag, rfl, ⟨?_, ?_⟩, ?_⟩
  · have := (s.byteAt .ctr 0).isLt
    omega
  · rw [htag, BitVec.ofNat_toNat, BitVec.setWidth_eq, List.singleton_append, List.cons_append,
      List.take_append_drop]
    exact s.readBytes_eq_cons .ctr (by omega)
  · rw [htag, List.length_drop, hlen]
    omega

/-! PARSE up to the tag (R220 to R223) -/

/-- The state once PARSE has read the tag. -/
abbrev State.withTag (s : State) (tag : List Byte) : State :=
  { s.parsing with tag := s.tag.write 0 tag, tagLen := BitVec.ofNat 8 tag.length }

theorem parseBody_of_empty (h : s.ctrLen.toNat = 0) :
    parseBody s = .raised (s.parsing.raise .truncatedContainer 0) := by
  simp [parseBody, h, Cursor.field, raiseTruncated]

theorem parseBody_of_short_tag (hcap : s.ctrLen.toNat ≤ s.params.ctrCap.cells) (hpos : 1 ≤ s.ctrLen.toNat)
    (h : s.ctrLen.toNat < 1 + (s.byteAt .ctr 0).toNat) :
    parseBody s = .raised (s.parsing.raise .truncatedContainer 1) := by
  have hread : s.parsing.readBytes .ctr s.parsing.ctrLen.toNat = s.byteAt .ctr 0 :: s.container.drop 1 :=
    s.readBytes_eq_cons .ctr hpos
  have htag : (Cursor.mk (0 + 1) (s.container.drop 1)).field (s.byteAt .ctr 0).toNat = none :=
    if_neg (by simp; omega)
  refine (if_neg (Nat.not_lt_of_le hcap)).trans ?_
  simp only [hread, Cursor.field_one, be_byte, htag]
  rfl

/-- A whole tag is written and then checked (R223). -/
theorem parseBody_of_tag (hcap : s.ctrLen.toNat ≤ s.params.ctrCap.cells) (h : s.TagThen tag rest) :
    parseBody s = if s.params.tagValid tag then parseTable (s.withTag tag) ⟨1 + tag.length, rest⟩
      else .raised ((s.withTag tag).raise .extensionDecode (BitVec.ofNat 32 tag.length)) := by
  obtain ⟨htag, hbytes⟩ := h
  have hread : s.parsing.readBytes .ctr s.parsing.ctrLen.toNat = BitVec.ofNat 8 tag.length :: (tag ++ rest) :=
    hbytes.trans (List.append_assoc ..)
  have hlen : be [BitVec.ofNat 8 tag.length] = tag.length := (be_byte _).trans (toNat_ofNat_length htag)
  refine (if_neg (Nat.not_lt_of_le hcap)).trans ?_
  simp only [hread, Cursor.field_one, hlen, Cursor.field_append, Nat.zero_add]
  rfl

/-! The symbol table (R224 to R227) -/

/-- The bytes break off within an entry, `d` bytes after its beginning: at its symbol, its length or its value. -/
inductive CutEntry : List Byte → Nat → Prop
  | symbol : CutEntry [] 0
  | length (sym : Byte) : CutEntry [sym] 1
  | value (sym len : Byte) (val : List Byte) (h : val.length < ceil8 len.toNat) : CutEntry (sym :: len :: val) 2

/-- An entry that breaks off ends the reading at the field cut (R222). -/
theorem readEntries_cut {d : Nat} (h : CutEntry rest d) (n rp : Nat) (cb : List Code) :
    readEntries (n + 1) ⟨rp, rest⟩ cb = .short (rp + d) cb := by
  cases h with
  | symbol => simp [readEntries, Cursor.field]
  | length sym => simp [readEntries, Cursor.field]
  | value sym len val h => simp [readEntries, Cursor.field, Nat.not_le_of_lt h]

theorem parseTable_of_short (rp : Nat) (h : rest.length < 4) : parseTable s ⟨rp, rest⟩ = raiseTruncated s rp := by
  simp [parseTable, Cursor.field, Nat.not_le_of_lt h]

/-- CB with the entries of a symbol table. -/
abbrev State.withEntries (s : State) (es : List TableEntry) : State := s.withCodes (writeEntries es clearedCb)

/-- With as many whole entries as the count says, PARSE goes on behind them. -/
theorem parseTable_of_whole (rp : Nat) (hcnt : cnt.length = 4) (hes : WholeEntries es) (hn : be cnt = es.length) :
    parseTable s ⟨rp, cnt ++ (tableBytes es ++ rest)⟩
      = parseTail (s.withEntries es) es.length ⟨rp + 4 + (tableBytes es).length, rest⟩ := by
  have hread := readEntries_table es hes rest 0 (rp + 4) clearedCb
  rw [Nat.add_zero] at hread
  simp only [parseTable, Cursor.field_of_length rp hcnt, hn, hread]
  rfl

/-- When the count asks for one entry more, and that one breaks off, PARSE raises there. -/
theorem parseTable_of_cut (rp : Nat) (hcnt : cnt.length = 4) (hes : WholeEntries es) (hn : es.length < be cnt) {d : Nat}
    (hcut : CutEntry rest d) :
    parseTable s ⟨rp, cnt ++ (tableBytes es ++ rest)⟩
      = raiseTruncated (s.withEntries es) (rp + 4 + (tableBytes es).length + d) := by
  obtain ⟨k, hk⟩ := Nat.exists_eq_add_of_lt hn
  have hread := readEntries_table es hes rest (k + 1) (rp + 4) clearedCb
  rw [readEntries_cut hcut] at hread
  simp only [parseTable, Cursor.field_of_length rp hcnt, hk, Nat.add_assoc _ k 1, hread]

/-- The record of a symbol in CB after the entries. -/
theorem State.cbAt_withEntries (s : State) (es : List TableEntry) (v : Byte) :
    (s.withEntries es).cbAt v.toNat = tableCode es v := by
  simp [State.cbAt, getElem?_writeEntries_cleared]

/-! The fields after the table (R228, R229) -/

/-- The state once PARSE has written the fields after the tag. -/
abbrev State.withFields (s : State) (cnt : Nat) (pad : Byte) (bits : Nat) (payload : List Byte) : State :=
  { s with
    status := { s.status with cbV := true, payV := true }
    pay := s.pay.write 0 payload
    symCnt := BitVec.ofNat 32 cnt
    padLen := pad
    bitLen := BitVec.ofNat 32 bits
    payLen := BitVec.ofNat 32 payload.length }

theorem parseTail_of_nil (n rp : Nat) : parseTail s n ⟨rp, []⟩ = raiseTruncated s rp := by
  simp [parseTail, Cursor.field]

theorem parseTail_of_short (n rp : Nat) (hpos : 1 ≤ rest.length) (h : rest.length < 5) :
    parseTail s n ⟨rp, rest⟩ = raiseTruncated s (rp + 1) := by
  have hbits : ¬ 4 ≤ rest.length - 1 := by omega
  simp [parseTail, Cursor.field, hpos, hbits]

/-- With all fields there, the two checks of the payload, and then the writes. -/
theorem parseTail_of_fields (n rp : Nat) (pad : Byte) (hnbits : nbits.length = 4) :
    parseTail s n ⟨rp, pad :: (nbits ++ payload)⟩
      = if 8 * payload.length < be nbits then .raised (s.raise .truncatedContainer s.ctrLen)
        else if s.params.payCap.cells < payload.length then
          .raised (s.raise .capacity (BitVec.ofNat 32 payload.length))
        else .ended (s.withFields n pad (be nbits) payload) := by
  simp only [parseTail, Cursor.field_one, Cursor.field_of_length (rp + 1) hnbits, be_byte, BitVec.ofNat_toNat,
    BitVec.setWidth_eq]
  rfl

/-! How PARSE ends -/

/-- The state PARSE raises into once the tag has been read, CB then listing `cb`. -/
abbrev State.parseFault (s : State) (tag : List Byte) (cb : List Code) (e : ErrKind) (info : Word) : State :=
  ((s.beginCommand.withTag tag).withCodes cb).raise e info

/-- The state a completed PARSE answers. -/
abbrev State.parsed (s : State) (tag : List Byte) (cb : List Code) (cnt : Nat) (pad : Byte) (bits : Nat)
    (payload : List Byte) : State :=
  (((s.beginCommand.withTag tag).withCodes cb).withFields cnt pad bits payload).endCommand

/-- However PARSE ends after the tag, CB lists some records and the fields are written all or none. -/
theorem parseTable_ends (s : State) (c : Cursor) :
    ∃ cb, (∃ e info, parseTable s c = .raised ((s.withCodes cb).raise e info))
      ∨ ∃ cnt pad bits payload, payload.length ≤ s.params.payCap.cells
        ∧ parseTable s c = .ended ((s.withCodes cb).withFields cnt pad bits payload) := by
  rcases parseTable_cases s c with ⟨info, hb⟩ | ⟨cnt, c₁, ⟨rp, cb, _, hb⟩ | ⟨c₂, cb, _, hb⟩⟩
  · exact ⟨s.cb.rows, .inl ⟨_, _, hb⟩⟩
  · exact ⟨cb, .inl ⟨_, _, hb⟩⟩
  · refine ⟨cb, ?_⟩
    rcases parseTail_cases (s.withCodes cb) (be cnt) c₂ with ⟨e, info, ht⟩ | ⟨pad, nbits, payload, _, hfits, _, _, ht⟩
    · exact .inl ⟨_, _, hb.trans ht⟩
    · exact .inr ⟨_, _, _, payload, hfits, hb.trans ht⟩

/-- PARSE before the tag and after it; the tag is as long as the first byte of CTR says. -/
theorem parseBody_ends (s : State) :
    (∃ e info, parseBody s = .raised (s.parsing.raise e info))
      ∨ ∃ tag, tag.length = (s.byteAt .ctr 0).toNat ∧
        ((∃ e info, parseBody s = .raised ((s.withTag tag).raise e info))
          ∨ ∃ c, parseBody s = parseTable (s.withTag tag) c) := by
  rcases Nat.lt_or_ge s.params.ctrCap.cells s.ctrLen.toNat with hcap | hcap
  · exact .inl ⟨_, _, parseBody_of_ctrLen_beyond hcap⟩
  rcases Nat.eq_zero_or_pos s.ctrLen.toNat with hzero | hpos
  · exact .inl ⟨_, _, parseBody_of_empty hzero⟩
  rcases Nat.lt_or_ge s.ctrLen.toNat (1 + (s.byteAt .ctr 0).toNat) with hshort | hlong
  · exact .inl ⟨_, _, parseBody_of_short_tag hcap hpos hshort⟩
  obtain ⟨tag, rest, hlen, _, hthen, _⟩ := State.tagThen_of_length hlong
  refine .inr ⟨tag, hlen, ?_⟩
  rw [parseBody_of_tag hcap hthen]
  split
  · exact .inr ⟨_, rfl⟩
  · exact .inl ⟨_, _, rfl⟩

/-- Everything PARSE can do: its word is dropped, it raises before the tag is read, it raises after that, or it
completes. -/
theorem exec_parse_cases {s t : State} (h : exec .parse s = .next t) :
    (s.mode ≠ .idle ∧ t = s) ∨ (∃ e info, t = (s.atStart .fp [.cb, .pay]).raise e info)
      ∨ ∃ tag cb, tag.length = (s.byteAt .ctr 0).toNat ∧
        ((∃ e info, t = s.parseFault tag cb e info)
          ∨ (s.mode = .idle ∧ ∃ cnt pad bits payload, payload.length ≤ s.params.payCap.cells
            ∧ t = s.parsed tag cb cnt pad bits payload)) := by
  rw [exec_of_commandBody rfl] at h
  by_cases hm : s.mode = .idle
  · rw [issue_idle _ hm] at h
    rcases parseBody_ends s.beginCommand with ⟨e, info, hb⟩ | ⟨tag, hlen, ⟨e, info, hb⟩ | ⟨c, hb⟩⟩ <;> rw [hb] at h
    · cases h
      exact .inr (.inl ⟨_, _, rfl⟩)
    · cases h
      exact .inr (.inr ⟨tag, s.cb.rows, hlen, .inl ⟨_, _, rfl⟩⟩)
    · refine .inr (.inr ⟨tag, ?_⟩)
      obtain ⟨cb, ⟨e, info, ht⟩ | ⟨cnt, pad, bits, payload, hfits, ht⟩⟩ :=
        parseTable_ends (s.beginCommand.withTag tag) c <;> rw [ht] at h <;> cases h
      · exact ⟨cb, hlen, .inl ⟨_, _, rfl⟩⟩
      · exact ⟨cb, hlen, .inr ⟨hm, _, _, _, _, hfits, rfl⟩⟩
  · rw [issue_dropped _ hm] at h
    cases h
    exact .inl ⟨hm, rfl⟩

/-- What PARSE has written when it raises after the tag: TAG below the tag's length, TAG_LEN and CB. -/
theorem State.parseFault_frame (s : State) (tag : List Byte) (cb : List Code) (e : ErrKind) (info : Word) :
    KeepsRegs [1, 2, 3, 4, 6] s (s.parseFault tag cb e info) ∧ KeepsFlags [.cb, .pay] s (s.parseFault tag cb e info)
      ∧ KeepsBytes [.tag] s (s.parseFault tag cb e info)
      ∧ KeepsBytesFrom .tag tag.length s (s.parseFault tag cb e info) := by
  refine ⟨fun n hn => ?_, fun f hf => ?_, fun sp hsp i => ?_, fun i hi => State.byteAt_beyond_write rfl hi⟩
  · induction n using reg_cases
    case h1 | h2 | h3 | h4 | h6 => simp at hn
    all_goals rfl
  · cases f
    case cb | pay => simp at hf
    all_goals rfl
  · cases sp
    case tag => simp at hsp
    all_goals rfl

/-- A raise after the tag leaves the tag in TAG and TAG_LEN, CB_V and PAY_V 0 (60_exceptions R302). -/
theorem exec_parse_of_raised (hm : s.mode = .idle) {cb : List Code} {e : ErrKind} {info : Word}
    (hb : parseBody s.beginCommand = .raised (((s.beginCommand.withTag tag).withCodes cb).raise e info)) :
    ∃ t, exec .parse s = .next t ∧ EndsInFault .fp e info t ∧ t.flag .cb = false ∧ t.flag .pay = false
      ∧ t.tagLen = BitVec.ofNat 8 tag.length ∧ t.readBytes .tag tag.length = tag
      ∧ KeepsRegs [1, 2, 3, 4, 6] s t ∧ KeepsBytes [.tag] s t ∧ t.cb = ⟨cb, s.cb.stamp⟩ := by
  obtain ⟨hregs, _, hbytes, _⟩ := s.parseFault_frame tag cb e info
  refine ⟨s.parseFault tag cb e info, ?_, ⟨rfl, rfl, rfl, rfl, rfl, rfl⟩, rfl, rfl, rfl,
    State.readBytes_of_write (s := s) rfl, hregs, hbytes, rfl⟩
  rw [exec_of_commandBody rfl, issue_idle _ hm, hb]
  rfl

end

/-- Settles O33, by the cases of `exec_parse_cases`: a raise before the tag is read is the one of
`onlyTheFaultRecorded_atStart`, one after it that of `State.parseFault_frame`, and a completed PARSE has written PAY below
PAY_LEN and the fields besides. -/
theorem parseFrame : Obligations.ParseFrame := by
  intro s t h
  rcases exec_parse_cases h with ⟨_, rfl⟩ | ⟨e, info, rfl⟩ | ⟨tag, cb, hlen, ⟨e, info, rfl⟩ |
    ⟨hm, cnt, pad, bits, payload, hfits, rfl⟩⟩
  · exact ⟨fun _ _ => rfl, fun _ _ => rfl, fun _ _ _ => rfl, fun _ _ => rfl, fun _ _ => rfl, fun _ => rfl,
      fun _ => rfl, ⟨rfl, rfl⟩, fun _ => ⟨fun _ _ => rfl, fun _ _ _ => rfl⟩⟩
  · obtain ⟨_, hflags, hregs, hbytes, hfreqs, hnodes, _, houtside⟩ :=
      onlyTheFaultRecorded_atStart s .fp [.cb, .pay] e info
    have hall (sp : Space) := hbytes sp (by simp)
    exact ⟨fun n hn => hregs n fun h => hn (List.mem_append_left [6, 8, 9, 10, 11] h), hflags, fun sp _ => hall sp,
      fun i _ => hall .tag i, fun i _ => hall .pay i, hfreqs, hnodes, houtside,
      fun _ => ⟨fun n hn => hregs n fun h => hn (List.mem_append_left [6] h), fun sp _ => hall sp⟩⟩
  · obtain ⟨hregs, hflags, hbytes, hbeyond⟩ := s.parseFault_frame tag cb e info
    exact ⟨fun n hn => hregs n fun h => hn (List.mem_append_left [8, 9, 10, 11] h), hflags,
      fun sp hsp => hbytes sp fun h => hsp (List.mem_append_left [Space.pay] h), hlen ▸ hbeyond,
      fun i _ => hbytes .pay (by decide) i, fun _ => rfl, fun _ => rfl, ⟨rfl, rfl⟩, fun _ => ⟨hregs, hbytes⟩⟩
  · have hpayLen : (BitVec.ofNat 32 payload.length).toNat = payload.length := toNat_ofNat_of_le_cells hfits
    refine ⟨fun n hn => ?_, fun f hf => ?_, fun sp hsp i => ?_, fun i hi => State.byteAt_beyond_write rfl (hlen ▸ hi),
      fun i hi => State.byteAt_beyond_write rfl (hpayLen ▸ hi), fun _ => rfl, fun _ => rfl, ⟨rfl, rfl⟩, fun herr => ?_⟩
    · induction n using reg_cases
      case h1 | h2 | h3 | h4 | h6 | h8 | h9 | h10 | h11 => simp at hn
      all_goals rfl
    · cases f
      case cb | pay => simp at hf
      all_goals rfl
    · cases sp
      case tag | pay => simp at hsp
      all_goals rfl
    · obtain ⟨_, hclear⟩ := s.mode_idle_iff.mp hm
      exact absurd herr (by simp [hclear])

/-- Settles O31: the tag is written before it is checked, and nothing after it is read. -/
theorem parseChecksTagFirst : Obligations.ParseChecksTagFirst := by
  intro s tag rest hm hcap htag hinvalid hbytes
  have hb : parseBody s.beginCommand = _ := parseBody_of_tag hcap ⟨htag, hbytes⟩
  rw [if_neg (by simp [hinvalid])] at hb
  obtain ⟨t, hexec, hends, hcbV, hpayV, hlen, hread, hregs, hkeeps, hcb⟩ := exec_parse_of_raised hm hb
  exact ⟨t, hexec, hends, hcbV, hpayV, hlen ▸ toNat_ofNat_length htag, hread, hregs, hkeeps, State.cbAt_congr hcb⟩

/-- Settles O32: the container breaks off before the tag's length, within the tag, or within symbol_count. -/
theorem parseTruncatedBeforeTable : Obligations.ParseTruncatedBeforeTable := by
  intro s hm hcap n len
  refine ⟨fun hzero => ?_, fun ⟨hpos, hshort⟩ => ?_, fun ⟨hlong, hshort, hvalid⟩ => ?_⟩
  · exact faultsAtOnce_of_raised rfl hm (parseBody_of_empty (s := s.beginCommand) hzero)
  · exact faultsAtOnce_of_raised rfl hm (parseBody_of_short_tag (s := s.beginCommand) hcap hpos hshort)
  · obtain ⟨tag, rest, hlen, htag, hthen, hsize⟩ := State.tagThen_of_length hlong
    have hb : parseBody s.beginCommand = _ := parseBody_of_tag hcap hthen
    rw [if_pos (htag ▸ hvalid), parseTable_of_short _ (by omega), hlen] at hb
    obtain ⟨t, hexec, hends, hcbV, hpayV, htagLen, hread, hregs, hkeeps, hcb⟩ := exec_parse_of_raised hm hb
    rw [hlen] at htagLen hread
    exact ⟨t, hexec, hends, hcbV, hpayV, htagLen.trans (by simp), hread.trans htag, hregs, hkeeps,
      State.cbAt_congr hcb⟩

/-! PARSE from the symbol table on -/

section
variable {s : State} {tag cnt nbits payload rest : List Byte} {es : List TableEntry}

/-- CTR holds a valid tag, a count and the whole entries `es`, and `rest` follows. -/
structure State.TableThen (s : State) (tag cnt : List Byte) (es : List TableEntry) (rest : List Byte) : Prop where
  fits : s.ctrLen.toNat ≤ s.params.ctrCap.cells
  tagLength : tag.length ≤ 255
  tagValid : s.params.tagValid tag = true
  cntLength : cnt.length = 4
  whole : WholeEntries es
  bytes : s.container = [BitVec.ofNat 8 tag.length] ++ tag ++ cnt ++ tableBytes es ++ rest

/-- The offset behind the entries. -/
abbrev tableEnd (tag : List Byte) (es : List TableEntry) : Nat := 5 + tag.length + (tableBytes es).length

theorem State.TableThen.tagThen (h : s.TableThen tag cnt es rest) :
    s.TagThen tag (cnt ++ (tableBytes es ++ rest)) :=
  ⟨h.tagLength, by simp [h.bytes]⟩

/-- With a whole table PARSE comes to the fields after it. -/
theorem State.TableThen.parseBody_whole (h : s.TableThen tag cnt es rest) (hn : be cnt = es.length) :
    parseBody s = parseTail ((s.withTag tag).withEntries es) es.length ⟨tableEnd tag es, rest⟩ := by
  rw [parseBody_of_tag h.fits h.tagThen, if_pos h.tagValid, parseTable_of_whole _ h.cntLength h.whole hn, tableEnd,
    show 1 + tag.length + 4 = 5 + tag.length by omega]

/-- Where the next entry breaks off PARSE raises. -/
theorem State.TableThen.parseBody_cut (h : s.TableThen tag cnt es rest) (hn : es.length < be cnt) {d : Nat}
    (hcut : CutEntry rest d) :
    parseBody s = raiseTruncated ((s.withTag tag).withEntries es) (tableEnd tag es + d) := by
  rw [parseBody_of_tag h.fits h.tagThen, if_pos h.tagValid, parseTable_of_cut _ h.cntLength h.whole hn hcut, tableEnd,
    show 1 + tag.length + 4 = 5 + tag.length by omega]

/-- A raise over the entries read is a fault of PARSE that has them in CB. -/
theorem parseFaultsHaving_of_raised (hm : s.mode = .idle) (htag : tag.length ≤ 255) {e : ErrKind} {info : Nat}
    (hb : parseBody s.beginCommand
      = .raised (((s.beginCommand.withTag tag).withEntries es).raise e (BitVec.ofNat 32 info))) :
    ParseFaultsHaving tag es e info s := by
  obtain ⟨t, hexec, hends, hcbV, hpayV, hlen, hread, hregs, hkeeps, hcb⟩ := exec_parse_of_raised hm hb
  exact ⟨t, hexec, hends, hcbV, hpayV, hlen ▸ toNat_ofNat_length htag, hread,
    fun v => (State.cbAt_congr hcb v.toNat).trans (s.cbAt_withEntries es v), hregs, hkeeps⟩

/-- A whole frame whose payload passes both checks is parsed to the end. -/
theorem State.TableThen.exec_parse (hm : s.mode = .idle) {pad : Byte}
    (h : s.TableThen tag cnt es (pad :: (nbits ++ payload))) (hn : be cnt = es.length) (hnbits : nbits.length = 4)
    (hbits : be nbits ≤ 8 * payload.length) (hpay : payload.length ≤ s.params.payCap.cells) :
    exec .parse s = .next (s.parsed tag (writeEntries es clearedCb) es.length pad (be nbits) payload) := by
  have htable : s.beginCommand.TableThen tag cnt es (pad :: (nbits ++ payload)) :=
    ⟨h.fits, h.tagLength, h.tagValid, h.cntLength, h.whole, h.bytes⟩
  rw [exec_of_commandBody rfl, issue_idle _ hm, htable.parseBody_whole hn, parseTail_of_fields _ _ pad hnbits,
    if_neg (Nat.not_lt_of_le hbits)]
  exact congrArg Ran.finish (if_neg (Nat.not_lt_of_le hpay))

/-- A four-byte number is a 32-bit number. -/
theorem be_lt_of_length_four {bs : List Byte} (h : bs.length = 4) : be bs < 2 ^ 32 := by
  simpa [h] using be_lt bs

end

/-- Settles O59: the next entry breaks off (`State.TableThen.parseBody_cut`), or the table is whole and the fields after
it break off or fail a check of the payload. -/
theorem parseFaultsFromTable : Obligations.ParseFaultsFromTable := by
  intro s tag cnt es rest hm hcap htag hvalid hcnt hes hbytes off
  have htable : s.beginCommand.TableThen tag cnt es rest := ⟨hcap, htag, hvalid, hcnt, hes, hbytes⟩
  refine ⟨fun hn => ?_, fun hn => ?_⟩
  · have hfault {d : Nat} (hcut : CutEntry rest d) : ParseFaultsHaving tag es .truncatedContainer (off + d) s :=
      parseFaultsHaving_of_raised hm htag (htable.parseBody_cut hn hcut)
    refine ⟨fun hrest => hfault (d := 0) (hrest ▸ .symbol), fun hone => ?_, fun sym len val hrest hval =>
      hfault (d := 2) (hrest ▸ .value sym len val hval)⟩
    obtain ⟨sym, rfl⟩ := List.length_eq_one_iff.mp hone
    exact hfault (.length sym)
  · have hwhole := htable.parseBody_whole hn.symm
    refine ⟨fun hrest => ?_, fun ⟨hpos, hshort⟩ => ?_, fun pad nbits payload hnbits hrest => ?_⟩
    · rw [hrest, parseTail_of_nil] at hwhole
      exact parseFaultsHaving_of_raised hm htag hwhole
    · rw [parseTail_of_short _ _ hpos hshort] at hwhole
      exact parseFaultsHaving_of_raised hm htag hwhole
    · rw [hrest, parseTail_of_fields _ _ pad hnbits] at hwhole
      refine ⟨fun hbits => ?_, fun hbits hpayload => ?_⟩
      · rw [if_pos hbits] at hwhole
        exact parseFaultsHaving_of_raised hm htag (by simpa using hwhole)
      · rw [if_neg (Nat.not_lt_of_le hbits)] at hwhole
        exact parseFaultsHaving_of_raised hm htag (hwhole.trans (if_pos hpayload))

/-- Settles O30: `State.TableThen.exec_parse`, each field read back from the state it ends in. -/
theorem parseReadsFrame : Obligations.ParseReadsFrame := by
  intro s tag cnt es pad nbits payload hm hcap htag hvalid hcnt hn hes hnbits hbits hpay hbytes
  obtain ⟨_, herr⟩ := s.mode_idle_iff.mp hm
  have htable : s.TableThen tag cnt es (pad :: (nbits ++ payload)) :=
    ⟨hcap, htag, hvalid, hcnt, hes, by simp [hbytes, tableBytes]⟩
  refine ⟨_, htable.exec_parse hm hn hnbits hbits hpay, ⟨rfl, rfl, herr, rfl, rfl, rfl⟩, rfl, rfl,
    toNat_ofNat_length htag, State.readBytes_of_write (s := s) rfl, ?_,
    s.cbAt_withEntries es, rfl, Nat.mod_eq_of_lt (be_lt_of_length_four hnbits), toNat_ofNat_of_le_cells hpay,
    State.readBytes_of_write (s := s) rfl⟩
  exact Nat.mod_eq_of_lt (hn ▸ be_lt_of_length_four hcnt)

end Sys2Proof.Machine
end

section
/-! PROOFS. SERIALIZE after PARSE: the frame SERIALIZE writes is a whole one, and PARSE takes from it every field it was
made of (44_container R231). -/

namespace Sys2Proof.Machine

/-! The symbol table of a codebook -/

/-- The entry SERIALIZE writes for the record of a symbol (R206, 30_encoding R113). -/
def State.entryOf (s : State) (v : Nat) : TableEntry :=
  (BitVec.ofNat 8 v, (s.cbAt v).len, beBytes (s.cbAt v).val.toNat (ceil8 (s.cbAt v).len.toNat))

/-- The entries SERIALIZE writes. -/
def State.symbolTable (s : State) : List TableEntry :=
  ((List.range nsym).filter fun v => (s.cbAt v).valid).map s.entryOf

theorem State.wholeEntries_symbolTable (s : State) : WholeEntries s.symbolTable :=
  List.forall_mem_map.mpr fun _ _ => length_beBytes _ _

theorem State.length_symbolTable (s : State) : s.symbolTable.length = (validEntries s).length := by
  rw [State.symbolTable, validEntries_eq, List.length_map, List.length_map]

theorem State.length_symbolTable_le (s : State) : s.symbolTable.length ≤ nsym := by
  simpa [State.symbolTable] using List.length_filter_le (fun v => (s.cbAt v).valid) (List.range nsym)

theorem State.tableBytes_symbolTable (s : State) :
    tableBytes s.symbolTable = (validEntries s).flatMap entryBytes := by
  rw [tableBytes, State.symbolTable, validEntries_eq, List.flatMap_map, List.flatMap_map]
  rfl

/-- Of the 256 numbers one is the symbol. -/
theorem filter_range_symbol (v : Byte) : ((List.range nsym).filter fun k => BitVec.ofNat 8 k = v) = [v.toNat] := by
  have hmem : v.toNat ∈ List.range nsym := List.mem_range.mpr v.isLt
  have heq : ((List.range nsym).filter fun k => BitVec.ofNat 8 k = v) = (List.range nsym).filter (· == v.toNat) := by
    refine List.filter_congr fun k hk => ?_
    have hlt : k < 256 := List.mem_range.mp hk
    simp [← BitVec.toNat_inj, Nat.mod_eq_of_lt hlt, beq_eq_decide]
  rw [heq, List.filter_beq, List.count_eq_one_of_mem List.nodup_range hmem]
  rfl

/-- A valid fitting record is read back from its entry. -/
theorem code_of_entry {c : Code} (hvalid : c.valid = true) (hfits : c.val.toNat < 2 ^ c.len.toNat) :
    (⟨true, c.len, BitVec.ofNat 255 (be (beBytes c.val.toNat (ceil8 c.len.toNat)) % 2 ^ c.len.toNat)⟩ : Code) = c := by
  have hbytes : c.val.toNat < 256 ^ ceil8 c.len.toNat := by
    rw [show 256 = 2 ^ 8 from rfl, ← Nat.pow_mul]
    exact hfits.trans_le (Nat.pow_le_pow_right (by decide) (le_ceil8 _))
  rw [be_beBytes _ _ hbytes, Nat.mod_eq_of_lt hfits, BitVec.ofNat_toNat, BitVec.setWidth_eq, ← hvalid]

/-- The table of a fitting codebook has the codebook's records. -/
theorem State.tableCode_symbolTable {s : State} (hfits : ∀ v : Byte, CodeFits (s.cbAt v.toNat)) (v : Byte) :
    tableCode s.symbolTable v = s.cbAt v.toNat := by
  have hentries : (s.symbolTable.filter fun e => e.1 = v)
      = ([v.toNat].filter fun k => (s.cbAt k).valid).map s.entryOf := by
    rw [← filter_range_symbol v, List.filter_comm, State.symbolTable, List.filter_map]
    rfl
  obtain ⟨hfit, hclear⟩ := hfits v
  rw [tableCode, hentries]
  cases hvalid : (s.cbAt v.toNat).valid with
  | false =>
    rw [List.filter_singleton, hvalid]
    exact (hclear hvalid).symm
  | true => simpa [hvalid, State.entryOf] using code_of_entry hvalid hfit

/-! The frame -/

/-- The frame is made of the tag, the records of CB, three registers and the payload (R205). -/
theorem frameBytes_congr {s t : State} (htagLen : t.tagLen = s.tagLen)
    (htag : t.readBytes .tag s.tagLen.toNat = s.readBytes .tag s.tagLen.toNat)
    (hcb : ∀ v : Byte, t.cbAt v.toNat = s.cbAt v.toNat) (hpad : t.padLen = s.padLen) (hbits : t.bitLen = s.bitLen)
    (hpayLen : t.payLen = s.payLen) (hpay : t.readBytes .pay s.payLen.toNat = s.readBytes .pay s.payLen.toNat) :
    frameBytes t = frameBytes s := by
  have hentries : validEntries t = validEntries s := by
    refine congrArg (List.filter _) (List.map_congr_left fun v hv => ?_)
    have hlt : v < 2 ^ 8 := List.mem_range.mp hv
    have hv := hcb (BitVec.ofNat 8 v)
    rw [BitVec.toNat_ofNat, Nat.mod_eq_of_lt hlt] at hv
    rw [hv]
  rw [frameBytes, htagLen, htag, hentries, hpad, hbits, hpayLen, hpay, ← frameBytes]

/-- What SERIALIZE writes behind the tag. -/
abbrev State.afterTable (s : State) : List Byte :=
  s.padLen :: (beBytes s.bitLen.toNat 4 ++ s.readBytes .pay s.payLen.toNat)

/-- The frame is a whole one, with the entries of CB (30_encoding R110). -/
theorem State.frameBytes_eq (s : State) :
    frameBytes s = [BitVec.ofNat 8 (s.readBytes .tag s.tagLen.toNat).length] ++ s.readBytes .tag s.tagLen.toNat
      ++ beBytes s.symbolTable.length 4 ++ tableBytes s.symbolTable ++ s.afterTable := by
  simp [frameBytes, s.length_symbolTable, s.tableBytes_symbolTable]

theorem State.length_tag_le (s : State) : (s.readBytes .tag s.tagLen.toNat).length ≤ 255 := by
  rw [State.length_readBytes]
  exact Nat.le_of_lt_succ s.tagLen.isLt

/-- After a completed SERIALIZE CTR is that frame, to be parsed when its tag is valid. -/
theorem State.serialized_tableThen {s : State} (hsize : frameSize s ≤ s.params.ctrCap.cells)
    (hvalid : s.params.tagValid (s.readBytes .tag s.tagLen.toNat) = true) :
    s.serialized.TableThen (s.readBytes .tag s.tagLen.toNat) (beBytes s.symbolTable.length 4) s.symbolTable
      s.afterTable := by
  obtain ⟨hlen, hread⟩ := State.serialized_readBytes hsize
  exact ⟨hlen ▸ hsize, s.length_tag_le, hvalid, length_beBytes _ _, s.wholeEntries_symbolTable, hread.trans s.frameBytes_eq⟩

/-! PARSE of that frame -/

/-- A PARSE that ends without a fault over a whole tag found it valid. -/
theorem exec_parse_ok_tagValid {s u : State} {tag rest : List Byte} (hm : s.mode = .idle)
    (hcap : s.ctrLen.toNat ≤ s.params.ctrCap.cells) (hthen : s.TagThen tag rest) (h : exec .parse s = .next u)
    (hok : u.status.err = false) : s.params.tagValid tag = true := by
  by_contra hinvalid
  obtain ⟨htag, hbytes⟩ := hthen
  obtain ⟨t, ht, ⟨_, _, herr, _⟩, _⟩ := parseChecksTagFirst s tag rest hm hcap htag (by simpa using hinvalid) hbytes
  cases h.symm.trans ht
  exact absurd (herr.symm.trans hok) (by decide)

/-- A PARSE that ends without a fault over a whole table and the fields after it read them to the end. -/
theorem State.TableThen.exec_parse_ok {s u : State} {tag cnt nbits payload : List Byte} {es : List TableEntry}
    {pad : Byte} (hm : s.mode = .idle) (h : s.TableThen tag cnt es (pad :: (nbits ++ payload))) (hn : be cnt = es.length)
    (hnbits : nbits.length = 4) (hu : exec .parse s = .next u) (hok : u.status.err = false) :
    u = s.parsed tag (writeEntries es clearedCb) es.length pad (be nbits) payload := by
  obtain ⟨_, hfields⟩ := parseFaultsFromTable s tag cnt es _ hm h.fits h.tagLength h.tagValid h.cntLength h.whole h.bytes
  obtain ⟨_, _, hpayload⟩ := hfields hn.symm
  have hnone {e : ErrKind} {info : Nat} : ¬ ParseFaultsHaving tag es e info s := by
    rintro ⟨t, ht, ⟨_, _, herr, _⟩, _⟩
    cases hu.symm.trans ht
    exact absurd (herr.symm.trans hok) (by decide)
  obtain ⟨hshort, hlong⟩ := hpayload pad nbits payload hnbits rfl
  have hbits : be nbits ≤ 8 * payload.length := Nat.le_of_not_lt fun hlt => hnone (hshort hlt)
  have hpay : payload.length ≤ s.params.payCap.cells := Nat.le_of_not_lt fun hlt => hnone (hlong hbits hlt)
  cases hu.symm.trans (h.exec_parse hm hn hnbits hbits hpay)
  rfl

/-- The state PARSE ends in over the frame SERIALIZE has written. -/
abbrev State.reparsed (s : State) : State :=
  s.serialized.parsed (s.readBytes .tag s.tagLen.toNat) (writeEntries s.symbolTable clearedCb) s.symbolTable.length
    s.padLen (be (beBytes s.bitLen.toNat 4)) (s.readBytes .pay s.payLen.toNat)

theorem exec_parse_serialized {s u : State} (hm : s.serialized.mode = .idle)
    (hsize : frameSize s ≤ s.params.ctrCap.cells) (h : exec .parse s.serialized = .next u)
    (hok : u.status.err = false) : u = s.reparsed := by
  obtain ⟨hlen, hread⟩ := State.serialized_readBytes hsize
  have hthen : s.serialized.TagThen (s.readBytes .tag s.tagLen.toNat)
      (beBytes s.symbolTable.length 4 ++ tableBytes s.symbolTable ++ s.afterTable) :=
    ⟨s.length_tag_le, by simp [hread, s.frameBytes_eq]⟩
  have hvalid := exec_parse_ok_tagValid hm (hlen ▸ hsize) hthen h hok
  have hcount : be (beBytes s.symbolTable.length 4) = s.symbolTable.length :=
    be_beBytes 4 _ (s.length_symbolTable_le.trans_lt (by decide))
  exact (State.serialized_tableThen hsize hvalid).exec_parse_ok hm hcount (length_beBytes _ _) h hok

/-- That state would write the same frame. -/
theorem State.frameBytes_reparsed {s : State} (hfits : ∀ v : Byte, CodeFits (s.cbAt v.toNat)) :
    frameBytes s.reparsed = frameBytes s := by
  have hread {sp : Space} {n : Nat} (h : s.reparsed.mem sp = (s.mem sp).write 0 (s.readBytes sp n)) :
      s.reparsed.readBytes sp n = s.readBytes sp n := by
    simpa using State.readBytes_of_write h
  refine frameBytes_congr ?_ (hread rfl) (fun v => ?_) rfl ?_ ?_ (hread rfl)
  · simp [State.reparsed]
  · exact (s.cbAt_withEntries s.symbolTable v).trans (State.tableCode_symbolTable hfits v)
  · change BitVec.ofNat 32 (be (beBytes s.bitLen.toNat 4)) = s.bitLen
    rw [be_beBytes 4 _ s.bitLen.isLt, BitVec.ofNat_toNat, BitVec.setWidth_eq]
  · simp [State.reparsed]

/-- Settles O34: PARSE ends in `State.reparsed`, whose frame is the one SERIALIZE has written, so the second SERIALIZE
has room for it too. -/
theorem reserializedContainerIsSame : Obligations.ReserializedContainerIsSame := by
  intro s t u hm hfits hser hok hparse hokParse
  obtain ⟨_, _, hsize, rfl⟩ := exec_serialize_ok hm hser hok
  obtain rfl := exec_parse_serialized ((State.mode_idle_iff _).mpr ⟨rfl, hok⟩) hsize hparse hokParse
  have hframe := State.frameBytes_reparsed hfits
  have hsame : frameSize s.reparsed = frameSize s := by rw [← length_frameBytes, hframe, length_frameBytes]
  have hroom : frameSize s.reparsed ≤ s.reparsed.params.ctrCap.cells := hsame.trans_le hsize
  obtain ⟨_, hread⟩ := State.serialized_readBytes hsize
  obtain ⟨_, hreread⟩ := State.serialized_readBytes hroom
  exact ⟨s.reparsed.serialized, exec_serialize_completes ((State.mode_idle_iff _).mpr ⟨rfl, hok⟩) rfl rfl hroom, hok,
    congrArg (BitVec.ofNat 32) hsame, hreread.trans (hframe.trans hread.symm)⟩

end Sys2Proof.Machine
end

section
/-! PROOFS. The payload of every run: PAY_V = 1 guards a payload that holds its bits and fits PAY (45_decoder R241). -/

namespace Sys2Proof.Machine

/-! What a completed packing says -/

/-- A packing that does not raise has taken in every byte of RAW: no byte lacks a codeword, and none runs out of bits or
of room (43_bit_packer R193 to R195). -/
theorem State.packsTo_of_on {s : State} {w : PackWork} (h : s.packs = .on w) (r : Nat) (hr : r ≤ s.rawLen.toNat) :
    s.PacksTo r := by
  induction r with
  | zero =>
    have hnone : s.rawBits 0 = [] := rfl
    exact ⟨by simp, by simp [hnone], by simp [hnone]⟩
  | succ r ih =>
    have hprev := ih (Nat.le_of_succ_le hr)
    obtain ⟨rest, hraise⟩ := State.packs_raised hprev hr
    have hnoRaise {e : ErrKind} {info : Nat} {w' : PackWork} :
        packBytes s.codebook s.params.payCap.cells r (s.byteAt .raw r :: rest)
          (PackWork.after s.pay (s.rawBits r) (s.rawBits r).length) ≠ .raised e info w' := fun hb => by
      cases h.symm.trans (hraise hb)
    have hvalid : (s.cbAt (s.byteAt .raw r).toNat).valid = true :=
      Bool.eq_true_of_not_eq_false fun hno => hnoRaise (packBytes_of_missing hno)
    have hfits :
        ¬ (2 ^ 32 ≤ (s.rawBits (r + 1)).length ∨ s.params.payCap.cells < (s.rawBits (r + 1)).length / 8) := by
      rw [s.rawBits_succ]
      intro hover
      obtain ⟨w', hb, _⟩ := packBytes_runsOut s.pay hvalid hprev.room hover
      exact hnoRaise hb
    refine ⟨fun i hi => ?_, by omega, by omega⟩
    rcases Nat.lt_succ_iff_lt_or_eq.mp hi with hlt | rfl
    · exact hprev.coded i hlt
    · exact hvalid

/-- A completed packing has written the bytes that hold its bits, within PAY_CAP (43_bit_packer R192, R195). -/
theorem State.packs_on {s : State} {w : PackWork} (h : s.packs = .on w) :
    w.wp = ceil8 w.bits ∧ w.wp ≤ s.params.payCap.cells := by
  have hall := State.packsTo_of_on h _ le_rfl
  have hlast := h.symm.trans (State.packs_of_all hall)
  rcases Nat.lt_or_ge s.params.payCap.cells (ceil8 (s.rawBits s.rawLen.toNat).length) with hover | hceil
  · cases hlast.trans (padLast_after_full _ _ hall.room hover)
  · obtain ⟨w', hpad, hbits, hwp, _⟩ := padLast_after s.rawLen.toNat s.pay hceil
    cases hlast.trans hpad
    rw [hwp, hbits]
    exact ⟨rfl, hceil⟩

/-! The stages -/

/-- A state without PAY_V guards no payload. -/
theorem payOk_of_flag_clear {s : State} (h : s.status.payV = false) : s.payOk := fun hv => by
  rw [h] at hv
  cases hv

/-- BIT_LEN and PAY_LEN set to numbers that fit them and agree with PAY_CAP. -/
theorem payOk_of_lengths {s : State} {bits bytes : Nat} (hbits : s.bitLen = BitVec.ofNat 32 bits)
    (hbytes : s.payLen = BitVec.ofNat 32 bytes) (hhold : bits ≤ 8 * bytes) (hcap : bytes ≤ s.params.payCap.cells) :
    s.payOk := fun _ => by
  rw [hbits, hbytes, toNat_ofNat_of_le_cells hcap]
  exact ⟨(Nat.mod_le _ _).trans hhold, hcap⟩

theorem freqBody_keepsPayload : BodyKeeps State.payOk State.payOk freqBody := by
  intro s hs
  rcases freqBody_cases s with ⟨_, h⟩ | ⟨_, _, h⟩ | ⟨_, _, h⟩ <;> rw [h] <;> exact hs

theorem buildBody_keepsPayload : BodyKeeps State.payOk State.payOk buildBody := by
  intro s hs
  rcases buildBody_cases s with ⟨_, h⟩ | ⟨_, _, h⟩ | ⟨_, _, f, _, h⟩ | ⟨_, _, rows, _, h⟩ <;> rw [h]
  case inr.inr.inl => trivial
  all_goals exact hs

theorem codegenBody_keepsPayload : BodyKeeps State.payOk State.payOk codegenBody := by
  intro s hs
  rcases codegenBody_cases s with ⟨_, h⟩ | ⟨_, _, h⟩ | ⟨_, w, _, h⟩ <;> rw [h]
  case inr.inl => trivial
  all_goals exact hs

/-- PACK clears PAY_V first and sets it over the bytes of a completed packing only. -/
theorem packBody_keepsPayload : BodyKeeps State.payOk State.payOk packBody := by
  intro s _
  rcases packBody_cases s with ⟨_, h⟩ | ⟨_, _, h⟩ | ⟨_, _, e, info, w, _, h⟩ | ⟨_, _, w, hw, h⟩ <;> rw [h]
  case inr.inr.inr =>
    obtain ⟨hwp, hcap⟩ := State.packs_on hw
    exact payOk_of_lengths rfl rfl (hwp ▸ le_ceil8 w.bits) hcap
  all_goals exact payOk_of_flag_clear rfl

theorem serializeBody_keepsPayload : BodyKeeps State.payOk State.payOk serializeBody := by
  intro s hs
  rcases serializeBody_cases s with ⟨_, h⟩ | ⟨_, _, _, h⟩ | ⟨_, _, _, h⟩ <;> rw [h] <;> exact hs

theorem matchBody_keepsPayload : BodyKeeps State.payOk State.payOk matchBody := by
  intro s hs
  rcases matchBody_cases s with ⟨_, h⟩ | ⟨_, _, _, h⟩ | ⟨_, _, _, wp, raw, _, h⟩ |
    ⟨_, _, _, a, wp, raw, _, ⟨_, h⟩ | ⟨_, h⟩⟩ <;> rw [h] <;> exact hs

/-- PARSE sets PAY_V only after its two checks of the payload (44_container R228, R229). -/
theorem parseTail_keepsPayload {s : State} (hs : s.status.payV = false) (cnt : Nat) (c : Cursor) :
    (parseTail s cnt c).Meets State.payOk State.payOk := by
  rcases parseTail_cases s cnt c with ⟨e, info, h⟩ | ⟨pad, nbits, rest, hhold, hcap, _, _, h⟩ <;> rw [h]
  · exact payOk_of_flag_clear hs
  · exact payOk_of_lengths rfl rfl hhold hcap

theorem parseTable_keepsPayload {s : State} (hs : s.status.payV = false) (c : Cursor) :
    (parseTable s c).Meets State.payOk State.payOk := by
  rcases parseTable_cases s c with ⟨info, h⟩ | ⟨cnt, c₁, ⟨rp, cb, _, h⟩ | ⟨c₂, cb, _, h⟩⟩ <;> rw [h]
  · exact payOk_of_flag_clear hs
  · exact payOk_of_flag_clear hs
  · exact parseTail_keepsPayload (s := s.withCodes cb) hs _ _

theorem parseBody_keepsPayload : BodyKeeps State.payOk State.payOk parseBody := by
  intro s _
  rcases parseBody_cases s with ⟨e, info, h⟩ | ⟨len, tag, c, _, ⟨_, h⟩ | ⟨_, h⟩⟩ <;> rw [h]
  · exact payOk_of_flag_clear rfl
  · exact payOk_of_flag_clear rfl
  · exact parseTable_keepsPayload (s := s.tagRead len tag) rfl _

/-! Every step -/

/-- The host can write neither BIT_LEN nor PAY_LEN (10_state R21). -/
theorem payOk_regWrite {s : State} (hs : s.payOk) (n : Nat) (v : Word) : (s.regWrite n v).payOk := by
  rcases regWrite_cases s n v with ⟨_, h⟩ | ⟨_, h⟩ | ⟨_, h⟩ | ⟨_, h⟩ <;> rw [h] <;> exact hs

/-- Every part of a step keeps the payload's bound; CLR and reset clear PAY_V. -/
theorem payOk_keptByParts : KeptByParts State.payOk State.payOk where
  host _ _ hs := hs
  begin _ hs _ := hs
  stages :=
    { freq := freqBody_keepsPayload, build := buildBody_keepsPayload, codegen := codegenBody_keepsPayload,
      pack := packBody_keepsPayload, serialize := serializeBody_keepsPayload, parse := parseBody_keepsPayload,
      matchBits := matchBody_keepsPayload }
  finish _ hs := hs
  illegal _ _ hs := hs
  clear _ _ := payOk_of_flag_clear rfl
  reset _ _ := payOk_of_flag_clear rfl
  reg _ n v hs := payOk_regWrite hs n v
  mem _ sp _ _ _ _ hs := by cases sp <;> exact hs

/-- Settles O52, by `payOk_keptByParts`: PACK and PARSE alone set PAY_V, PACK over the bytes that hold its bits
(`State.packs_on`), PARSE after its checks. -/
theorem stepKeepsPayloadBound : Obligations.StepKeepsPayloadBound :=
  fun _ _ hs hst => payOk_keptByParts.step hs hst

end Sys2Proof.Machine
end

section
/-! PROOFS. MATCH: the accumulator holds the bits since the last symbol, so each codeword that is matched first emits
its least symbol, and bits in which nothing matches stay in the accumulator (45_decoder R240 to R249). -/

namespace Sys2Proof.Machine

/-! Records and bit strings (00_scope R13, 42_codebook R181) -/

/-- A value that fits its length is the number its codeword spells. -/
theorem bitsVal_codeBits {c : Code} (h : c.val.toNat < 2 ^ c.len.toNat) : bitsVal (codeBits c) = c.val.toNat := by
  refine Nat.eq_of_testBit_eq fun j => ?_
  rw [testBit_bitsVal, List.getD]
  rcases Nat.lt_or_ge j c.len.toNat with hlt | hge
  · rw [List.getElem?_reverse (by simpa using hlt), length_codeBits]
    have hdigit : c.len.toNat - 1 - (c.len.toNat - 1 - j) = j := by omega
    simp [codeBits, show c.len.toNat - 1 - j < c.len.toNat by omega, hdigit, BitVec.testBit_toNat]
  · rw [List.getElem?_eq_none (by simpa using hge)]
    exact (Nat.testBit_lt_two_pow (h.trans_le (Nat.pow_le_pow_right (by decide) hge))).symm

/-- The number of a bit string says which it is among those of its length. -/
theorem codeBits_of_bitsVal {c : Code} {bits : List Bool} (hvalid : c.valid = true) (hlen : c.len.toNat = bits.length)
    (hval : c.val.toNat = bitsVal bits) : codeBits c = bits := by
  have hshort : bits.length ≤ maxLen := hlen ▸ Nat.le_of_lt_succ c.len.isLt
  have hcode : c = pathCode bits := by
    obtain ⟨valid, len, val⟩ := c
    simp only at hvalid hlen hval
    rw [pathCode, hvalid, ← hlen, ← hval, BitVec.ofNat_toNat, BitVec.ofNat_toNat, BitVec.setWidth_eq,
      BitVec.setWidth_eq]
  rw [hcode, codeBits_pathCode hshort]

/-! The accumulator (R240, R245) -/

/-- The accumulator once the bits have been taken in since it was empty. -/
def accOf (bits : List Bool) : Acc := bits.foldl Acc.push Acc.empty

theorem accOf_append_bit (bits : List Bool) (b : Bool) : accOf (bits ++ [b]) = (accOf bits).push b := List.foldl_append

/-- ACC_LEN counts the bits up to 256. -/
theorem len_accOf (bits : List Bool) : (accOf bits).len = min bits.length 256 := by
  induction bits using List.reverseRecOn with
  | nil => rfl
  | append_singleton bits b ih =>
    rw [accOf_append_bit, Acc.push, List.length_append, List.length_singleton]
    split <;> simp only <;> omega

/-- ACC_VAL is the number of the bits while they could be a codeword. -/
theorem val_accOf {bits : List Bool} (h : bits.length ≤ maxLen) : (accOf bits).val = bitsVal bits := by
  induction bits using List.reverseRecOn with
  | nil => rfl
  | append_singleton bits b ih =>
    rw [List.length_append, List.length_singleton, maxLen] at h
    have hshort : (accOf bits).len ≤ 254 := by rw [len_accOf]; omega
    rw [accOf_append_bit, Acc.push, if_pos hshort, ih (Nat.le_of_succ_le h), two_mul_add_bitNat, bitsVal_append_bit]

/-! The look-up of the accumulated bits (R181) -/

/-- What CBMatch answers on the accumulated bits. -/
def State.lookUp (s : State) (bits : List Bool) : Option Nat := cbMatch s.codebook (accOf bits).len (accOf bits).val

theorem State.getElem?_codebook (s : State) (x : Byte) : s.codebook[x.toNat]? = some (s.cbAt x.toNat) := by
  simp [State.codebook, List.getElem?_range x.isLt]

section
variable {s : State} {bits : List Bool}

/-- A match is the codeword of a valid record with a bit. -/
theorem State.codeBits_of_lookUp {v : Nat} (h : s.lookUp bits = some v) :
    ∃ y : Byte, y.toNat = v ∧ (s.cbAt y.toNat).valid = true ∧ 1 ≤ (s.cbAt y.toNat).len.toNat
      ∧ codeBits (s.cbAt y.toNat) = bits := by
  obtain ⟨h0, h256, ⟨c, hc, hvalid, hlen, hval⟩, _⟩ := cbMatch_some h
  obtain ⟨hv, _⟩ := List.getElem?_eq_some_iff.mp hc
  rw [State.length_codebook] at hv
  obtain ⟨y, rfl⟩ : ∃ y : Byte, y.toNat = v := ⟨BitVec.ofNat 8 v, Nat.mod_eq_of_lt hv⟩
  cases (s.getElem?_codebook y).symm.trans hc
  have hacc := len_accOf bits
  have hshort : bits.length ≤ maxLen := by rw [maxLen]; omega
  rw [val_accOf hshort] at hval
  exact ⟨y, rfl, hvalid, by omega, codeBits_of_bitsVal hvalid (by omega) hval⟩

/-- Nothing matches bits that are no valid codeword. -/
theorem State.lookUp_eq_none (h : ∀ y : Byte, (s.cbAt y.toNat).valid = true → 1 ≤ (s.cbAt y.toNat).len.toNat →
    codeBits (s.cbAt y.toNat) ≠ bits) : s.lookUp bits = none := by
  rw [Option.eq_none_iff_forall_ne_some]
  intro v hv
  obtain ⟨y, _, hvalid, hlen, hbits⟩ := State.codeBits_of_lookUp hv
  exact h y hvalid hlen hbits

variable {x : Byte}

/-- A codeword that is matched first emits its least symbol. -/
theorem State.FirstMatch.lookUp (h : s.FirstMatch x) : s.lookUp (codeBits (s.cbAt x.toNat)) = some x.toNat := by
  obtain ⟨hvalid, hpos, hfits, hleast⟩ := h
  have hmax := (s.cbAt x.toNat).len.isLt
  have hlen : (accOf (codeBits (s.cbAt x.toNat))).len = (s.cbAt x.toNat).len.toNat := by
    rw [len_accOf, length_codeBits]; omega
  have hval : (accOf (codeBits (s.cbAt x.toNat))).val = (s.cbAt x.toNat).val.toNat := by
    rw [val_accOf (by rw [length_codeBits, maxLen]; omega), bitsVal_codeBits hfits]
  cases hlook : s.lookUp (codeBits (s.cbAt x.toNat)) with
  | none =>
    rw [State.lookUp, hlen, hval] at hlook
    exact absurd ⟨hvalid, rfl, rfl⟩
      (cbMatch_none hlook (by omega) (by omega) _ (List.mem_of_getElem? (s.getElem?_codebook x)))
  | some v =>
    obtain ⟨y, rfl, hy, hylen, hybits⟩ := State.codeBits_of_lookUp hlook
    obtain ⟨_, hxy⟩ := hleast y hy hylen (hybits ▸ List.prefix_rfl)
    rw [State.lookUp, hlen, hval] at hlook
    obtain ⟨_, _, _, hmin⟩ := cbMatch_some hlook
    have hyx : ¬ x.toNat < y.toNat := fun hlt => hmin _ hlt _ (s.getElem?_codebook x) ⟨hvalid, rfl, rfl⟩
    exact congrArg some (by omega)

/-- No beginning of such a codeword matches before it is complete. -/
theorem State.FirstMatch.lookUp_prefix (h : s.FirstMatch x) (hpre : bits <+: codeBits (s.cbAt x.toNat))
    (hne : bits ≠ codeBits (s.cbAt x.toNat)) : s.lookUp bits = none := by
  obtain ⟨_, _, _, hleast⟩ := h
  refine State.lookUp_eq_none fun y hy hylen hybits => ?_
  obtain ⟨hsame, _⟩ := hleast y hy hylen (hybits ▸ hpre)
  exact hne (hybits.symm.trans hsame)

/-! The loop over bits (R240, R244) -/

variable {cap wp : Nat} {raw : Memory}

/-- Bits on which nothing matches, after those accumulated, are accumulated. -/
theorem matchLoop_of_no_match (more rest : List Bool)
    (h : ∀ p, bits <+: p → p <+: bits ++ more → p ≠ bits → s.lookUp p = none) :
    matchLoop s.codebook cap (more ++ rest) (accOf bits) wp raw
      = matchLoop s.codebook cap rest (accOf (bits ++ more)) wp raw := by
  induction more generalizing bits with
  | nil => rw [List.nil_append, List.append_nil]
  | cons b more ih =>
    have hnext : s.lookUp (bits ++ [b]) = none :=
      h _ (List.prefix_append ..) (List.append_cons bits b more ▸ List.prefix_append ..) (by simp)
    rw [State.lookUp, accOf_append_bit] at hnext
    rw [List.append_cons bits] at h ⊢
    rw [List.cons_append, matchLoop, hnext, ← accOf_append_bit]
    refine ih fun p hp hpm _ => h p ((List.prefix_append ..).trans hp) hpm ?_
    rintro rfl
    simpa using hp.length_le

/-- A codeword that is matched first is matched at its last bit. -/
theorem matchLoop_codeword (h : s.FirstMatch x) (rest : List Bool) :
    matchLoop s.codebook cap (codeBits (s.cbAt x.toNat) ++ rest) Acc.empty wp raw
      = if wp < cap then matchLoop s.codebook cap rest Acc.empty (wp + 1) (raw.set wp x) else .full wp raw := by
  have hne : codeBits (s.cbAt x.toNat) ≠ [] := by
    obtain ⟨_, hpos, _⟩ := h
    exact List.ne_nil_of_length_pos (by rwa [length_codeBits])
  obtain ⟨init, b, hbits⟩ := List.eq_nil_or_concat' _ |>.resolve_left hne
  have hlook := h.lookUp
  have hinit := matchLoop_of_no_match (s := s) (cap := cap) (wp := wp) (raw := raw) (bits := []) init (b :: rest)
    fun p _ hp _ => h.lookUp_prefix (hp.trans (hbits ▸ List.prefix_append ..)) fun he => by
      have hlen := hp.length_le
      rw [he, hbits] at hlen
      simp at hlen
  rw [State.lookUp, hbits, accOf_append_bit] at hlook
  rw [hbits, List.append_assoc, List.singleton_append]
  refine hinit.trans ?_
  rw [List.nil_append, matchLoop, hlook]
  simp

/-- The codewords of a message, each matched first, are emitted one after the other while RAW has room. -/
theorem matchLoop_message {m : List Byte} (hm : ∀ x ∈ m, s.FirstMatch x) (rest : List Bool)
    (hroom : wp + m.length ≤ cap) :
    matchLoop s.codebook cap (s.bitString m ++ rest) Acc.empty wp raw
      = matchLoop s.codebook cap rest Acc.empty (wp + m.length) (raw.write wp m) := by
  induction m generalizing wp raw with
  | nil => rfl
  | cons x m ih =>
    obtain ⟨hx, hm⟩ := List.forall_mem_cons.mp hm
    rw [List.length_cons] at hroom ⊢
    rw [State.bitString, List.flatMap_cons, List.append_assoc, matchLoop_codeword hx, if_pos (by omega), Memory.write,
      show wp + (m.length + 1) = wp + 1 + m.length by omega]
    exact ih hm (by omega)

/-- A message longer than RAW fills it with its first symbols (R240). -/
theorem matchLoop_message_full {m : List Byte} (hm : ∀ x ∈ m, s.FirstMatch x) (rest : List Bool)
    (hover : cap < m.length) :
    matchLoop s.codebook cap (s.bitString m ++ rest) Acc.empty 0 raw = .full cap (raw.write 0 (m.take cap)) := by
  obtain ⟨front, x, back, rfl, rfl⟩ : ∃ front x back, m = front ++ x :: back ∧ front.length = cap :=
    ⟨m.take cap, m[cap], m.drop (cap + 1), by rw [← List.drop_eq_getElem_cons hover, List.take_append_drop],
      List.length_take_of_le hover.le⟩
  have hbits : s.bitString (front ++ x :: back) ++ rest
      = s.bitString front ++ (codeBits (s.cbAt x.toNat) ++ (s.bitString back ++ rest)) := by
    simp [State.bitString]
  rw [hbits, matchLoop_message (fun y hy => hm y (List.mem_append_left _ hy)) _ (Nat.zero_add _).le, Nat.zero_add,
    matchLoop_codeword (hm x (by simp)), if_neg (Nat.lt_irrefl _), List.take_left]

/-- Bits in which nothing matches stay in the accumulator (R245, R246). -/
theorem matchLoop_unmatched {tail : List Bool} (h : s.NoMatchIn tail) :
    matchLoop s.codebook cap tail Acc.empty wp raw = .spent (accOf tail) wp raw := by
  have hloop := matchLoop_of_no_match (s := s) (cap := cap) (wp := wp) (raw := raw) (bits := []) tail []
    fun p _ hp _ => State.lookUp_eq_none fun y hy hlen hybits => h y hy hlen (hybits ▸ hp)
  rwa [List.append_nil] at hloop

end

/-- The loop writes consecutive symbols from WP on. -/
theorem matchLoop_writes (cb : List Code) (cap : Nat) (bits : List Bool) (a : Acc) (wp : Nat) (raw : Memory) :
    ∃ bs, (matchLoop cb cap bits a wp raw).written = wp + bs.length
      ∧ (matchLoop cb cap bits a wp raw).memory = raw.write wp bs := by
  induction bits generalizing a wp raw with
  | nil => exact ⟨[], rfl, rfl⟩
  | cons b bits ih =>
    rw [matchLoop]
    split
    · exact ih _ wp raw
    · rename_i v _
      split
      · obtain ⟨bs, hwp, hraw⟩ := ih Acc.empty (wp + 1) (raw.set wp (BitVec.ofNat 8 v))
        exact ⟨BitVec.ofNat 8 v :: bs, by rw [hwp, List.length_cons]; omega, hraw⟩
      · exact ⟨[], rfl, rfl⟩

/-! How MATCH ends -/

/-- What the matching of the payload's bits comes to. -/
abbrev State.matched (s : State) : Matched :=
  matchLoop s.codebook s.params.rawCap.cells (s.payBits s.bitLen.toNat) Acc.empty 0 s.raw

/-- The state a completed MATCH answers. -/
abbrev State.matching (s : State) (wp : Nat) (raw : Memory) : State :=
  { s with
    phase := 0
    status := { s.status with busy := false, done := true }
    raw := raw
    rawLen := BitVec.ofNat 32 wp }

/-- The state MATCH raises into once the flags have been checked: RAW_LEN is 0, RAW holds the symbols emitted. -/
abbrev State.matchFault (s : State) (e : ErrKind) (info : Word) (raw : Memory) : State :=
  { (s.atStart .du []).raise e info with raw := raw, rawLen := 0 }

/-- The state MATCH ends in when its loop has come to `r`. -/
def State.matchEnd (s : State) (r : Matched) : State :=
  match r with
  | .full wp raw => s.matchFault .capacity (BitVec.ofNat 32 wp) raw
  | .spent a wp raw =>
    if a.len = 0 then s.matching wp raw else s.matchFault .unknownCode (BitVec.ofNat 32 wp) raw

/-- With its flags set and a payload that holds its bits, MATCH ends as its loop does. -/
theorem exec_match_ends {s : State} (hm : s.mode = .idle) (hcb : s.flag .cb = true) (hpay : s.flag .pay = true)
    (hbits : s.bitLen.toNat ≤ 8 * s.payLen.toNat) : exec .matchBits s = .next (s.matchEnd s.matched) := by
  rw [exec_of_commandBody rfl, issue_idle _ hm]
  rcases matchBody_cases s.beginCommand with ⟨h | h, _⟩ | ⟨_, _, h, _⟩ | ⟨_, _, _, wp, raw, hr, hb⟩ |
    ⟨_, _, _, a, wp, raw, hr, ⟨ha, hb⟩ | ⟨ha, hb⟩⟩
  · exact absurd (hcb.symm.trans h) (by decide)
  · exact absurd (hpay.symm.trans h) (by decide)
  · exact absurd hbits (Nat.not_le_of_lt h)
  all_goals
    have hmatched : s.matched = _ := hr
    rw [hb, hmatched, State.matchEnd]
  · rfl
  · rw [if_neg ha]
    rfl
  · rw [if_pos ha]
    rfl

/-- Everything MATCH can do: its word is dropped, it raises with RAW as it was, or it ends as its loop does. -/
theorem exec_match_cases {s t : State} (h : exec .matchBits s = .next t) :
    t = s ∨ t = (s.atStart .du []).raise .sequence 0x07 ∨ t = s.matchFault .truncatedContainer s.payLen s.raw
      ∨ t = s.matchEnd s.matched := by
  by_cases hm : s.mode = .idle
  · have hexec := h
    rw [exec_of_commandBody rfl, issue_idle _ hm] at h
    rcases matchBody_cases s.beginCommand with ⟨_, hb⟩ | ⟨_, _, _, hb⟩ | ⟨hcb, hpay, hbits, _⟩ | ⟨hcb, hpay, hbits, _⟩
    · rw [hb] at h
      cases h
      exact .inr (.inl rfl)
    · rw [hb] at h
      cases h
      exact .inr (.inr (.inl rfl))
    all_goals
      cases hexec.symm.trans (exec_match_ends hm hcb hpay hbits)
      exact .inr (.inr (.inr rfl))
  · rw [exec_of_commandBody rfl, issue_dropped _ hm] at h
    cases h
    exact .inl rfl

/-! What MATCH leaves unchanged -/

/-- MATCH has written into RAW, which now is `raw`, and besides only RAW_LEN, the mode bits and the fault registers. -/
def State.MatchWrites (s : State) (raw : Memory) (t : State) : Prop :=
  ∃ busy done err errCode errInfo phase rawLen, t = { s with
    status := { s.status with busy := busy, done := done, err := err }
    errCode := errCode, errInfo := errInfo, phase := phase, rawLen := rawLen, raw := raw }

theorem State.matchEnd_writes (s : State) (r : Matched) : s.MatchWrites r.memory (s.matchEnd r) := by
  unfold State.matchEnd
  split
  · exact ⟨_, _, _, _, _, _, _, rfl⟩
  · split <;> exact ⟨_, _, _, _, _, _, _, rfl⟩

/-- What a MATCH that answers a next state has written: RAW as its loop left it, or nothing of RAW. -/
theorem exec_match_writes {s t : State} (h : exec .matchBits s = .next t) :
    ∃ raw, (raw = s.raw ∨ raw = s.matched.memory) ∧ s.MatchWrites raw t := by
  rcases exec_match_cases h with rfl | rfl | rfl | rfl
  · exact ⟨_, .inl rfl, _, _, _, _, _, _, _, rfl⟩
  · exact ⟨_, .inl rfl, _, _, _, _, _, _, _, rfl⟩
  · exact ⟨_, .inl rfl, _, _, _, _, _, _, _, rfl⟩
  · exact ⟨_, .inr rfl, s.matchEnd_writes s.matched⟩

/-- Settles O37: MATCH writes what `exec_match_writes` says, and RAW below the number of symbols emitted alone
(`matchLoop_writes`). -/
theorem matchFrame : Obligations.MatchFrame := by
  intro s t h
  obtain ⟨bs, hwp, hmemory⟩ :=
    matchLoop_writes s.codebook s.params.rawCap.cells (s.payBits s.bitLen.toNat) Acc.empty 0 s.raw
  obtain ⟨raw, hraw, busy, done, err, errCode, errInfo, phase, rawLen, rfl⟩ := exec_match_writes h
  refine ⟨fun n hn => ?_, fun f _ => State.flag_congr rfl rfl rfl rfl f, fun sp hsp i => ?_, fun i hi => ?_,
    fun _ => rfl, fun _ => rfl, fun _ => rfl, rfl, rfl⟩
  · induction n using reg_cases
    case h1 | h2 | h3 | h4 | h5 => simp at hn
    all_goals rfl
  · cases sp
    case raw => simp at hsp
    all_goals rfl
  · rcases hraw with rfl | rfl
    · exact State.byteAt_congr rfl i
    · exact State.byteAt_beyond_write hmemory (by omega)

/-! What MATCH emits -/

/-- Settles O60: the loop emits the symbols of m (`matchLoop_message`), or fills RAW with the first of them
(`matchLoop_message_full`). -/
theorem matchEmitsFirstMatches : Obligations.MatchEmitsFirstMatches := by
  intro s m tail hm hcb hpay hhold hbits hfirst cap
  obtain ⟨_, herr⟩ := s.mode_idle_iff.mp hm
  have hexec := exec_match_ends hm hcb hpay hhold
  constructor
  · rintro rfl hroom
    have hmatched : s.matched = .spent Acc.empty m.length (s.raw.write 0 m) := by
      rw [State.matched, hbits, matchLoop_message hfirst _ (by omega), Nat.zero_add, matchLoop]
    rw [hmatched] at hexec
    exact ⟨_, hexec, ⟨rfl, rfl, herr, rfl, rfl, rfl⟩, toNat_ofNat_of_le_cells hroom,
      State.readBytes_of_write (s := s) rfl⟩
  · intro hover
    have hmatched : s.matched = .full cap (s.raw.write 0 (m.take cap)) := by
      rw [State.matched, hbits, matchLoop_message_full hfirst _ hover]
    rw [hmatched] at hexec
    have hread : (s.matchEnd (.full cap (s.raw.write 0 (m.take cap)))).readBytes .raw (m.take cap).length
        = m.take cap := State.readBytes_of_write (s := s) rfl
    rw [List.length_take_of_le hover.le] at hread
    exact ⟨_, hexec, ⟨rfl, rfl, rfl, rfl, rfl, rfl⟩, rfl, hread⟩

/-- Settles O36: after the symbols of m the bits in which nothing matches are left in the accumulator
(`matchLoop_unmatched`); what MATCH keeps is said by O37. -/
theorem matchReportsUnknownCode : Obligations.MatchReportsUnknownCode := by
  intro s m tail hm hcb hpay hhold hbits hfirst hnone htail hroom
  have hexec := exec_match_ends hm hcb hpay hhold
  have hmatched : s.matched = .spent (accOf tail) m.length (s.raw.write 0 m) := by
    rw [State.matched, hbits, matchLoop_message hfirst _ (by omega), Nat.zero_add, matchLoop_unmatched hnone]
  have hleft : (accOf tail).len ≠ 0 := by
    have hpos := List.length_pos_iff.mpr htail
    rw [len_accOf]
    omega
  have hend : s.matchEnd s.matched = s.matchFault .unknownCode (BitVec.ofNat 32 m.length) (s.raw.write 0 m) := by
    rw [hmatched, State.matchEnd, if_neg hleft]
  rw [hend] at hexec
  obtain ⟨_, hflags, hbytes, hbeyond, _⟩ := matchFrame s _ hexec
  rw [show (matchLoop _ _ _ _ _ _).written = m.length from congrArg Matched.written hmatched] at hbeyond
  exact ⟨_, hexec, ⟨rfl, rfl, rfl, rfl, rfl, rfl⟩, rfl, State.readBytes_of_write (s := s) rfl, hbytes, hbeyond, hflags⟩

/-- In a `PrefixFree` codebook no valid codeword begins that of another symbol. -/
theorem State.eq_of_codeBits_prefix {s : State} (h : PrefixFree s.codebook) {x y : Byte}
    (hx : (s.cbAt x.toNat).valid = true) (hy : (s.cbAt y.toNat).valid = true)
    (hyx : codeBits (s.cbAt y.toNat) <+: codeBits (s.cbAt x.toNat)) : y = x := by
  rw [PrefixFree, List.pairwise_map, List.pairwise_filter, State.codebook, List.pairwise_map] at h
  by_contra hne
  have hne' : y.toNat ≠ x.toNat := fun he => hne (BitVec.eq_of_toNat_eq he)
  have hboth := @List.Pairwise.forall _ _ _ ⟨fun _ _ hij hj hi => (hij hi hj).symm⟩ h _ (List.mem_range.mpr y.isLt) _
    (List.mem_range.mpr x.isLt) hne'
  exact (hboth hy hx).1 hyx

/-- There each valid codeword is matched first. -/
theorem State.firstMatch_of_prefixFree {s : State} (h : PrefixFree s.codebook) (hne : NoEmptyCode s.codebook)
    (hfits : ∀ v : Byte, CodeFits (s.cbAt v.toNat)) {x : Byte} (hx : (s.cbAt x.toNat).valid = true) :
    s.FirstMatch x := by
  refine ⟨hx, hne _ (List.mem_of_getElem? (s.getElem?_codebook x)) hx, (hfits x).1, fun y hy _ hyx => ?_⟩
  obtain rfl := State.eq_of_codeBits_prefix h hx hy hyx
  exact ⟨rfl, le_rfl⟩

/-- Settles O35: every symbol of m is matched first (`State.firstMatch_of_prefixFree`), so this is the first half of O60
with no bits left. -/
theorem matchRecoversMessage : Obligations.MatchRecoversMessage := by
  intro s m hm hcb hpay hhold hfits hprefix hne hvalid hbits hroom
  have hfirst : ∀ x ∈ m, s.FirstMatch x := fun x hx => State.firstMatch_of_prefixFree hprefix hne hfits (hvalid x hx)
  obtain ⟨hcompletes, _⟩ :=
    matchEmitsFirstMatches s m [] hm hcb hpay hhold (hbits.trans (List.append_nil _).symm) hfirst
  exact hcompletes rfl hroom

end Sys2Proof.Machine
end

section
/-! PROOFS. The sequencer: which words are dropped, CLR, ENCODE and DECODE as their stages issued one after the other,
and that every command ends (46_top_level R260 to R275). -/

namespace Sys2Proof.Machine

/-! Words that are dropped, and CLR (R260, R275) -/

/-- Outside IDLE mode every command but CLR is dropped. -/
theorem exec_dropped {i : Instr} {s : State} (hi : i ≠ .clr) (hm : s.mode ≠ .idle) : exec i s = .next s := by
  cases hb : commandBody i with
  | none => exact absurd (commandBody_eq_none hb) hi
  | some body => exact (exec_of_commandBody hb s).trans (issue_dropped body hm)

theorem issueClear_busy {s : State} (hm : s.mode = .busy) : issueClear s = .next s := by simp [issueClear, hm]

theorem issueClear_not_busy {s : State} (hm : s.mode ≠ .busy) : issueClear s = .next s.cleared := by
  cases h : s.mode with
  | busy => exact absurd h hm
  | idle | fault => simp [issueClear, h]

theorem issueIllegal_dropped {s : State} (w : Word) (hm : s.mode ≠ .idle) : issueIllegal w s = .next s := by
  cases h : s.mode with
  | idle => exact absurd h hm
  | busy | fault => simp [issueIllegal, h]

/-- A word that names no command is issued as an illegal one. -/
theorem hostCommand_illegal {w : Word} (hw : decode w = none) (s : State) : hostCommand w s = issueIllegal w s := by
  simp [hostCommand, hw]

/-- Settles O6: BUSY mode drops CLR too, and outside IDLE mode `exec_dropped` says it of the others. -/
theorem wordsAreDropped : Obligations.WordsAreDropped := by
  refine ⟨fun i s h => ?_, fun w s hm hw => (hostCommand_illegal hw s).trans (issueIllegal_dropped w hm)⟩
  rcases h with hbusy | ⟨hfault, hi⟩
  · by_cases hi : i = .clr
    · exact hi ▸ issueClear_busy hbusy
    · exact exec_dropped hi (by simp [hbusy])
  · exact exec_dropped hi (by simp [hfault])

/-- Settles O7: outside BUSY mode CLR answers `State.cleared`. -/
theorem clrReturnsToIdle : Obligations.ClrReturnsToIdle := by
  intro s hm
  refine ⟨s.cleared, issueClear_not_busy hm, Status.word_done, rfl, by simp, fun n hn => ?_, fun sp hsp i => ?_, rfl,
    rfl⟩
  · induction n using reg_cases
    case h0 | h5 | h6 | h7 | habsent => rfl
    all_goals simp at hn
  · cases sp
    case pay => simp at hsp
    all_goals exact State.byteAt_congr rfl i

/-! The mode while a command runs -/

/-- The mode bits while a command runs without a fault so far (R260). -/
structure State.Active (s : State) : Prop where
  busy : s.status.busy = true
  done : s.status.done = false
  err  : s.status.err = false

theorem active_beginCommand {s : State} (hm : s.mode = .idle) : s.beginCommand.Active :=
  ⟨rfl, rfl, (s.mode_idle_iff.mp hm).2⟩

/-- A running command that ends leaves IDLE mode. -/
theorem State.Active.mode_endCommand {s : State} (hs : s.Active) : s.endCommand.mode = .idle :=
  s.endCommand.mode_idle_iff.mpr ⟨rfl, hs.err⟩

/-- Ending a running command and beginning the next changes PHASE alone. -/
theorem State.Active.beginCommand_endCommand {s : State} (hs : s.Active) :
    s.endCommand.beginCommand = s.setPhase .seq := by
  have hstatus : s.endCommand.beginCommand.status = s.status := by
    simp [State.endCommand_status, State.beginCommand_status, ← hs.busy, ← hs.done]
  unfold State.setPhase
  rw [← hstatus]
  rfl

/-- A raise leaves FAULT mode (60_exceptions R300). -/
theorem State.mode_raise (s : State) (e : ErrKind) (info : Word) : (s.raise e info).mode = .fault :=
  (s.raise e info).mode_fault_iff.mpr ⟨rfl, rfl⟩

/-- The state is in FAULT mode. -/
def State.Faulted (s : State) : Prop := s.mode = .fault

/-- A stage ends with its command still running, or raises into FAULT mode. -/
abbrev KeepsActive (body : State → Ran) : Prop := BodyKeeps State.Active State.Faulted body

theorem freqBody_keepsActive : KeepsActive freqBody := by
  intro s ⟨hb, hd, he⟩
  rcases freqBody_cases s with ⟨_, h⟩ | ⟨_, _, h⟩ | ⟨_, _, h⟩ <;> rw [h]
  · exact State.mode_raise _ _ _
  · exact State.mode_raise _ _ _
  · exact ⟨hb, hd, he⟩

theorem buildBody_keepsActive : KeepsActive buildBody := by
  intro s ⟨hb, hd, he⟩
  rcases buildBody_cases s with ⟨_, h⟩ | ⟨_, _, h⟩ | ⟨_, _, f, _, h⟩ | ⟨_, _, rows, _, h⟩ <;> rw [h]
  · exact State.mode_raise _ _ _
  · exact State.mode_raise _ _ _
  · trivial
  · exact ⟨hb, hd, he⟩

theorem codegenBody_keepsActive : KeepsActive codegenBody := by
  intro s ⟨hb, hd, he⟩
  rcases codegenBody_cases s with ⟨_, h⟩ | ⟨_, _, h⟩ | ⟨_, w, _, h⟩ <;> rw [h]
  · exact State.mode_raise _ _ _
  · trivial
  · exact ⟨hb, hd, he⟩

theorem packBody_keepsActive : KeepsActive packBody := by
  intro s ⟨hb, hd, he⟩
  rcases packBody_cases s with ⟨_, h⟩ | ⟨_, _, h⟩ | ⟨_, _, e, info, w, _, h⟩ | ⟨_, _, w, _, h⟩ <;> rw [h]
  · exact State.mode_raise _ _ _
  · exact State.mode_raise _ _ _
  · exact State.mode_raise _ _ _
  · exact ⟨hb, hd, he⟩

theorem serializeBody_keepsActive : KeepsActive serializeBody := by
  intro s ⟨hb, hd, he⟩
  rcases serializeBody_cases s with ⟨_, h⟩ | ⟨_, _, _, h⟩ | ⟨_, _, _, h⟩ <;> rw [h]
  · exact State.mode_raise _ _ _
  · exact State.mode_raise _ _ _
  · exact ⟨hb, hd, he⟩

theorem matchBody_keepsActive : KeepsActive matchBody := by
  intro s ⟨hb, hd, he⟩
  rcases matchBody_cases s with ⟨_, h⟩ | ⟨_, _, _, h⟩ | ⟨_, _, _, wp, raw, _, h⟩ |
    ⟨_, _, _, a, wp, raw, _, ⟨_, h⟩ | ⟨_, h⟩⟩ <;> rw [h]
  · exact State.mode_raise _ _ _
  · exact State.mode_raise _ _ _
  · exact State.mode_raise _ _ _
  · exact State.mode_raise _ _ _
  · exact ⟨hb, hd, he⟩

theorem parseBody_keepsActive : KeepsActive parseBody := by
  intro s ⟨hb, hd, he⟩
  rcases parseBody_ends s with ⟨e, info, h⟩ | ⟨tag, _, ⟨e, info, h⟩ | ⟨c, h⟩⟩ <;> rw [h]
  · exact State.mode_raise _ _ _
  · exact State.mode_raise _ _ _
  · obtain ⟨cb, ⟨e, info, ht⟩ | ⟨cnt, pad, bits, payload, _, ht⟩⟩ := parseTable_ends (s.withTag tag) c <;> rw [ht]
    · exact State.mode_raise _ _ _
    · exact ⟨hb, hd, he⟩

theorem active_stagesKeep : StagesKeep State.Active State.Faulted where
  freq := freqBody_keepsActive
  build := buildBody_keepsActive
  codegen := codegenBody_keepsActive
  pack := packBody_keepsActive
  serialize := serializeBody_keepsActive
  parse := parseBody_keepsActive
  matchBits := matchBody_keepsActive

/-! Commands issued one after the other (R271, R273) -/

theorem Ran.andThen_assoc (r : Ran) (f g : State → Ran) :
    (r.andThen f).andThen g = r.andThen fun s => (f s).andThen g := by cases r <;> rfl

@[simp] theorem Ran.andThen_ended_right (r : Ran) : r.andThen .ended = r := by cases r <;> rfl

/-- Issued where a running command ends, the commands have the outcome of this body run on in that command. -/
def Issues (is : List Instr) (body : State → Ran) : Prop :=
  ∀ u : State, u.Active → issueAll is u.endCommand = (body u).finish

theorem issues_nil : Issues [] Ran.ended := fun _ _ => rfl

/-- The command of a stage: its body names its unit in PHASE first and keeps the mode bits of a running command. -/
structure IsStage (i : Instr) (body : State → Ran) : Prop where
  command     : commandBody i = some body
  setPhase    : ∀ (s : State) (u : Position), body (s.setPhase u) = body s
  keepsActive : KeepsActive body

/-- Outside IDLE mode commands other than CLR are dropped, however many. -/
theorem issueAll_dropped {is : List Instr} {s : State} (his : ∀ i ∈ is, i ≠ .clr) (hm : s.mode ≠ .idle) :
    issueAll is s = .next s := by
  induction is with
  | nil => rfl
  | cons i is ih =>
    obtain ⟨hi, his⟩ := List.forall_mem_cons.mp his
    rw [issueAll, exec_dropped hi hm]
    exact ih his

/-- A stage issued first: it ends and the others follow, or it raises and they are dropped, or it stops the machine. -/
theorem IsStage.issues {i : Instr} {is : List Instr} {body others : State → Ran} (h : IsStage i body)
    (his : ∀ j ∈ is, j ≠ .clr) (hothers : Issues is others) : Issues (i :: is) fun u => (body u).andThen others := by
  intro u hu
  have hexec : exec i u.endCommand = (body u).finish := by
    rw [exec_of_commandBody h.command, issue_idle body hu.mode_endCommand, hu.beginCommand_endCommand, h.setPhase]
  have hmeets := h.keepsActive u hu
  rw [issueAll, hexec]
  show _ = ((body u).andThen others).finish
  cases hb : body u with
  | ended v =>
    rw [hb] at hmeets
    exact hothers v hmeets
  | raised v =>
    rw [hb] at hmeets
    exact issueAll_dropped his (by rw [hmeets]; decide)
  | stopped f => rfl

/-- A command whose body is that of stages run on in one command equals the stages, from every state. -/
theorem exec_eq_issueAll {c i : Instr} {is : List Instr} {body : State → Ran} (hc : commandBody c = some body)
    (his : ∀ j ∈ i :: is, j ≠ .clr) (h : Issues (i :: is) body) (s : State) : exec c s = issueAll (i :: is) s := by
  have hne : c ≠ .clr := by
    rintro rfl
    cases hc
  by_cases hm : s.mode = .idle
  · have hu := active_beginCommand hm
    have hfirst : exec i s.beginCommand.endCommand = exec i s := by
      cases hi : commandBody i with
      | none => exact absurd (commandBody_eq_none hi) (his i List.mem_cons_self)
      | some first =>
        rw [exec_of_commandBody hi, exec_of_commandBody hi, issue_idle _ hm, issue_idle _ hu.mode_endCommand,
          hu.beginCommand_endCommand]
        rfl
    have hbody := h s.beginCommand hu
    rw [issueAll, hfirst] at hbody
    rw [exec_of_commandBody hc, issue_idle body hm, ← hbody, issueAll]
  · rw [exec_dropped hne hm, issueAll_dropped his hm]

theorem freq_isStage : IsStage .freq freqBody := ⟨rfl, fun _ _ => rfl, freqBody_keepsActive⟩
theorem build_isStage : IsStage .build buildBody := ⟨rfl, fun _ _ => rfl, buildBody_keepsActive⟩
theorem codegen_isStage : IsStage .codegen codegenBody := ⟨rfl, fun _ _ => rfl, codegenBody_keepsActive⟩
theorem pack_isStage : IsStage .pack packBody := ⟨rfl, fun _ _ => rfl, packBody_keepsActive⟩
theorem serialize_isStage : IsStage .serialize serializeBody := ⟨rfl, fun _ _ => rfl, serializeBody_keepsActive⟩
theorem parse_isStage : IsStage .parse parseBody := ⟨rfl, fun _ _ => rfl, parseBody_keepsActive⟩
theorem match_isStage : IsStage .matchBits matchBody := ⟨rfl, fun _ _ => rfl, matchBody_keepsActive⟩

/-- Settles O38: the stages of ENCODE put together one by one (`IsStage.issues`). -/
theorem encodeEqualsItsStages : Obligations.EncodeEqualsItsStages := by
  refine exec_eq_issueAll (body := encodeBody) rfl (by decide) ?_
  have h := freq_isStage.issues (by decide) (build_isStage.issues (by decide) (codegen_isStage.issues (by decide)
    (pack_isStage.issues (by decide) (serialize_isStage.issues (by decide) issues_nil))))
  simp only [Ran.andThen_ended_right, ← Ran.andThen_assoc] at h
  exact h

/-- Settles O42: the same of PARSE and MATCH. -/
theorem decodeEqualsItsStages : Obligations.DecodeEqualsItsStages := by
  refine exec_eq_issueAll (body := decodeBody) rfl (by decide) ?_
  have h := parse_isStage.issues (by decide) (match_isStage.issues (by decide) issues_nil)
  simp only [Ran.andThen_ended_right] at h
  exact h

end Sys2Proof.Machine
end

section
/-! PROOFS. Every command ends: with the counts and the tree as every run keeps them no stage stops the machine, and no
step leaves a command running (46_top_level R263). -/

namespace Sys2Proof.Machine

/-! No command is left running -/

theorem Ran.Meets.imp {P P' R R' : State → Prop} {r : Ran} (h : r.Meets P R) (hP : ∀ s, P s → P' s)
    (hR : ∀ s, R s → R' s) : r.Meets P' R' := by
  cases r with
  | ended s => exact hP s h
  | raised s => exact hR s h
  | stopped f => trivial

theorem StagesKeep.imp {P R R' : State → Prop} (h : StagesKeep P R) (hR : ∀ s, R s → R' s) : StagesKeep P R' where
  freq s hs := (h.freq s hs).imp (fun _ => id) hR
  build s hs := (h.build s hs).imp (fun _ => id) hR
  codegen s hs := (h.codegen s hs).imp (fun _ => id) hR
  pack s hs := (h.pack s hs).imp (fun _ => id) hR
  serialize s hs := (h.serialize s hs).imp (fun _ => id) hR
  parse s hs := (h.parse s hs).imp (fun _ => id) hR
  matchBits s hs := (h.matchBits s hs).imp (fun _ => id) hR

/-- No command is running. -/
def State.NotBusy (s : State) : Prop := s.status.busy = false

theorem notBusy_regWrite {s : State} (hs : s.NotBusy) (n : Nat) (v : Word) : (s.regWrite n v).NotBusy := by
  rcases regWrite_cases s n v with ⟨_, h⟩ | ⟨_, h⟩ | ⟨_, h⟩ | ⟨_, h⟩ <;> rw [h] <;> exact hs

/-- Every part of a step leaves no command running. -/
theorem notBusy_keptByParts : KeptByParts State.NotBusy State.Active where
  host _ _ hs := hs
  begin _ _ hm := active_beginCommand hm
  stages := active_stagesKeep.imp fun s hs => (s.mode_fault_iff.mp hs).1
  finish _ _ := rfl
  illegal _ _ _ := rfl
  clear _ _ := rfl
  reset _ _ := rfl
  reg _ n v hs := notBusy_regWrite hs n v
  mem _ sp _ _ _ _ hs := by cases sp <;> exact hs

/-! No stage stops the machine -/

/-- The body does not stop the machine. -/
def Ran.Answers : Ran → Prop
  | .stopped _ => False
  | _          => True

theorem Ran.Answers.andThen {P R : State → Prop} {r : Ran} {f : State → Ran} (h : r.Answers) (hr : r.Meets P R)
    (hf : ∀ s, P s → (f s).Answers) : (r.andThen f).Answers := by
  cases r with
  | ended s => exact hf s hr
  | raised s => trivial
  | stopped e => exact h

/-- A body that does not stop the machine answers a next state. -/
theorem Ran.Answers.exists_next {r : Ran} (h : r.Answers) : ∃ t, r.finish = .next t := by
  cases r with
  | ended s => exact ⟨_, rfl⟩
  | raised s => exact ⟨_, rfl⟩
  | stopped e => exact h.elim

/-- The two invariants on which the stages rely to end: the counts sum to a word, and NODE below ROOT is a tree. -/
structure State.Sound (s : State) : Prop where
  ft   : s.ftOk
  tree : s.treeOk

theorem Ran.Meets.sound {r : Ran} (hft : r.Meets State.ftOk State.ftOk) (htree : r.Meets State.treeOk State.treeOk) :
    r.Meets State.Sound State.Sound := by
  cases r with
  | ended s => exact ⟨hft, htree⟩
  | raised s => exact ⟨hft, htree⟩
  | stopped f => trivial

/-- Every stage keeps them. -/
theorem sound_stagesKeep : StagesKeep State.Sound State.Sound where
  freq s hs := (ftOk_keptByParts.stages.freq s hs.ft).sound (treeOk_keptByParts.stages.freq s hs.tree)
  build s hs := (ftOk_keptByParts.stages.build s hs.ft).sound (treeOk_keptByParts.stages.build s hs.tree)
  codegen s hs := (ftOk_keptByParts.stages.codegen s hs.ft).sound (treeOk_keptByParts.stages.codegen s hs.tree)
  pack s hs := (ftOk_keptByParts.stages.pack s hs.ft).sound (treeOk_keptByParts.stages.pack s hs.tree)
  serialize s hs := (ftOk_keptByParts.stages.serialize s hs.ft).sound (treeOk_keptByParts.stages.serialize s hs.tree)
  parse s hs := (ftOk_keptByParts.stages.parse s hs.ft).sound (treeOk_keptByParts.stages.parse s hs.tree)
  matchBits s hs := (ftOk_keptByParts.stages.matchBits s hs.ft).sound (treeOk_keptByParts.stages.matchBits s hs.tree)

theorem freqBody_answers (s : State) : (freqBody s).Answers := by
  rcases freqBody_cases s with ⟨_, h⟩ | ⟨_, _, h⟩ | ⟨_, _, h⟩ <;> rw [h] <;> trivial

/-- BUILD's records exist when the counts sum to at most a capacity (41_tree_builder R158). -/
theorem treeRows_leaves_ok {s : State} {c : Cap} (h : s.freqSum ≤ c.cells) :
    ∃ rows, treeRows (leavesFrom 0 s.freqTable) = .ok rows := by
  refine treeRows_ok ?_
  rw [sum_leavesFrom]
  exact h.trans_lt (cells_lt_two_pow c)

/-- BUILD does not stop: the counts sum to at most RAW_CAP, so no merge wraps (41_tree_builder R158). -/
theorem buildBody_answers {s : State} (hs : s.ftOk) : (buildBody s).Answers := by
  rcases buildBody_cases s with ⟨_, h⟩ | ⟨_, _, h⟩ | ⟨hft, _, f, hstop, _⟩ | ⟨_, _, rows, _, h⟩
  · rw [h]; trivial
  · rw [h]; trivial
  · obtain ⟨_, _, hcap⟩ := hs hft
    obtain ⟨rows, hrows⟩ := treeRows_leaves_ok hcap
    rw [hrows] at hstop
    cases hstop
  · rw [h]; trivial

/-- CODEGEN does not stop: the walk over a tree of at most 256 leaves ends (42_codebook R170, R178). -/
theorem codegenBody_answers {s : State} (hs : s.treeOk) : (codegenBody s).Answers := by
  rcases codegenBody_cases s with ⟨_, h⟩ | ⟨htree, hnone, _⟩ | ⟨_, w, _, h⟩
  · rw [h]; trivial
  · obtain ⟨h, hread, _, _, hfew⟩ := hs htree
    have hwalk : walkTree ((s.setPhase .cg).setFlag .cb false) = walkTree s := walkTree_congr (fun _ => rfl) rfl
    rw [hwalk, walkTree_of_tree hread hfew] at hnone
    cases hnone
  · rw [h]; trivial

theorem packBody_answers (s : State) : (packBody s).Answers := by
  rcases packBody_cases s with ⟨_, h⟩ | ⟨_, _, h⟩ | ⟨_, _, e, info, w, _, h⟩ | ⟨_, _, w, _, h⟩ <;> rw [h] <;> trivial

theorem serializeBody_answers (s : State) : (serializeBody s).Answers := by
  rcases serializeBody_cases s with ⟨_, h⟩ | ⟨_, _, _, h⟩ | ⟨_, _, _, h⟩ <;> rw [h] <;> trivial

theorem matchBody_answers (s : State) : (matchBody s).Answers := by
  rcases matchBody_cases s with ⟨_, h⟩ | ⟨_, _, _, h⟩ | ⟨_, _, _, wp, raw, _, h⟩ |
    ⟨_, _, _, a, wp, raw, _, ⟨_, h⟩ | ⟨_, h⟩⟩ <;> rw [h] <;> trivial

theorem parseBody_answers (s : State) : (parseBody s).Answers := by
  rcases parseBody_ends s with ⟨e, info, h⟩ | ⟨tag, _, ⟨e, info, h⟩ | ⟨c, h⟩⟩ <;> rw [h]
  · trivial
  · trivial
  · obtain ⟨cb, ⟨e, info, ht⟩ | ⟨cnt, pad, bits, payload, _, ht⟩⟩ := parseTable_ends (s.withTag tag) c <;> rw [ht] <;>
      trivial

/-- ENCODE does not stop: each stage is begun where the invariants still hold. -/
theorem encodeBody_answers {s : State} (hs : s.Sound) : (encodeBody s).Answers := by
  have keep := sound_stagesKeep
  have hfreq := keep.freq s hs
  have hbuild := hfreq.andThen keep.build
  have hcodegen := hbuild.andThen keep.codegen
  have hpack := hcodegen.andThen keep.pack
  have abuild := (freqBody_answers s).andThen hfreq fun _ hu => buildBody_answers hu.ft
  have acodegen := abuild.andThen hbuild fun _ hu => codegenBody_answers hu.tree
  have apack := acodegen.andThen hcodegen fun u _ => packBody_answers u
  exact apack.andThen hpack fun u _ => serializeBody_answers u

/-- No command stops the machine where the invariants hold. -/
theorem commandBody_answers {i : Instr} {body : State → Ran} (hi : commandBody i = some body) {s : State}
    (hs : s.Sound) : (body s).Answers := by
  cases i <;> cases hi
  case freq => exact freqBody_answers s
  case build => exact buildBody_answers hs.ft
  case codegen => exact codegenBody_answers hs.tree
  case pack => exact packBody_answers s
  case serialize => exact serializeBody_answers s
  case parse => exact parseBody_answers s
  case matchBits => exact matchBody_answers s
  case encode => exact encodeBody_answers hs
  case decode => exact (parseBody_answers s).andThen (sound_stagesKeep.parse s hs) fun u _ => matchBody_answers u

/-! Every host action answers a next state -/

theorem exec_answers (i : Instr) {s : State} (hs : s.Sound) : ∃ t, exec i s = .next t := by
  by_cases hm : s.mode = .idle
  · cases hi : commandBody i with
    | none =>
      obtain rfl := commandBody_eq_none hi
      exact ⟨_, issueClear_not_busy (by simp [hm])⟩
    | some body =>
      have hbegun : s.beginCommand.Sound := ⟨hs.ft, treeOk_congr hs.tree rfl rfl id⟩
      rw [exec_of_commandBody hi, issue_idle body hm]
      exact (commandBody_answers hi hbegun).exists_next
  · by_cases hi : i = .clr
    · subst hi
      by_cases hb : s.mode = .busy
      · exact ⟨_, issueClear_busy hb⟩
      · exact ⟨_, issueClear_not_busy hb⟩
    · exact ⟨_, exec_dropped hi hm⟩

theorem hostCommand_answers (w : Word) {s : State} (hs : s.Sound) : ∃ t, hostCommand w s = .next t := by
  cases hw : decode w with
  | some i =>
    obtain ⟨t, ht⟩ := exec_answers i hs
    exact ⟨t, by simpa [hostCommand, hw] using ht⟩
  | none =>
    rw [hostCommand_illegal hw]
    cases hm : s.mode <;> simp [issueIllegal, hm]

theorem hostAct_answers (a : HostAction) {s : State} (hs : s.Sound) : ∃ t, hostAct a s = .next t := by
  cases a with
  | writeReg n v =>
    by_cases hn : n = 0
    · obtain ⟨t, ht⟩ := hostCommand_answers v hs
      exact ⟨t, by simpa [hostAct, hostWriteReg, hn] using ht⟩
    · by_cases hm : s.mode = .busy
      · exact ⟨_, hostWriteReg_of_busy v hn hm⟩
      · exact ⟨_, hostWriteReg_of_not_busy v hn hm⟩
  | wait =>
    cases hb : s.status.busy <;> exact ⟨_, by simp only [hostAct, hb]; rfl⟩
  | writeMem | reset | readReg | readMem | readFreq | readNode | readCode => exact ⟨_, rfl⟩

/-- Settles O56: where the invariants hold every host action answers a next state (`hostAct_answers`), and
`notBusy_keptByParts` says that BUSY stays 0. -/
theorem everyCommandEnds : Obligations.EveryCommandEnds := by
  intro s hft htree
  have hanswers : ∃ t, step s = .next t := by
    cases hscript : s.host.script with
    | nil => exact ⟨s, by simp [step, hostStep, hscript]⟩
    | cons a rest =>
      rw [step_of_script hscript]
      exact hostAct_answers a ⟨hft, treeOk_congr htree rfl rfl id⟩
  obtain ⟨t, ht⟩ := hanswers
  exact ⟨t, ht, fun hs => notBusy_keptByParts.step hs ht⟩

end Sys2Proof.Machine
end

section
/-! PROOFS. ENCODE: what its stages leave unchanged, one after the other, and the state it ends in when it completes
(46_top_level R270). -/

namespace Sys2Proof.Machine

/-! What is kept over several steps -/

section
variable {s t u : State}

theorem KeepsRegs.mono {l l' : List Nat} (h : KeepsRegs l s t) (hl : l ⊆ l') : KeepsRegs l' s t :=
  fun n hn => h n fun hmem => hn (hl hmem)

theorem KeepsRegs.trans {l : List Nat} (h : KeepsRegs l s t) (h' : KeepsRegs l t u) : KeepsRegs l s u :=
  fun n hn => (h' n hn).trans (h n hn)

theorem KeepsFlags.mono {l l' : List Flag} (h : KeepsFlags l s t) (hl : l ⊆ l') : KeepsFlags l' s t :=
  fun f hf => h f fun hmem => hf (hl hmem)

theorem KeepsFlags.trans {l : List Flag} (h : KeepsFlags l s t) (h' : KeepsFlags l t u) : KeepsFlags l s u :=
  fun f hf => (h' f hf).trans (h f hf)

theorem KeepsBytes.mono {l l' : List Space} (h : KeepsBytes l s t) (hl : l ⊆ l') : KeepsBytes l' s t :=
  fun sp hsp => h sp fun hmem => hsp (hl hmem)

theorem KeepsBytes.trans {l : List Space} (h : KeepsBytes l s t) (h' : KeepsBytes l t u) : KeepsBytes l s u :=
  fun sp hsp i => (h' sp hsp i).trans (h sp hsp i)

theorem KeepsBytes.bytesFrom {l : List Space} {sp : Space} (h : KeepsBytes l s t) (hsp : sp ∉ l) (n : Nat) :
    KeepsBytesFrom sp n s t := fun i _ => h sp hsp i

theorem KeepsBytesFrom.mono {sp : Space} {n m : Nat} (h : KeepsBytesFrom sp n s t) (hn : n ≤ m) :
    KeepsBytesFrom sp m s t := fun i hi => h i (hn.trans hi)

theorem KeepsBytesFrom.trans {sp : Space} {n : Nat} (h : KeepsBytesFrom sp n s t) (h' : KeepsBytesFrom sp n t u) :
    KeepsBytesFrom sp n s u := fun i hi => (h' i hi).trans (h i hi)

theorem KeepsOutside.trans (h : KeepsOutside s t) (h' : KeepsOutside t u) : KeepsOutside s u :=
  ⟨h'.1.trans h.1, h'.2.trans h.2⟩

end

/-! The packer stays within PAY_CAP (43_bit_packer R195) -/

section
variable {cap : Nat} (info : Nat) {w : PackWork}

theorem PackWork.emit_wp_le (v : Nat) (hw : w.wp ≤ cap) : (w.emit cap info v).work.wp ≤ cap := by
  rcases Nat.lt_or_ge w.wp cap with h | h
  · rw [PackWork.emit_of_lt info v h]
    exact h
  · rw [PackWork.emit_of_le info v h]
    exact hw

theorem PackWork.push_wp_le (b : Bool) (hw : w.wp ≤ cap) : (w.push cap info b).work.wp ≤ cap := by
  by_cases h8 : w.baccN + 1 = 8
  · rcases Nat.lt_or_ge w.wp cap with h | h
    · rw [PackWork.push_whole info b h8 h]
      exact h
    · rw [PackWork.push_full info b h8 h]
      exact hw
  · rw [PackWork.push_pending info b h8]
    exact hw

theorem pushBits_wp_le (bs : List Bool) (hw : w.wp ≤ cap) : (pushBits cap info bs w).work.wp ≤ cap := by
  induction bs generalizing w with
  | nil => exact hw
  | cons b bs ih =>
    have hpush := PackWork.push_wp_le info b hw
    rw [pushBits]
    split
    next w₁ h =>
      rw [h] at hpush
      exact ih hpush
    next => exact hpush

theorem padLast_wp_le (hw : w.wp ≤ cap) : (padLast cap info w).work.wp ≤ cap := by
  rw [padLast]
  split
  · exact PackWork.emit_wp_le info _ hw
  · exact hw

end

theorem packBytes_wp_le {cap : Nat} (cb : List Code) (rp : Nat) (xs : List Byte) {w : PackWork} (hw : w.wp ≤ cap) :
    (packBytes cb cap rp xs w).work.wp ≤ cap := by
  induction xs generalizing rp w with
  | nil => exact hw
  | cons x xs ih =>
    simp only [packBytes]
    split
    · split
      · exact hw
      · have hpush := pushBits_wp_le rp (codeBits (cb.getD x.toNat Code.clear))
          (w := { w with bits := w.bits + (cb.getD x.toNat Code.clear).len.toNat }) hw
        split
        next w₁ h =>
          rw [h] at hpush
          exact ih _ hpush
        next => exact hpush
    · exact hw

theorem packAll_wp_le (cb : List Code) (cap : Nat) (bytes : List Byte) (pay : Memory) :
    (packAll cb cap bytes pay).work.wp ≤ cap := by
  have hbytes := packBytes_wp_le cb 0 bytes (w := ⟨0, 0, 0, 0, pay⟩) (Nat.zero_le cap)
  rw [packAll]
  split
  next w h =>
    rw [h] at hbytes
    exact padLast_wp_le _ hbytes
  next => exact hbytes

/-! Commands of a list, taken one by one -/

theorem issueAll_cons {i : Instr} {s u : State} (h : exec i s = .next u) (is : List Instr) :
    issueAll (i :: is) s = issueAll is u := by simp [issueAll, h]

theorem issueAll_cons_next {i : Instr} {is : List Instr} {s t : State} (h : issueAll (i :: is) s = .next t) :
    ∃ u, exec i s = .next u ∧ issueAll is u = .next t := by
  cases hi : exec i s with
  | next u => exact ⟨u, rfl, by rwa [issueAll_cons hi] at h⟩
  | fault f => simp [issueAll, hi] at h
  | refused r => simp [issueAll, hi] at h

/-! What ENCODE leaves unchanged -/

/-- What the stages before SERIALIZE leave unchanged. -/
structure KeptBeforeSerialize (s t : State) : Prop where
  regs      : KeepsRegs [1, 2, 3, 4, 8, 9, 10, 11, 12, 13] s t
  bytes     : KeepsBytes [.pay] s t
  payBeyond : KeepsBytesFrom .pay s.params.payCap.cells s t
  outside   : KeepsOutside s t

theorem KeptBeforeSerialize.trans {s t u : State} (h : KeptBeforeSerialize s t) (h' : KeptBeforeSerialize t u) :
    KeptBeforeSerialize s u where
  regs := h.regs.trans h'.regs
  bytes := h.bytes.trans h'.bytes
  payBeyond := h.payBeyond.trans (h.outside.1 ▸ h'.payBeyond)
  outside := h.outside.trans h'.outside

theorem freq_kept {s t : State} (h : exec .freq s = .next t) : KeptBeforeSerialize s t := by
  obtain ⟨hregs, _, hbytes, _, _, houtside, _⟩ := freqFrame s t h
  exact ⟨hregs.mono (by simp), hbytes.mono (by simp), hbytes.bytesFrom (by simp) _, houtside⟩

theorem build_kept {s t : State} (h : exec .build s = .next t) : KeptBeforeSerialize s t := by
  obtain ⟨hregs, _, hbytes, _, _, houtside, _⟩ := buildFrame s t h
  exact ⟨hregs.mono (by simp), hbytes.mono (by simp), hbytes.bytesFrom (by simp) _, houtside⟩

theorem codegen_kept {s t : State} (h : exec .codegen s = .next t) : KeptBeforeSerialize s t := by
  obtain ⟨hregs, _, hbytes, _, _, houtside, _⟩ := codegenFrame s t h
  exact ⟨hregs.mono (by simp), hbytes.mono (by simp), hbytes.bytesFrom (by simp) _, houtside⟩

theorem pack_kept {s t : State} (h : exec .pack s = .next t) : KeptBeforeSerialize s t := by
  obtain ⟨hregs, _, hbytes, hpay, _, _, _, houtside, _⟩ := packFrame s t h
  exact ⟨hregs.mono (by simp), hbytes, hpay.mono (packAll_wp_le _ _ _ _), houtside⟩

/-- An ENCODE that answers a next state comes to SERIALIZE, having kept what the four stages before it keep. -/
theorem exec_encode_serialize {s t : State} (h : exec .encode s = .next t) :
    ∃ u, KeptBeforeSerialize s u ∧ exec .serialize u = .next t := by
  rw [encodeEqualsItsStages s] at h
  obtain ⟨s₁, hfreq, h⟩ := issueAll_cons_next h
  obtain ⟨s₂, hbuild, h⟩ := issueAll_cons_next h
  obtain ⟨s₃, hcodegen, h⟩ := issueAll_cons_next h
  obtain ⟨s₄, hpack, h⟩ := issueAll_cons_next h
  obtain ⟨_, hserialize, hend⟩ := issueAll_cons_next h
  cases hend
  exact ⟨s₄, (((freq_kept hfreq).trans (build_kept hbuild)).trans (codegen_kept hcodegen)).trans (pack_kept hpack),
    hserialize⟩

/-! A stage that ends without a fault completed -/

/-- A command leaves no command running. -/
theorem exec_notBusy {i : Instr} {s t : State} (hs : s.NotBusy) (h : exec i s = .next t) : t.NotBusy := by
  have hword : decode (encode i) = some i := ((decodeIsInverseOfEncode _ _).mpr rfl)
  refine notBusy_keptByParts.acts hs (hostCommand_acts (w := encode i) ?_)
  rwa [hostCommand, hword]

/-- Commands that end without a fault were issued in IDLE mode: in FAULT mode they are dropped. -/
theorem issueAll_ok_idle {is : List Instr} {s t : State} (his : ∀ i ∈ is, i ≠ .clr) (hs : s.NotBusy)
    (h : issueAll is s = .next t) (hok : t.status.err = false) : s.mode = .idle := by
  by_contra hm
  cases h.symm.trans (issueAll_dropped his hm)
  exact hm (s.mode_idle_iff.mpr ⟨hs, hok⟩)

/-- The body of a command that ends without a fault ended. -/
theorem exec_ok_ended {i : Instr} {body : State → Ran} (hi : commandBody i = some body) {s t : State}
    (hm : s.mode = .idle) (h : exec i s = .next t) (hok : t.status.err = false) :
    ∃ u, body s.beginCommand = .ended u ∧ t = u.endCommand := by
  rw [exec_of_commandBody hi] at h
  rcases issue_next h with ⟨hbusy, _⟩ | ⟨_, u, hu, ht⟩ | ⟨_, hraised⟩
  · exact absurd hm hbusy
  · exact ⟨u, hu, ht⟩
  · have hfault := active_stagesKeep.commandBody hi _ (active_beginCommand hm)
    rw [hraised] at hfault
    cases (t.mode_fault_iff.mp hfault).2.symm.trans hok

section
variable {s t : State} (hm : s.mode = .idle) (hok : t.status.err = false)
include hm hok

theorem exec_freq_ok (h : exec .freq s = .next t) :
    s.rawLen ≠ 0 ∧ s.rawLen.toNat ≤ s.params.rawCap.cells ∧ t = s.counting := by
  obtain ⟨u, hu, rfl⟩ := exec_ok_ended rfl hm h hok
  rcases freqBody_cases s.beginCommand with ⟨_, hb⟩ | ⟨_, _, hb⟩ | ⟨hcap, h0, hb⟩ <;> cases hu.symm.trans hb
  exact ⟨h0, hcap, rfl⟩

theorem exec_pack_ok (h : exec .pack s = .next t) :
    s.rawLen.toNat ≤ s.params.rawCap.cells ∧ ∃ w, s.packs = .on w ∧ t = s.packing w := by
  obtain ⟨u, hu, rfl⟩ := exec_ok_ended rfl hm h hok
  rcases packBody_cases s.beginCommand with
    ⟨_, hb⟩ | ⟨_, _, hb⟩ | ⟨_, _, e, info, w, _, hb⟩ | ⟨_, hcap, w, hw, hb⟩ <;> cases hu.symm.trans hb
  exact ⟨hcap, w, hw, rfl⟩

end

/-! FREQ, BUILD and CODEGEN in a row -/

/-- A leaf is that of a count that is not 0. -/
theorem exists_count_of_mem_leavesFrom {v : Nat} {cs : List Word} {nd : Node} (h : nd ∈ leavesFrom v cs) :
    ∃ k c, cs[k]? = some c ∧ c ≠ 0 ∧ nd.sym = BitVec.ofNat 8 (v + k) := by
  induction cs generalizing v with
  | nil => cases h
  | cons c cs ih =>
    have hlater (hmem : nd ∈ leavesFrom (v + 1) cs) :
        ∃ k d, (c :: cs)[k]? = some d ∧ d ≠ 0 ∧ nd.sym = BitVec.ofNat 8 (v + k) := by
      obtain ⟨k, d, hk, hd, hsym⟩ := ih hmem
      exact ⟨k + 1, d, hk, hd, by rw [hsym, Nat.add_right_comm, Nat.add_assoc]⟩
    rw [leavesFrom] at h
    split at h
    · exact hlater h
    · next hc =>
      rcases List.mem_cons.mp h with rfl | hmem
      · exact ⟨0, c, rfl, hc, rfl⟩
      · exact hlater hmem

/-- The symbols with a leaf are those with a count (41_tree_builder R151). -/
theorem mem_sym_leaves_iff {s : State} {x : Byte} :
    x ∈ (leavesFrom 0 s.freqTable).map Node.sym ↔ s.ftAt x.toNat ≠ 0 := by
  have hget {k : Nat} (hk : k < nsym) : s.freqTable[k]? = some (s.ftAt k) := by simp [State.freqTable, hk]
  constructor
  · intro hx
    obtain ⟨nd, hnd, rfl⟩ := List.mem_map.mp hx
    obtain ⟨k, c, hk, hc, hsym⟩ := exists_count_of_mem_leavesFrom hnd
    have hlt : k < nsym := by simpa using (List.getElem?_eq_some_iff.mp hk).1
    have hnum : nd.sym.toNat = k := by
      rw [hsym, Nat.zero_add]
      exact Nat.mod_eq_of_lt hlt
    obtain rfl : s.ftAt k = c := by simpa [hget hlt] using hk
    rwa [hnum]
  · intro hx
    exact List.mem_map.mpr ⟨_, List.mem_of_getElem? (getElem?_leavesFrom 0 (hget x.isLt) hx), by simp [leafNode]⟩

/-- The symbols with a count after FREQ are those of RAW (40_frequency R142). -/
theorem State.counting_ftAt_ne_zero_iff {s : State} {x : Byte} :
    s.counting.ftAt x.toNat ≠ 0 ↔ x ∈ s.readBytes .raw s.rawLen.toNat := by
  have hget : s.counting.ftAt x.toNat = BitVec.ofNat 32 ((s.readBytes .raw s.rawLen.toNat).count x) := by
    simp [State.ftAt, getElem?_histogram]
  rw [hget, ← BitVec.toNat_inj.ne, toNat_count (by simpa using s.rawLen.isLt)]
  exact Nat.pos_iff_ne_zero.symm.trans List.count_pos_iff

/-- NODE below ROOT after a completed BUILD is a tree of BUILD's shapes over the leaves (10_state R37). -/
theorem State.building_tree? {s : State} (hne : leavesFrom 0 s.freqTable ≠ []) {rows : List Node}
    (hrows : treeRows (leavesFrom 0 s.freqTable) = .ok rows) :
    ∃ h, (s.building rows).tree? = some h ∧ h.proper = true
      ∧ h.symbols.Perm ((leavesFrom 0 s.freqTable).map Node.sym) := by
  obtain ⟨hsize, _, h, ht, hproper, hsyms⟩ :=
    treeRows_builtTree hne (fun _ => leaf_of_mem_leavesFrom) (length_leaves_le s) hrows
  have hfew : h.symbols.length ≤ nsym := by simpa [hsyms.length_eq] using length_leaves_le s
  have hroot : (s.building rows).root.toNat = rows.length - 1 := by
    have h511 : rows.length ≤ 511 := hsize
    exact Nat.mod_eq_of_lt (by omega)
  refine ⟨h, ?_, hproper, hsyms⟩
  rw [State.tree?, hroot]
  exact readTree_of_treeAt hsize (HTree.depth_lt_of_proper hproper hfew) ht

/-- The state after FREQ, BUILD with these records and CODEGEN over this tree. -/
abbrev State.coded (s : State) (rows : List Node) (h : HTree) : State :=
  (s.counting.building rows).coding ⟨writePaths h.paths clearedCb, h.symbols.length⟩

/-- FREQ, BUILD and CODEGEN complete, with a tree of BUILD's shapes over the symbols of RAW. -/
structure State.CodesTo (s : State) (rows : List Node) (h : HTree) : Prop where
  codegen : exec .codegen (s.counting.building rows) = .next (s.coded rows h)
  issued  : ∀ is, issueAll (.freq :: .build :: .codegen :: is) s = issueAll is (s.coded rows h)
  tree    : (s.counting.building rows).tree? = some h
  proper  : h.proper = true
  nodup   : h.symbols.Nodup
  few     : h.symbols.length ≤ nsym
  symbols : ∀ x, x ∈ h.symbols ↔ x ∈ s.readBytes .raw s.rawLen.toNat

/-- They complete on RAW_LEN from 1 to RAW_CAP. -/
theorem exists_codesTo {s : State} (hm : s.mode = .idle) (h0 : s.rawLen ≠ 0)
    (hcap : s.rawLen.toNat ≤ s.params.rawCap.cells) : ∃ rows h, s.CodesTo rows h := by
  have hpos : 1 ≤ s.rawLen.toNat := Nat.one_le_iff_ne_zero.mpr fun h => h0 (BitVec.eq_of_toNat_eq h)
  obtain ⟨_, herr⟩ := s.mode_idle_iff.mp hm
  have hft : s.counting.ftOk :=
    ftOk_of_histogram rfl (by simpa using hpos) (by simpa using hcap) (by simpa using s.rawLen.isLt)
  have hfirst : s.byteAt .raw 0 ∈ s.readBytes .raw s.rawLen.toNat :=
    List.mem_map.mpr ⟨0, List.mem_range.mpr hpos, rfl⟩
  have hne : leavesFrom 0 s.counting.freqTable ≠ [] := fun hnil => by
    simpa [hnil] using mem_sym_leaves_iff.mpr (State.counting_ftAt_ne_zero_iff.mpr hfirst)
  have hidle : s.counting.mode = .idle := s.counting.mode_idle_iff.mpr ⟨rfl, herr⟩
  obtain ⟨rows, hrows⟩ := treeRows_leaves_ok (hft rfl).2.2
  have hidle' : (s.counting.building rows).mode = .idle := State.mode_idle_iff _ |>.mpr ⟨rfl, herr⟩
  obtain ⟨h, ht, hproper, hsyms⟩ := State.building_tree? hne hrows
  have hfew : h.symbols.length ≤ nsym := by simpa [hsyms.length_eq] using length_leaves_le s.counting
  have hcodegen := exec_codegen_completes hidle' rfl (walkTree_of_tree ht hfew)
  refine ⟨rows, h, hcodegen, fun is => ?_, ht, hproper, ?_, hfew, fun x => ?_⟩
  · rw [issueAll_cons (exec_freq_completes hm h0 hcap), issueAll_cons (exec_build_completes hidle rfl hne hrows),
      issueAll_cons hcodegen]
  · exact hsyms.nodup_iff.mpr (nodup_sym_leaves _)
  · exact hsyms.mem_iff.trans (mem_sym_leaves_iff.trans State.counting_ftAt_ne_zero_iff)

section
variable {s : State} {rows : List Node} {h : HTree}

theorem State.coded_mode (hm : s.mode = .idle) (rows : List Node) (h : HTree) : (s.coded rows h).mode = .idle :=
  State.mode_idle_iff _ |>.mpr ⟨rfl, (s.mode_idle_iff.mp hm).2⟩

/-- ENCODE after them is PACK and SERIALIZE. -/
theorem State.CodesTo.encode (hs : s.CodesTo rows h) : exec .encode s = issueAll [.pack, .serialize] (s.coded rows h) :=
  (encodeEqualsItsStages s).trans (hs.issued _)

/-- The record of a leaf's symbol is that of the path to the leaf. -/
theorem State.CodesTo.cbAt_path (hs : s.CodesTo rows h) {p : Byte × List Bool} (hp : p ∈ h.paths) :
    (s.coded rows h).cbAt p.1.toNat = pathCode p.2 :=
  State.coding_cbAt (getElem?_writePaths_of_mem (h.map_fst_paths.symm ▸ hs.nodup) hp List.length_replicate)

/-- Every other record is clear. -/
theorem State.CodesTo.cbAt_clear (hs : s.CodesTo rows h) {v : Byte} (hv : v ∉ s.readBytes .raw s.rawLen.toNat) :
    (s.coded rows h).cbAt v.toNat = Code.clear := by
  have hnone : v ∉ h.paths.map Prod.fst := by rwa [h.map_fst_paths, hs.symbols]
  exact State.coding_cbAt ((getElem?_writePaths_of_notMem hnone _).trans
    (List.getElem?_replicate.trans (if_pos v.isLt)))

/-- Every byte of RAW has a codeword after them. -/
theorem State.CodesTo.valid (hs : s.CodesTo rows h) {x : Byte} (hx : x ∈ s.readBytes .raw s.rawLen.toNat) :
    ((s.coded rows h).cbAt x.toNat).valid = true := by
  obtain ⟨p, hp, rfl⟩ := List.mem_map.mp (h.map_fst_paths.symm ▸ (hs.symbols x).mpr hx)
  rw [hs.cbAt_path hp]
  rfl

/-- PACK and SERIALIZE complete too when the packed bits fit BIT_LEN and PAY, and the frame CTR. -/
theorem State.CodesTo.encode_completes (hm : s.mode = .idle) (hs : s.CodesTo rows h)
    (hcap : s.rawLen.toNat ≤ s.params.rawCap.cells) {w : PackWork} (hw : (s.coded rows h).packs = .on w)
    (hsize : frameSize ((s.coded rows h).packing w) ≤ s.params.ctrCap.cells) :
    exec .encode s = .next ((s.coded rows h).packing w).serialized := by
  have hidle : ((s.coded rows h).packing w).mode = .idle :=
    State.mode_idle_iff _ |>.mpr ⟨rfl, (s.mode_idle_iff.mp hm).2⟩
  rw [hs.encode, issueAll_cons (exec_pack_completes (State.coded_mode hm rows h) rfl hcap hw),
    issueAll_cons (exec_serialize_completes hidle rfl rfl hsize)]
  rfl

end

/-- An ENCODE that ends without a fault from IDLE mode completed every stage. -/
theorem exec_encode_ok {s t : State} (hm : s.mode = .idle) (h : exec .encode s = .next t) (hok : t.status.err = false) :
    s.rawLen.toNat ≤ s.params.rawCap.cells ∧ ∃ rows tree w, s.CodesTo rows tree ∧ (s.coded rows tree).packs = .on w
      ∧ frameSize ((s.coded rows tree).packing w) ≤ s.params.ctrCap.cells
      ∧ t = ((s.coded rows tree).packing w).serialized := by
  have hstages := h
  rw [encodeEqualsItsStages s] at hstages
  obtain ⟨s₁, hfreq, hrest⟩ := issueAll_cons_next hstages
  have hbusy : s₁.NotBusy := exec_notBusy (s.mode_idle_iff.mp hm).1 hfreq
  obtain ⟨_, herr⟩ := s₁.mode_idle_iff.mp (issueAll_ok_idle (by decide) hbusy hrest hok)
  obtain ⟨h0, hcap, _⟩ := exec_freq_ok hm herr hfreq
  obtain ⟨rows, tree, hcodes⟩ := exists_codesTo hm h0 hcap
  have hidle := State.coded_mode hm rows tree
  rw [hcodes.encode] at h
  obtain ⟨s₄, hpack, hrest⟩ := issueAll_cons_next h
  have hbusy : s₄.NotBusy := exec_notBusy (State.mode_idle_iff _ |>.mp hidle).1 hpack
  have hm₄ := issueAll_ok_idle (by decide) hbusy hrest hok
  obtain ⟨_, w, hw, rfl⟩ := exec_pack_ok hidle (s₄.mode_idle_iff.mp hm₄).2 hpack
  obtain ⟨_, hserialize, hend⟩ := issueAll_cons_next hrest
  cases hend
  obtain ⟨_, _, hsize, ht⟩ := exec_serialize_ok hm₄ hserialize hok
  exact ⟨hcap, rows, tree, w, hcodes, hw, hsize, ht⟩

/-! ENCODE as a frame -/

/-- A completed packing is written below WP, which is its PAY_LEN. -/
theorem State.packing_keepsPay {s : State} {w : PackWork} (hw : s.packs = .on w) :
    KeepsBytesFrom .pay (s.packing w).payLen.toNat s (s.packing w) := by
  obtain ⟨bs, hwp, hpay⟩ := packAll_appends s.codebook s.params.payCap.cells (s.readBytes .raw s.rawLen.toNat) s.pay
  rw [show packAll _ _ _ _ = .on w from hw] at hwp hpay
  have hlen : (s.packing w).payLen.toNat = bs.length := by
    rw [show (s.packing w).payLen = BitVec.ofNat 32 w.wp from rfl, toNat_ofNat_of_le_cells (State.packs_on hw).2]
    exact hwp.trans (Nat.zero_add _)
  exact fun i hi => State.byteAt_beyond_write hpay (hlen ▸ hi)

/-- A completed SERIALIZE writes CTR below CTR_LEN. -/
theorem State.serialized_keepsCtr {s : State} (hsize : frameSize s ≤ s.params.ctrCap.cells) :
    KeepsBytesFrom .ctr s.serialized.ctrLen.toNat s s.serialized := by
  rw [(State.serialized_readBytes hsize).1, ← length_frameBytes]
  exact fun i hi => State.byteAt_beyond_write rfl hi

/-- Settles O41: the stages before SERIALIZE keep what `KeptBeforeSerialize` says, and SERIALIZE what O28 and O29 say; a
completed ENCODE ends as `exec_encode_ok` says. -/
theorem encodeFrame : Obligations.EncodeFrame := by
  intro s t h
  obtain ⟨u, hkept, hserialize⟩ := exec_encode_serialize h
  obtain ⟨hregs, _, hbytes, _, _, _, _, houtside⟩ := serializeFrame u t hserialize
  refine ⟨(hkept.regs.mono (by simp)).trans (hregs.mono (by simp)),
    (hkept.bytes.mono (by simp)).trans (hbytes.mono (by simp)),
    hkept.payBeyond.trans (hbytes.bytesFrom (by simp) _), hkept.outside.trans houtside, fun hok => ?_, fun herr => ?_⟩
  · by_cases hm : s.mode = .idle
    · obtain ⟨_, rows, tree, w, _, hw, hsize, rfl⟩ := exec_encode_ok hm h hok
      exact ⟨State.packing_keepsPay (s := s.coded rows tree) hw, State.serialized_keepsCtr hsize⟩
    · cases h.symm.trans (exec_dropped (by decide) hm)
      exact ⟨fun _ _ => rfl, fun _ _ => rfl⟩
  · obtain ⟨_, hfaulted⟩ := serializeNeverPartlyWrites
    obtain ⟨hkeeps, hctrLen⟩ := hfaulted u t hserialize herr
    exact ⟨hkept.bytes.trans (hkeeps.mono (by simp)), hctrLen.trans (hkept.regs 7 (by decide))⟩

end Sys2Proof.Machine
end

section
/-! PROOFS. ENCODE completes: on every input whose worst case fits, and on equal bytes with the container of one entry
(46_top_level R270, 41_tree_builder R156, 42_codebook R175). -/

namespace Sys2Proof.Machine

/-- A packing in which every byte has a codeword and the bits fit BIT_LEN and PAY writes the padded bit string. -/
theorem State.packs_completes {s : State}
    (hcoded : ∀ x ∈ s.readBytes .raw s.rawLen.toNat, (s.cbAt x.toNat).valid = true)
    (htotal : (s.rawBits s.rawLen.toNat).length < 2 ^ 32)
    (hceil : ceil8 (s.rawBits s.rawLen.toNat).length ≤ s.params.payCap.cells) :
    ∃ w, s.packs = .on w ∧ w.bits = (s.rawBits s.rawLen.toNat).length ∧ w.wp = ceil8 (s.rawBits s.rawLen.toNat).length
      ∧ w.pay = s.pay.write 0 (wholeBytes (padded (s.rawBits s.rawLen.toNat))) := by
  have hfill := eight_mul_ceil8 (s.rawBits s.rawLen.toNat).length
  have hpad7 := padOf_lt (s.rawBits s.rawLen.toNat).length
  have hall : s.PacksTo s.rawLen.toNat := by
    refine ⟨fun i hi => hcoded _ ?_, htotal, by omega⟩
    exact List.mem_map.mpr ⟨i, List.mem_range.mpr hi, rfl⟩
  obtain ⟨w, hpad, hw⟩ := padLast_after s.rawLen.toNat s.pay hceil
  exact ⟨w, (State.packs_of_all hall).trans hpad, hw⟩

/-! The worst case -/

/-- A codeword has at most 255 bits (42_codebook R178). -/
theorem State.length_bitString_le (s : State) (bytes : List Byte) :
    (s.bitString bytes).length ≤ 255 * bytes.length := by
  induction bytes with
  | nil => simp [State.bitString]
  | cons x xs ih =>
    have hlen : (codeBits (s.cbAt x.toNat)).length ≤ 255 := by
      rw [length_codeBits]
      exact Nat.le_of_lt_succ (s.cbAt x.toNat).len.isLt
    have hcons : s.bitString (x :: xs) = codeBits (s.cbAt x.toNat) ++ s.bitString xs := List.flatMap_cons
    rw [hcons, List.length_append, List.length_cons]
    omega

theorem ceil8_mono {m n : Nat} (h : m ≤ n) : ceil8 m ≤ ceil8 n := by
  unfold ceil8
  omega

/-- A symbol table has at most 256 entries of at most 34 bytes (30_encoding R113). -/
theorem frameSize_le (s : State) : frameSize s ≤ 1 + s.tagLen.toNat + 4 + 256 * 34 + 5 + s.payLen.toNat := by
  have hentry : ∀ n ∈ (validEntries s).map entrySize, n ≤ 34 := by
    intro n hn
    obtain ⟨e, _, rfl⟩ := List.mem_map.mp hn
    have hlen := e.2.len.isLt
    unfold entrySize ceil8
    omega
  have hcount : (validEntries s).length ≤ 256 := s.length_symbolTable ▸ s.length_symbolTable_le
  have htable := List.sum_le_card_nsmul _ 34 hentry
  rw [List.length_map, smul_eq_mul] at htable
  unfold frameSize
  omega

/-- Settles O39: FREQ, BUILD and CODEGEN complete (`exists_codesTo`), the packed bits are at most 255 for each byte, and
the table at most 256 full entries. -/
theorem encodeCompletes : Obligations.EncodeCompletes := by
  intro s hm hpos hcap htotal hceil hsize
  have h0 : s.rawLen ≠ 0 := fun h => by simp [h] at hpos
  obtain ⟨rows, h, hs⟩ := exists_codesTo hm h0 hcap
  have hbits : ((s.coded rows h).rawBits s.rawLen.toNat).length ≤ 255 * s.rawLen.toNat := by
    simpa using (s.coded rows h).length_bitString_le ((s.coded rows h).readBytes .raw s.rawLen.toNat)
  obtain ⟨w, hw, _, hwp, _⟩ := State.packs_completes (s := s.coded rows h) (fun x hx => hs.valid hx)
    (hbits.trans_lt htotal) ((ceil8_mono hbits).trans hceil)
  have hpay : ((s.coded rows h).packing w).payLen.toNat ≤ ceil8 (255 * s.rawLen.toNat) :=
    (Nat.mod_le _ _).trans (hwp.le.trans (ceil8_mono hbits))
  have hframe := frameSize_le ((s.coded rows h).packing w)
  refine ⟨_, hs.encode_completes hm hcap hw ?_, ⟨rfl, rfl, (s.mode_idle_iff.mp hm).2, rfl, rfl, rfl⟩, fun f => ?_⟩
  · exact hframe.trans ((Nat.add_le_add_left hpay _).trans hsize)
  · cases f <;> rfl

/-! One symbol (41_tree_builder R156, 42_codebook R175) -/

theorem HTree.symbols_ne_nil (h : HTree) : h.symbols ≠ [] := by
  induction h with
  | leaf v => simp [HTree.symbols]
  | single h ih => exact ih
  | fork l r ihl _ => simp [HTree.symbols, ihl]

/-- A tree of BUILD's shapes over one symbol is the synthetic root over its leaf. -/
theorem HTree.eq_single_of_symbols {h : HTree} {x : Byte} (hp : h.proper = true) (hx : h.symbols = [x]) :
    h = .single (.leaf x) := by
  cases h with
  | leaf v => cases hp
  | single g =>
    cases g with
    | leaf v =>
      cases hx
      rfl
    | single g => cases hp
    | fork l r => cases hp
  | fork l r =>
    have hl := List.length_pos_iff.mpr l.symbols_ne_nil
    have hr := List.length_pos_iff.mpr r.symbols_ne_nil
    have hone := congrArg List.length hx
    simp only [HTree.symbols, List.length_append, List.length_singleton] at hone
    omega

/-- The codebook of one codeword, that of x, which is the one bit 0 (42_codebook R175). -/
abbrev State.OneCode (s : State) (x : Byte) : Prop :=
  ∀ v : Byte, s.cbAt v.toNat = if v = x then ⟨true, 1, 0⟩ else Code.clear

/-- The codeword of a lone symbol is the one bit 0. -/
theorem pathCode_false : pathCode [false] = ⟨true, 1, 0⟩ := by decide

section
variable {s : State} {rows : List Node} {h : HTree} {x : Byte} {n : Nat}

theorem bitsVal_replicate_false (n : Nat) : bitsVal (List.replicate n false) = 0 := by
  simpa [bitsVal] using bitsVal_append_zeros [] n

/-- Zero bits pack to zero bytes (30_encoding R110). -/
theorem wholeBytes_padded_replicate_false (n : Nat) :
    wholeBytes (padded (List.replicate n false)) = List.replicate (ceil8 n) 0 := by
  have hpadded : padded (List.replicate n false) = List.replicate (8 * ceil8 n) false := by
    rw [padded, List.length_replicate, List.replicate_append_replicate, eight_mul_ceil8]
  rw [hpadded, List.eq_replicate_iff]
  refine ⟨by simp, fun b hb => ?_⟩
  obtain ⟨k, _, rfl⟩ := List.mem_map.mp hb
  rw [List.drop_replicate, List.take_replicate, byteOf, bitsVal_replicate_false]
  rfl

/-- Over equal bytes the codebook is that of one codeword, the bit 0. -/
theorem State.CodesTo.oneCode (hs : s.CodesTo rows h)
    (hraw : s.readBytes .raw s.rawLen.toNat = List.replicate n x)
    (hn : n ≠ 0) : (s.coded rows h).OneCode x := fun v => by
  have hmem (y : Byte) : y ∈ s.readBytes .raw s.rawLen.toNat ↔ y = x := by simp [hraw, hn]
  have hsymbols : h.symbols = [x] :=
    List.perm_singleton.mp ((List.perm_ext_iff_of_nodup hs.nodup (List.nodup_singleton x)).mpr fun y => by
      simp [hs.symbols, hmem])
  obtain rfl := HTree.eq_single_of_symbols hs.proper hsymbols
  by_cases hv : v = x
  · rw [if_pos hv, hv, ← pathCode_false]
    exact hs.cbAt_path (p := (x, [false])) (by simp [HTree.paths])
  · rw [if_neg hv]
    exact hs.cbAt_clear fun hmem' => hv ((hmem v).mp hmem')

/-- The table of such a codebook has one entry. -/
theorem validEntries_of_one {s : State} (hcb : s.OneCode x) :
    validEntries s = [(x.toNat, ⟨true, 1, 0⟩)] := by
  have hvalid : ∀ k ∈ List.range nsym, (s.cbAt k).valid = decide (BitVec.ofNat 8 k = x) := by
    intro k hk
    have hnum : (BitVec.ofNat 8 k).toNat = k := Nat.mod_eq_of_lt (List.mem_range.mp hk)
    have hk := hcb (BitVec.ofNat 8 k)
    rw [hnum] at hk
    rw [hk]
    split <;> simp_all [Code.clear]
  rw [validEntries_eq, List.filter_congr hvalid, filter_range_symbol, List.map_singleton, hcb, if_pos rfl]

/-- Its codewords joined are as many zero bits as there are bytes. -/
theorem bitString_of_one {s : State} (hcb : s.OneCode x) :
    s.bitString (List.replicate n x) = List.replicate n false := by
  have hbit : codeBits (s.cbAt x.toNat) = [false] := by
    rw [hcb, if_pos rfl]
    decide
  rw [State.bitString, List.flatMap_replicate, hbit, List.flatten_replicate_singleton]

/-- Under it equal bytes pack to zero bits, padded with zero bits (43_bit_packer R192). -/
theorem State.packs_of_one {s : State} (hcb : s.OneCode x) (hraw : s.readBytes .raw s.rawLen.toNat = List.replicate n x)
    (hn : n < 2 ^ 32) (hceil : ceil8 n ≤ s.params.payCap.cells) :
    ∃ w, s.packs = .on w ∧ (s.packing w).payLen.toNat = ceil8 n
      ∧ (s.packing w).padLen = BitVec.ofNat 8 (padOf n) ∧ (s.packing w).bitLen.toNat = n
      ∧ (s.packing w).readBytes .pay (ceil8 n) = List.replicate (ceil8 n) 0 := by
  have hbits : s.rawBits s.rawLen.toNat = List.replicate n false := (congrArg _ hraw).trans (bitString_of_one hcb)
  have hvalid : ∀ y ∈ s.readBytes .raw s.rawLen.toNat, (s.cbAt y.toNat).valid = true := by
    intro y hy
    rw [hraw] at hy
    rw [hcb, if_pos (List.eq_of_mem_replicate hy)]
  obtain ⟨w, hw, hwbits, hwp, hwpay⟩ :=
    State.packs_completes hvalid (by simpa [hbits] using hn) (by simpa [hbits] using hceil)
  rw [hbits, List.length_replicate] at hwbits hwp
  rw [hbits, wholeBytes_padded_replicate_false] at hwpay
  refine ⟨w, hw, (toNat_ofNat_of_le_cells (hwp.trans_le hceil)).trans hwp,
    congrArg (fun bits => BitVec.ofNat 8 (padOf bits)) hwbits, ?_, ?_⟩
  · rw [BitVec.toNat_ofNat, hwbits, Nat.mod_eq_of_lt hn]
  · have hread := State.readBytes_of_write (s := s) (t := s.packing w) (sp := .pay) hwpay
    rwa [List.length_replicate] at hread

theorem frameSize_of_one {s : State} (hcb : s.OneCode x) :
    frameSize s = s.tagLen.toNat + 13 + s.payLen.toNat := by
  have hentry : entrySize (x.toNat, ⟨true, 1, 0⟩) = 3 := by simp [entrySize, ceil8]
  rw [frameSize, validEntries_of_one hcb, List.map_singleton, List.sum_singleton, hentry]
  omega

/-- Its frame has one entry, the codeword packed into one byte (30_encoding R110, R113). -/
theorem frameBytes_of_one {s : State} (hcb : s.OneCode x) :
    frameBytes s = [s.tagLen] ++ s.readBytes .tag s.tagLen.toNat ++ [0, 0, 0, 1, x, 1, 0, s.padLen]
      ++ beBytes s.bitLen.toNat 4 ++ s.readBytes .pay s.payLen.toNat := by
  have hcount : beBytes 1 4 = [0, 0, 0, 1] := by decide
  have hentry : entryBytes (x.toNat, ⟨true, 1, 0⟩) = [x, 1, 0] := by
    have hval : beBytes 0 (ceil8 1) = [0] := by decide
    rw [entryBytes, BitVec.ofNat_toNat, BitVec.setWidth_eq]
    exact congrArg ([x, 1] ++ ·) hval
  rw [frameBytes, validEntries_of_one hcb, List.length_singleton, hcount, List.flatMap_singleton, hentry]
  simp only [List.append_assoc, List.cons_append, List.nil_append]

end

/-- Settles O40: over equal bytes the tree is the synthetic root over one leaf, so the codeword is the bit 0 and the
payload zero bytes. -/
theorem encodeOneSymbol : Obligations.EncodeOneSymbol := by
  intro s x hm hpos hcap hall hceil hsize n
  have h0 : s.rawLen ≠ 0 := fun h => by simp [h] at hpos
  have hraw : s.readBytes .raw n = List.replicate n x := by
    refine List.eq_replicate_iff.mpr ⟨by simp, fun b hb => ?_⟩
    obtain ⟨i, hi, rfl⟩ := List.mem_map.mp hb
    exact hall i (List.mem_range.mp hi)
  obtain ⟨rows, h, hs⟩ := exists_codesTo hm h0 hcap
  have hcb := hs.oneCode hraw (Nat.one_le_iff_ne_zero.mp hpos)
  obtain ⟨w, hw, hpayLen, hpadLen, hbitLen, hpayload⟩ := State.packs_of_one hcb hraw s.rawLen.isLt hceil
  have hone : ((s.coded rows h).packing w).OneCode x := hcb
  have hfits : frameSize ((s.coded rows h).packing w) = s.tagLen.toNat + 13 + ceil8 n :=
    (frameSize_of_one hone).trans (congrArg _ hpayLen)
  have hroom := hfits.trans_le hsize
  obtain ⟨hctrLen, hctr⟩ := State.serialized_readBytes (s := (s.coded rows h).packing w) hroom
  refine ⟨_, hs.encode_completes hm hcap hw hroom, ⟨rfl, rfl, (s.mode_idle_iff.mp hm).2, rfl, rfl, rfl⟩, fun f => ?_,
    hctrLen.trans hfits, ?_⟩
  · cases f <;> rfl
  · rw [hctr, frameBytes_of_one hone, hpayLen, hpayload, hbitLen, hpadLen]
    rfl

end Sys2Proof.Machine
end

section
/-! PROOFS. DECODE: what PARSE and MATCH leave unchanged together, the message recovered from a frame, and the input of
ENCODE given back (46_top_level R272 to R274). -/

namespace Sys2Proof.Machine

/-! DECODE by its stages (R273) -/

/-- A DECODE that answers a next state is a PARSE and a MATCH that do. -/
theorem exec_decode_stages {s t : State} (h : exec .decode s = .next t) :
    ∃ u, exec .parse s = .next u ∧ exec .matchBits u = .next t := by
  rw [decodeEqualsItsStages s] at h
  obtain ⟨u, hparse, h⟩ := issueAll_cons_next h
  obtain ⟨_, hmatch, hend⟩ := issueAll_cons_next h
  cases hend
  exact ⟨u, hparse, hmatch⟩

theorem exec_decode_of_stages {s u t : State} (hparse : exec .parse s = .next u)
    (hmatch : exec .matchBits u = .next t) :
    exec .decode s = .next t := by
  rw [decodeEqualsItsStages s, issueAll_cons hparse, issueAll_cons hmatch]
  rfl

/-! What DECODE leaves unchanged -/

/-- MATCH stays within RAW_CAP (45_decoder R240). -/
theorem matchLoop_written_le {cap : Nat} (cb : List Code) (bits : List Bool) (a : Acc) {wp : Nat} (raw : Memory)
    (hwp : wp ≤ cap) : (matchLoop cb cap bits a wp raw).written ≤ cap := by
  induction bits generalizing a wp raw with
  | nil => exact hwp
  | cons b bits ih =>
    rw [matchLoop]
    split
    · exact ih _ raw hwp
    · split
      · exact ih _ _ ‹_›
      · exact hwp

/-- A MATCH that answers a next state was dropped or has written PHASE: its own, or 0 when it ended. -/
theorem exec_match_phase {s t : State} (h : exec .matchBits s = .next t) :
    t = s ∨ t.phase = Position.du.code ∨ t.phase = Position.idle.code := by
  rcases exec_match_cases h with rfl | rfl | rfl | rfl
  · exact .inl rfl
  · exact .inr (.inl rfl)
  · exact .inr (.inl rfl)
  · cases s.matched with
    | full wp raw => exact .inr (.inl rfl)
    | spent a wp raw =>
      rw [State.matchEnd]
      split
      · exact .inr (.inr rfl)
      · exact .inr (.inl rfl)

/-- A MATCH that ends without a fault has written RAW below RAW_LEN. -/
theorem exec_match_ok_keepsRaw {s t : State} (h : exec .matchBits s = .next t) (hok : t.status.err = false) :
    KeepsBytesFrom .raw t.rawLen.toNat s t := by
  rcases exec_match_cases h with rfl | rfl | rfl | rfl
  · exact fun _ _ => rfl
  · cases hok
  · cases hok
  · obtain ⟨bs, hwp, hmemory⟩ :=
      matchLoop_writes s.codebook s.params.rawCap.cells (s.payBits s.bitLen.toNat) Acc.empty 0 s.raw
    have hcap : s.matched.written ≤ s.params.rawCap.cells := matchLoop_written_le _ _ _ _ (Nat.zero_le _)
    change s.matched.written = _ at hwp
    change s.matched.memory = _ at hmemory
    cases hend : s.matched with
    | full wp raw =>
      rw [hend] at hok
      cases hok
    | spent a wp raw =>
      rw [hend] at hok hwp hmemory hcap
      rw [State.matchEnd] at hok ⊢
      split at hok
      · next ha =>
        have hlen : (s.matching wp raw).rawLen.toNat = bs.length :=
          (toNat_ofNat_of_le_cells hcap).trans (hwp.trans (Nat.zero_add _))
        rw [if_pos ha, hlen]
        exact fun i hi => State.byteAt_beyond_write hmemory hi
      · cases hok

/-- Settles O44: PARSE keeps what O33 says and MATCH what O37 says; a fault with PHASE 6 is PARSE's, and MATCH was
dropped after it. -/
theorem decodeFrame : Obligations.DecodeFrame := by
  intro s t h
  obtain ⟨u, hparse, hmatch⟩ := exec_decode_stages h
  obtain ⟨hregs, hflags, hbytes, htag, hpay, hfreqs, hnodes, houtside, hfault⟩ := parseFrame s u hparse
  obtain ⟨hregs', hflags', hbytes', hraw', hfreqs', hnodes', _, houtside'⟩ := matchFrame u t hmatch
  have hraw (n : Nat) : KeepsBytesFrom .raw n s u := hbytes.bytesFrom (by simp) n
  have hpayLen : t.payLen = u.payLen := hregs' 11 (by decide)
  have hcap : KeepsBytesFrom .raw s.params.rawCap.cells u t := by
    rw [← houtside.1]
    exact hraw'.mono (matchLoop_written_le _ _ _ _ (Nat.zero_le _))
  refine ⟨(hregs.mono (by simp)).trans (hregs'.mono (by simp)), hflags.trans (hflags'.mono (by simp)),
    (hbytes.mono (by simp)).trans (hbytes'.mono (by simp)), htag.trans (hbytes'.bytesFrom (by simp) _), ?_,
    (hraw _).trans hcap, fun v => (hfreqs' v).trans (hfreqs v), fun i => (hnodes' i).trans (hnodes i),
    houtside.trans houtside', fun hok => (hraw _).trans (exec_match_ok_keepsRaw hmatch hok), fun _ hphase => ?_⟩
  · rw [hpayLen]
    exact hpay.trans (hbytes'.bytesFrom (by simp) _)
  · rcases exec_match_phase hmatch with rfl | hdu | hidle
    · exact ⟨hbytes, hregs 5 (by decide)⟩
    · exact absurd (hphase.symm.trans hdu) (by decide)
    · exact absurd (hphase.symm.trans hidle) (by decide)

/-! The message in a frame (R272) -/

/-- The bits of a byte string read from PAY are those of PAY (20_memory R72). -/
theorem State.bytesBits_readBytes (s : State) (n : Nat) : bytesBits (s.readBytes .pay n) = s.payBits (8 * n) := by
  induction n with
  | zero => rfl
  | succ n ih =>
    have hbyte : bytesBits [s.byteAt .pay n] = (List.range 8).map fun k => s.bitAt .pay (8 * n + k) := by
      rw [bytesBits, List.flatMap_singleton]
      refine List.map_congr_left fun k hk => ?_
      have hlt := List.mem_range.mp hk
      rw [State.bitAt, show (8 * n + k) / 8 = n by omega, show (8 * n + k) % 8 = k by omega]
    have happend : bytesBits (s.readBytes .pay (n + 1))
        = bytesBits (s.readBytes .pay n) ++ bytesBits [s.byteAt .pay n] := by
      rw [State.readBytes_succ, bytesBits, List.flatMap_append, bytesBits, bytesBits]
    rw [happend, ih, hbyte, State.payBits, State.payBits, Nat.mul_succ, List.range_add, List.map_append, List.map_map]
    rfl

/-- The first bits of PAY are the first bits of its bytes. -/
theorem State.payBits_eq_take {s : State} {n k : Nat} (h : n ≤ 8 * k) :
    s.payBits n = (bytesBits (s.readBytes .pay k)).take n := by
  rw [s.bytesBits_readBytes, State.payBits, State.payBits, ← List.map_take, List.take_range, Nat.min_eq_left h]

/-- The records of a symbol table fit (10_state R38, 44_container R227). -/
theorem codeFits_tableCode (es : List TableEntry) (v : Byte) : CodeFits (tableCode es v) := by
  rw [tableCode]
  split
  · exact ⟨by decide, fun _ => rfl⟩
  next e _ =>
    have hfits := codeFits_of_lt (Nat.le_of_lt_succ e.2.1.isLt) (Nat.mod_lt (be e.2.2) (Nat.two_pow_pos e.2.1.toNat))
    rwa [BitVec.ofNat_toNat, BitVec.setWidth_eq] at hfits

/-- A codebook with the records of a symbol table is that table's. -/
theorem State.codebook_eq_tableCodebook {s : State} {es : List TableEntry}
    (h : ∀ v : Byte, s.cbAt v.toNat = tableCode es v) : s.codebook = tableCodebook es := by
  refine List.map_congr_left fun v hv => ?_
  rw [← h, BitVec.toNat_ofNat, Nat.mod_eq_of_lt (List.mem_range.mp hv)]

/-- Settles O43: PARSE completes with the table's codebook and the payload (O30), so MATCH recovers m (O35). -/
theorem decodeRecoversMessage : Obligations.DecodeRecoversMessage := by
  intro s tag cnt es pad nbits payload m hm hctr htag hvalid hcnt hn hes hnbits hhold hpay hbytes hprefix hne hcovers
    hbits hroom
  obtain ⟨u, hparse, hwell, hcb, hpv, htagLen, htagBytes, _, hcodes, _, hbitLen, hpayLen, hpayload⟩ :=
    parseReadsFrame s tag cnt es pad nbits payload hm hctr htag hvalid hcnt hn hes hnbits hhold hpay hbytes
  obtain ⟨hbusy, _, herr, _, herrCode, herrInfo⟩ := hwell
  obtain ⟨_, _, _, _, _, _, _, ⟨hparams, _⟩, _⟩ := parseFrame s u hparse
  have hbook : u.codebook = tableCodebook es := State.codebook_eq_tableCodebook hcodes
  have hmessage : u.payBits u.bitLen.toNat = u.bitString m := by
    rw [hbitLen, State.payBits_eq_take hhold, hpayload, hbits]
    exact List.flatMap_congr fun x _ => congrArg codeBits (hcodes x).symm
  obtain ⟨t, hmatch, hwell', hrawLen, hraw⟩ := matchRecoversMessage u m (u.mode_idle_iff.mpr ⟨hbusy, herr⟩) hcb hpv
    (by rwa [hbitLen, hpayLen]) (fun v => hcodes v ▸ codeFits_tableCode es v) (hbook ▸ hprefix) (hbook ▸ hne)
    (fun x hx => hcodes x ▸ hcovers x hx) hmessage (hparams ▸ hroom)
  obtain ⟨_, _, _, _, _, _, _, _, _, rfl⟩ := exec_match_writes hmatch
  obtain ⟨hbusy', hdone', herr', hphase', herrCode', herrInfo'⟩ := hwell'
  exact ⟨_, exec_decode_of_stages hparse hmatch,
    ⟨hbusy', hdone', herr', hphase', herrCode'.trans herrCode, herrInfo'.trans herrInfo⟩, hcb, hpv, hrawLen, hraw,
    htagLen, htagBytes⟩

/-! The input of ENCODE (R274) -/

/-- The payload of a completed packing is the bit string of RAW (43_bit_packer R192). -/
theorem State.packing_payBits {s : State} (hm : s.mode = .idle) (hcb : s.flag .cb = true)
    (hraw : s.rawLen.toNat ≤ s.params.rawCap.cells) {w : PackWork} (hw : s.packs = .on w) :
    (s.packing w).payBits (s.packing w).bitLen.toNat = s.rawBits s.rawLen.toNat := by
  have hall := State.packsTo_of_on hw _ le_rfl
  have hceil : ceil8 (s.rawBits s.rawLen.toNat).length ≤ s.params.payCap.cells := Nat.le_of_not_lt fun hover => by
    cases (hw.symm.trans (State.packs_of_all hall)).trans (padLast_after_full _ _ hall.room hover)
  obtain ⟨t, ht, _, _, hbitLen, _, _, hfill, _, _, hbits⟩ :=
    packJoinsCodewords s hm hcb hraw hall.coded hall.total hceil
  cases (exec_pack_completes hm hcb hraw hw).symm.trans ht
  rw [hbitLen]
  refine List.ext_getElem (by simp [State.payBits]) fun j _ hj => ?_
  simp only [State.payBits, List.getElem_map, List.getElem_range]
  rw [hbits j (hj.trans_le ((Nat.le_add_right _ _).trans_eq hfill.symm)), List.getD_eq_getElem _ _ hj]

/-- A completed PACK sets BIT_LEN and PAY_LEN to agree with each other and with PAY_CAP (45_decoder R241). -/
theorem State.packing_bounds {s : State} {w : PackWork} (hw : s.packs = .on w) :
    (s.packing w).bitLen.toNat ≤ 8 * (s.packing w).payLen.toNat
      ∧ (s.packing w).payLen.toNat ≤ s.params.payCap.cells := by
  obtain ⟨hwp, hcap⟩ := State.packs_on hw
  exact payOk_of_lengths rfl rfl (hwp ▸ le_ceil8 w.bits) hcap rfl

/-- CODEGEN's codebook fits (10_state R38). -/
theorem State.CodesTo.fits {s : State} {rows : List Node} {h : HTree} (hs : s.CodesTo rows h) (v : Byte) :
    CodeFits ((s.coded rows h).cbAt v.toNat) := by
  obtain ⟨hlen, hfits⟩ := walkTree_fittingTable (walkTree_of_tree hs.tree hs.few)
  have hlt : v.toNat < (writePaths h.paths clearedCb).length := hlen ▸ v.isLt
  rw [State.coding_cbAt (List.getElem?_eq_getElem hlt)]
  exact hfits _ (List.getElem_mem hlt)

/-- In CODEGEN's codebook no codeword begins another and none is empty (42_codebook R177). -/
theorem State.CodesTo.prefixFree {s : State} {rows : List Node} {h : HTree} (hm : s.mode = .idle)
    (hs : s.CodesTo rows h) : PrefixFree (s.coded rows h).codebook ∧ NoEmptyCode (s.coded rows h).codebook :=
  codegenIsPrefixFree (s.counting.building rows) _ (State.mode_idle_iff _ |>.mpr ⟨rfl, (s.mode_idle_iff.mp hm).2⟩) rfl
    (fun _ => ⟨h, hs.tree, hs.proper, hs.nodup, hs.few⟩) hs.codegen

/-- DECODE of the frame SERIALIZE has written, under a fitting codebook in which no codeword begins another, completes
and recovers the tag and the message whose codewords the payload's bits are (44_container R231, 45_decoder R249). -/
theorem exec_decode_serialized {p : State} {m : List Byte} (herr : p.status.err = false)
    (hsize : frameSize p ≤ p.params.ctrCap.cells)
    (hvalid : p.params.tagValid (p.readBytes .tag p.tagLen.toNat) = true)
    (hfits : ∀ v : Byte, CodeFits (p.cbAt v.toNat)) (hprefix : PrefixFree p.codebook) (hne : NoEmptyCode p.codebook)
    (hhold : p.bitLen.toNat ≤ 8 * p.payLen.toNat) (hpay : p.payLen.toNat ≤ p.params.payCap.cells)
    (hcovers : ∀ x ∈ m, (p.cbAt x.toNat).valid = true) (hbits : p.payBits p.bitLen.toNat = p.bitString m)
    (hroom : m.length ≤ p.params.rawCap.cells) :
    ∃ t, exec .decode p.serialized = .next t ∧ EndsWell p.serialized t ∧ t.rawLen.toNat = m.length
      ∧ t.readBytes .raw m.length = m ∧ t.tagLen = p.tagLen
      ∧ t.readBytes .tag p.tagLen.toNat = p.readBytes .tag p.tagLen.toNat := by
  have hframe := State.serialized_tableThen hsize hvalid
  have hcodes := State.tableCode_symbolTable hfits
  have hbook : p.codebook = tableCodebook p.symbolTable := State.codebook_eq_tableCodebook fun v => (hcodes v).symm
  have hbitLen : be (beBytes p.bitLen.toNat 4) = p.bitLen.toNat := be_beBytes 4 _ p.bitLen.isLt
  have hcount : be (beBytes p.symbolTable.length 4) = p.symbolTable.length :=
    be_beBytes 4 _ (p.length_symbolTable_le.trans_lt (by decide))
  have hmessage : (bytesBits (p.readBytes .pay p.payLen.toNat)).take (be (beBytes p.bitLen.toNat 4))
      = m.flatMap fun x => codeBits (tableCode p.symbolTable x) := by
    rw [hbitLen, ← State.payBits_eq_take hhold, hbits]
    exact List.flatMap_congr fun x _ => congrArg codeBits (hcodes x).symm
  obtain ⟨t, hdecode, hwell, _, _, hrawLen, hraw, htagLen, htag⟩ :=
    decodeRecoversMessage p.serialized _ _ p.symbolTable p.padLen (beBytes p.bitLen.toNat 4)
      (p.readBytes .pay p.payLen.toNat) m (State.mode_idle_iff _ |>.mpr ⟨rfl, herr⟩) hframe.fits hframe.tagLength
      hvalid hframe.cntLength hcount hframe.whole (length_beBytes _ _) (by rwa [hbitLen, State.length_readBytes])
      (by rwa [State.length_readBytes]) 
      (hframe.bytes.trans (by simp only [List.append_assoc]; rfl)) (hbook ▸ hprefix) (hbook ▸ hne)
      (fun x hx => (hcodes x).symm ▸ hcovers x hx) hmessage hroom
  rw [State.length_readBytes] at htagLen htag
  exact ⟨t, hdecode, hwell, hrawLen, hraw, BitVec.eq_of_toNat_eq htagLen, htag⟩

/-- Settles O45: a completed ENCODE ends in SERIALIZE over CODEGEN's codebook and the packed bits of RAW
(`exec_encode_ok`), so `exec_decode_serialized` applies to the bytes of RAW. -/
theorem decodeRestoresEncodedInput : Obligations.DecodeRestoresEncodedInput := by
  intro s t hm hvalid h hok
  obtain ⟨hcap, rows, tree, w, hs, hw, hsize, rfl⟩ := exec_encode_ok hm h hok
  obtain ⟨hhold, hpay⟩ := State.packing_bounds hw
  obtain ⟨hprefix, hne⟩ := hs.prefixFree hm
  have hbits := State.packing_payBits (State.coded_mode hm rows tree) rfl hcap hw
  obtain ⟨u, hdecode, hwell, hrawLen, hraw, htagLen, htag⟩ :=
    exec_decode_serialized (p := (s.coded rows tree).packing w) (m := s.readBytes .raw s.rawLen.toNat) hok hsize hvalid
      hs.fits hprefix hne hhold hpay (fun x hx => hs.valid hx) hbits (by rwa [State.length_readBytes])
  rw [State.length_readBytes] at hrawLen hraw
  have hrawLen' : u.rawLen = s.rawLen := BitVec.eq_of_toNat_eq hrawLen
  exact ⟨u, hdecode, hwell, hrawLen', hrawLen' ▸ hraw, htagLen, htagLen ▸ htag⟩

end Sys2Proof.Machine
end

section
/-! PROOFS. Exceptions: the illegal word, a stage without its flags, the empty input, and what keeps the fault record
(60_exceptions R293, R296, R297, R305). -/

namespace Sys2Proof.Machine

/-! An illegal word (R296) -/

theorem issueIllegal_idle {s : State} (w : Word) (hm : s.mode = .idle) :
    issueIllegal w s = .next (s.beginCommand.raise .illegalCommand w) := by
  simp [issueIllegal, hm]

/-- Settles O5: the command begins and raises, which is a raise at the start of SEQ with no flag of its own. -/
theorem illegalWordRaises : Obligations.IllegalWordRaises := by
  intro s w hw hm
  exact ⟨s.beginCommand.raise .illegalCommand w, (hostCommand_illegal hw s).trans (issueIllegal_idle w hm),
    ⟨rfl, rfl, rfl, rfl, rfl, rfl⟩, onlyTheFaultRecorded_atStart s .seq [] .illegalCommand w⟩

/-! A stage whose required flag is 0 (R297), and the empty input (R293) -/

section
variable {s : State}

theorem buildBody_of_ft_clear (h : s.status.ftV = false) :
    buildBody s = .raised (((s.setPhase .tb).setFlag .tree false).raise .sequence 0x02) := if_pos h

theorem codegenBody_of_tree_clear (h : s.status.treeV = false) :
    codegenBody s = .raised (((s.setPhase .cg).setFlag .cb false).raise .sequence 0x03) := if_pos h

theorem packBody_of_cb_clear (h : s.status.cbV = false) :
    packBody s = .raised (((s.setPhase .bp).setFlag .pay false).raise .sequence 0x04) := if_pos h

theorem serializeBody_of_flag_clear (h : s.status.cbV = false ∨ s.status.payV = false) :
    serializeBody s = .raised ((s.setPhase .fs).raise .sequence 0x05) := if_pos h

theorem matchBody_of_flag_clear (h : s.status.cbV = false ∨ s.status.payV = false) :
    matchBody s = .raised ((s.setPhase .du).raise .sequence 0x07) := if_pos h

/-- A length of 0 is within every capacity, so FREQ's second check is the one that fails. -/
theorem freqBody_of_empty (h : s.rawLen = 0) :
    freqBody s = .raised (((s.setPhase .fa).setFlag .ft false).raise .emptyInput 0) := by
  simp [freqBody, h]

end

/-- Settles O11: each of the five bodies raises at its start, so `faultsAtOnce_of_raised` applies. -/
theorem stagesNeedTheirFlags : Obligations.StagesNeedTheirFlags := by
  intro s hm
  exact ⟨fun hft => faultsAtOnce_of_raised rfl hm (buildBody_of_ft_clear hft),
    fun htree => faultsAtOnce_of_raised rfl hm (codegenBody_of_tree_clear htree),
    fun hcb => faultsAtOnce_of_raised rfl hm (packBody_of_cb_clear hcb),
    fun hflag => faultsAtOnce_of_raised rfl hm (serializeBody_of_flag_clear hflag),
    fun hflag => faultsAtOnce_of_raised rfl hm (matchBody_of_flag_clear hflag)⟩

/-- Settles O13: FREQ raises at its start, and ENCODE with it, as FREQ is its first stage. -/
theorem emptyInputFaults : Obligations.EmptyInputFaults := by
  intro s hm hraw
  have hfreq : freqBody s.beginCommand = _ := freqBody_of_empty hraw
  exact ⟨faultsAtOnce_of_raised rfl hm hfreq, faultsAtOnce_of_raised rfl hm (encodeBody_of_freq_raised hfreq)⟩

/-! The fault record (R305) -/

/-- STATUS, ERR_CODE, ERR_INFO and PHASE are as before. -/
def KeepsFaultRecord (s t : State) : Prop :=
  t.status = s.status ∧ t.errCode = s.errCode ∧ t.errInfo = s.errInfo ∧ t.phase = s.phase

theorem keepsFaultRecord_regWrite (s : State) (n : Nat) (v : Word) : KeepsFaultRecord s (s.regWrite n v) := by
  rcases regWrite_cases s n v with ⟨_, hw⟩ | ⟨_, hw⟩ | ⟨_, hw⟩ | ⟨_, hw⟩ <;> rw [hw] <;> exact ⟨rfl, rfl, rfl, rfl⟩

theorem keepsFaultRecord_setMem (s : State) (sp : Space) (m : Memory) : KeepsFaultRecord s (s.setMem sp m) := by
  cases sp <;> exact ⟨rfl, rfl, rfl, rfl⟩

/-- Of what a host action can lead to, only CLR and reset change the fault record of a state in FAULT mode: every other
command needs IDLE mode to run. -/
theorem Acts.keepsFaultRecord {a : HostAction} {s t : State} (ha : Acts a s t) (hm : s.mode = .fault)
    (hreset : a ≠ .reset) (hclr : a ≠ .writeReg 0 0x0000001F) : KeepsFaultRecord s t := by
  have hnotIdle : s.mode ≠ .idle := by simp [hm]
  cases ha with
  | dropped => exact ⟨rfl, rfl, rfl, rfl⟩
  | read h => exact ⟨rfl, rfl, rfl, rfl⟩
  | ended _ _ hidle _ => exact absurd hidle hnotIdle
  | raised _ _ hidle _ => exact absurd hidle hnotIdle
  | illegal _ hidle => exact absurd hidle hnotIdle
  | cleared hw _ =>
    obtain rfl : _ = encode .clr := (decodeIsInverseOfEncode _ .clr).mp hw
    exact absurd rfl hclr
  | regWritten _ _ => exact keepsFaultRecord_regWrite s _ _
  | memWritten _ _ _ => exact keepsFaultRecord_setMem s _ _
  | reset => exact absurd rfl hreset

/-- Settles O57: taking the action off the list changes the host's side alone, and `Acts.keepsFaultRecord` says it of
the action. -/
theorem faultRecordIsKept : Obligations.FaultRecordIsKept := by
  intro s t a rest hm hscript hreset hclr h
  rw [step_of_script hscript] at h
  exact (hostAct_acts h).keepsFaultRecord (s := s.afterTaking rest) hm hreset hclr

end Sys2Proof.Machine
end

section
/-! PROOFS. Reset and hazards: the state after a reset and what the first commands do there (70_reset R330 to R332), and
that CODEGEN reads no earlier contents of CB (R344). -/

namespace Sys2Proof.Machine

/-! The state after a reset (R331) -/

section
variable (p : Params) (stamp : Nat) (h : HostSide)

theorem State.mode_afterReset : (State.afterReset p stamp h).mode = .idle := rfl

theorem State.flag_afterReset (f : Flag) : (State.afterReset p stamp h).flag f = false := by cases f <;> rfl

theorem State.regRead_afterReset (n : Nat) : (State.afterReset p stamp h).regRead n = 0 := by
  induction n using reg_cases
  case h1 => exact Status.word_reset
  all_goals rfl

theorem State.mem_afterReset (sp : Space) : (State.afterReset p stamp h).mem sp = Memory.unknown stamp := by
  cases sp <;> rfl

end

theorem Memory.unknown_within (stamp cap : Nat) : (Memory.unknown stamp).within cap :=
  ⟨Memory.unknown_wf stamp, fun _ hc => absurd hc List.not_mem_nil⟩

/-- Settles O8: the registers by `State.regRead_afterReset`, the mode by `State.mode_afterReset`. -/
theorem resetZeroesRegisters : Obligations.ResetZeroesRegisters := fun p stamp h =>
  ⟨State.regRead_afterReset p stamp h, State.mode_afterReset p stamp h⟩

/-- Settles O9: in every mode the action taken answers `State.resetAgain`, a state after a reset. -/
theorem resetWorksInAnyMode : Obligations.ResetWorksInAnyMode := by
  intro s rest hscript
  exact ⟨(s.afterTaking rest).resetAgain, step_of_script hscript, State.regRead_afterReset _ _ _,
    State.mode_afterReset _ _ _, rfl, rfl⟩

/-- Settles O49: after a reset the mode bits and fault registers are clear, nothing is listed in a memory or in CB, and
the flags that guard the payload, the codebook, the counts and the tree are 0. -/
theorem invariantsHoldAtReset : Obligations.InvariantsHoldAtReset := by
  intro p s
  have hflag (f : Flag) : s.flag f = false := State.flag_afterReset p 0 _ f
  have hmode : s.modeOk := ⟨rfl, fun ⟨hdone, _⟩ => Bool.false_ne_true hdone, fun _ => ⟨rfl, rfl, rfl⟩,
    fun herr => absurd herr Bool.false_ne_true⟩
  have hmem : s.memOk := (memOk_iff s).mpr fun sp =>
    State.mem_afterReset p 0 _ sp ▸ Memory.unknown_within 0 _
  have hcb : s.cbOk := ⟨.inr rfl, fun hv => absurd ((hflag .cb).symm.trans hv) Bool.false_ne_true,
    fun _ hc => absurd hc List.not_mem_nil⟩
  exact ⟨hmode, hmem, payOk_of_flag_clear (hflag .pay), hcb, ftOk_of_flag_clear (hflag .ft),
    treeOk_of_flag_clear (hflag .tree)⟩

/-! The first commands after a reset (R332) -/

/-- With no container PARSE raises at its start, and DECODE with it, as PARSE is its first stage (44_container R222). -/
theorem emptyContainerFaults {s : State} (hm : s.mode = .idle) (hctr : s.ctrLen = 0) :
    FaultsAtOnce .parse .fp .truncatedContainer 0 [.cb, .pay] s
      ∧ FaultsAtOnce .decode .fp .truncatedContainer 0 [.cb, .pay] s := by
  have hzero : s.beginCommand.ctrLen.toNat = 0 := congrArg BitVec.toNat hctr
  have hparse : parseBody s.beginCommand = _ := parseBody_of_empty hzero
  exact ⟨faultsAtOnce_of_raised rfl hm hparse, faultsAtOnce_of_raised rfl hm (decodeBody_of_parse_raised hparse)⟩

/-- Settles O10: the input and the container are empty (O13, `emptyContainerFaults`), the flags the other stages need are
0 (O11), and CLR is not dropped. -/
theorem firstCommandsAfterReset : Obligations.FirstCommandsAfterReset := by
  intro p stamp h s
  have hm : s.mode = .idle := State.mode_afterReset p stamp h
  have hflag (f : Flag) : s.flag f = false := State.flag_afterReset p stamp h f
  obtain ⟨hfreq, hencode⟩ := emptyInputFaults s hm rfl
  obtain ⟨hbuild, hcodegen, hpack, hserialize, hmatch⟩ := stagesNeedTheirFlags s hm
  obtain ⟨hparse, hdecode⟩ := emptyContainerFaults hm rfl
  have hnotBusy : s.mode ≠ .busy := by simp [hm]
  have hclr : exec .clr s = .next s.cleared := issueClear_not_busy hnotBusy
  exact ⟨hfreq, hencode, hbuild (hflag .ft), hcodegen (hflag .tree), hpack (hflag .cb), hserialize (.inl (hflag .cb)),
    hmatch (.inl (hflag .cb)), hparse, hdecode, s.cleared, hclr, rfl, rfl⟩

/-! CODEGEN reads NODE and ROOT alone (R344) -/

/-- A CODEGEN that answers a next state with TREE_V = 1 has completed, with what the walk has written. -/
theorem exec_codegen_of_tree {s t : State} (hm : s.mode = .idle) (htree : s.flag .tree = true)
    (h : exec .codegen s = .next t) : ∃ w, walkTree s = some w ∧ t = s.coding w := by
  rw [exec_of_commandBody rfl, issue_idle _ hm] at h
  rcases codegenBody_cases s.beginCommand with ⟨hclear, _⟩ | ⟨_, _, hb⟩ | ⟨_, w, hw, hb⟩
  · exact absurd (htree.symm.trans hclear) (by decide)
  · rw [hb] at h
    cases h
  · rw [hb] at h
    cases h
    exact ⟨w, s.walkTree_begun.symm.trans hw, rfl⟩

/-- The walk lists all 256 records, so nothing is read of what CB held before (42_codebook R171). -/
theorem State.codebook_coding {s : State} {w : Walked} (hw : walkTree s = some w) (u : State) :
    (u.coding w).codebook = w.cb := by
  obtain ⟨hlen, _⟩ := walkTree_fittingTable hw
  exact State.codebook_of_rows hlen

/-- Settles O21: the walk is the same at both states (`walkTree_congr`), and CB and SYM_CNT are what it has written. -/
theorem codegenDependsOnTreeOnly : Obligations.CodegenDependsOnTreeOnly := by
  intro s₁ s₂ t₁ hm₁ hm₂ htree₁ htree₂ hnode hroot hexec
  obtain ⟨w, hw₁, rfl⟩ := exec_codegen_of_tree hm₁ htree₁ hexec
  have hw₂ : walkTree s₂ = some w := (walkTree_congr hnode hroot).trans hw₁
  exact ⟨s₂.coding w, exec_codegen_completes hm₂ htree₂ hw₂,
    (State.codebook_coding hw₁ s₂).trans (State.codebook_coding hw₁ s₁).symm, rfl⟩

end Sys2Proof.Machine
end
